-- ==== Sys2Proof/Word.lean ====
section
/-! DEFINITION. The word types of the block (00_scope R6, R8, R9) and the two-element set that names audio
channels, display channels and line-buffer slots. -/

namespace Sys2Proof

/-- An 8-bit value: a PWM level, a pixel byte, a row index, one byte of an encoding. -/
abbrev Byte := BitVec 8

/-- A 16-bit value: a PCM sample, the volume, a colour, a step label. -/
abbrev Half := BitVec 16

/-- A 32-bit value: a FIFO word (`WORD_W`), a DMA count, the source handle. -/
abbrev Word := BitVec 32

/-- A two-element set (R9): audio channels A and B, display channels 0 and 1, line-buffer slots 0 and 1.
`a` is the one whose bit is 0 in a step label (30_encoding R102). -/
inductive Side where
  | a
  | b
  deriving DecidableEq, Repr

/-- `other(A) = B`, `other(0) = 1` and back (R9). -/
def Side.other : Side → Side
  | .a => .b
  | .b => .a

/-- The bit that stands for the element (R102). -/
def Side.bit : Side → Nat
  | .a => 0
  | .b => 1

/-- The element a bit stands for (R102). -/
def Side.ofBool : Bool → Side
  | false => .a
  | true => .b

end Sys2Proof
end

