-- ==== Sys2Proof/Config.lean ====
section
/-! DEFINITION. What an implementation fixes (00_scope R6) and the values the spec leaves free (`draw`, R10). -/

namespace Sys2Proof

/-- `CAP`, the entries of one SampleBlock (R6). -/
def CAP : Nat := 1024

/-- `LEVEL_MAX`, the clamp of the mixer (R6). -/
def LEVEL_MAX : Nat := 255

/-- `PAL_STORE`, the depth of the palette store (R6, R43). -/
def PAL_STORE : Nat := 16

/-- `SCALE`, the scale mode (R6, R42). -/
inductive Scale where
  | unscaled
  | x15
  | x2
  deriving DecidableEq, Repr

/-- The encoding of `SCALE` (30_encoding R109): 3 is reserved and names no mode (R112 e, U9). -/
def Scale.ofBits (v : BitVec 2) : Option Scale :=
  if v = 0#2 then some .unscaled
  else if v = 1#2 then some .x15
  else if v = 2#2 then some .x2
  else none

/-- The number of a scale mode (R109). -/
def Scale.toBits : Scale → BitVec 2
  | .unscaled => 0#2
  | .x15 => 1#2
  | .x2 => 2#2

/-- The configuration function `HMAP` of the scaled modes (R186, U21), as plain data. -/
inductive ScaledMap where
  /-- `(2*d + 1) div 3`: the odd source column of each pair is doubled (R186, the spec's default). -/
  | oddDoubled
  /-- `2*d div 3`: the even column is doubled (R186, the alternative the spec names). -/
  | evenDoubled
  /-- Any other map: entry `d` is the source index shown at destination `d`, or nothing (R186 "so that the
  other choice can be substituted"). -/
  | table (entries : List (Option Nat))
  deriving DecidableEq, Repr

/-- The parameters the spec leaves OPEN and a model takes as arguments (R6). `SB_ALIGN` is not observable (R78). -/
structure Params where
  fifoDepth : Nat
  lineW : Nat
  frameH : Nat
  srcW : Nat
  scale : Scale
  scaledMap : ScaledMap
  silence : Byte
  sbAlign : Nat
  /-- MODEL: a test drives the display engine alone (41_display R181), so that DSP.POLL is a turn of its own. In the
  assembled block CTX_B polls only inside XC.DRIVE (R231, D33; log entry 27). -/
  engineAlone : Bool
  deriving DecidableEq, Repr

/-- `MARGIN`, the horizontal margin of unscaled output (R6). -/
def Params.margin (p : Params) : Nat := (p.lineW - p.srcW) / 2

/-- Every source index a scaled map answers is an index of a producer row (R185: "0..`SRC_W`-1 or `none`"). -/
def ScaledMap.ok (srcW : Nat) : ScaledMap → Bool
  | .oddDoubled => true
  | .evenDoubled => true
  | .table es => es.all fun e => e.all fun x => x < srcW

/-- The constraints of R6, with `LINE_W` below 2^16 because `D_POS` has 16 bits (DEDUCED from R41, log entry 17). -/
def Params.wf (p : Params) : Bool :=
  p.srcW % 2 == 0 && decide (p.margin + p.srcW ≤ p.lineW) &&
  (p.scale == .unscaled || decide (3 * p.srcW / 2 ≤ p.lineW)) &&
  decide (1 ≤ p.frameH) && decide (p.frameH ≤ 2 ^ 16) && decide (1 ≤ p.fifoDepth) &&
  decide (p.lineW < 2 ^ 16) && p.scaledMap.ok p.srcW

/-- The defaults R6 suggests. `SCALE` and `SB_ALIGN` have none there: `unscaled` and 1 are this model's
(DESIGN CHOICE, log entry 5; unsafe for a claim about this one parameter set). -/
def Params.default : Params :=
  { fifoDepth := 8, lineW := 240, frameH := 240, srcW := 160, scale := .unscaled,
    scaledMap := .oddDoubled, silence := 0#8, sbAlign := 1,
    engineAlone := false }

/-- Where a free value is drawn: one name per kind of read the spec leaves open. -/
inductive DrawSite where
  /-- A byte of space SRC that nothing has supplied (20_memory R74, U19). -/
  | srcByte
  /-- `VOL` with `VOL_V` = 0 (40_audio R135, U2). -/
  | volume
  /-- A level read from a SampleBlock entry never written, past the block, or of a raced run (R140, U1, U3, U4). -/
  | sample
  /-- A level written to `PWM_LEVEL` after `F_AUD_RECONFIG` (U5). -/
  | level
  /-- A `ROWBUF` entry never written (U1). -/
  | rowByte
  /-- A palette entry with `PAL_V` = 0 (41_display R184, U2). -/
  | colour
  /-- A ScanlineBuffer entry never written, or of a raced run (R193, U1, R82). -/
  | pixel
  deriving DecidableEq, Repr

/-- The free values: `draw(N)` of R10, "an unconstrained N-bit value chosen afresh at each use". It has no body
that a proof can see. `n` is `State.draws` at the step, `i` tells the draws of one step apart. -/
opaque Config.draw (w : Nat) (site : DrawSite) (n i : Nat) : BitVec w

end Sys2Proof
end

