-- ==== Sys2Proof/Syntax.lean ====
section
/-! DEFINITION. The operation set: one constructor per row of opcode_table.json (30_encoding R100, R117). -/

namespace Sys2Proof

/-- The 32 rows of R117 with their operands (R103). -/
inductive Instr where
  /-- AUD.START (R131). -/
  | audStart (src len prio : Word)
  /-- AUD.STOP (R132). -/
  | audStop
  /-- AUD.SERVICE (R133). -/
  | audService
  /-- AUD.SETVOL (R144). -/
  | audSetvol (vol : Half)
  /-- DSP.FRAMEREQ (R182). -/
  | dspFramereq
  /-- XC.SUBMIT.CALL (R225). -/
  | xcSubmitCall (row : Byte) (pixels : List Byte) (palette : List Half)
  /-- XC.SUBMIT.ACQ (R226). -/
  | xcSubmitAcq
  /-- XC.SUBMIT.PUSH (R227). -/
  | xcSubmitPush
  /-- XC.PUSHNOP (R230). -/
  | xcPushnop
  /-- XC.POP (R228). -/
  | xcPop
  /-- XC.DRIVE (R229). -/
  | xcDrive
  /-- DSP.POLL.WF (R188). -/
  | dspPollWf
  /-- DSP.POLL.SF (R189). -/
  | dspPollSf
  /-- DSP.POLL.RR (R190). -/
  | dspPollRr
  /-- DSP.POLL.WD (R191). -/
  | dspPollWd
  /-- AUD.FILL (R135). -/
  | audFill (c : Side)
  /-- AUD.MIX (R136). -/
  | audMix (x y vol : Half)
  /-- AUD.BEAT (R140). -/
  | audBeat (c : Side)
  /-- AUD.DONE (R141). -/
  | audDone (c : Side)
  /-- AUD.IRQ (R142). -/
  | audIrq (c : Side)
  /-- AUD.ABORT (R143). -/
  | audAbort (c : Side)
  /-- AUD.TRIGGER (R139). -/
  | audTrigger (c : Side)
  /-- AUD.SVC (R134). -/
  | audSvc (c : Side)
  /-- DSP.BEAT (R193). -/
  | dspBeat (k : Side)
  /-- DSP.DONE (R194). -/
  | dspDone (k : Side)
  /-- DSP.MAP (R184). -/
  | dspMap (p : Byte)
  /-- DSP.HMAP (R185, R186). The spec gives the index `d` no width: 16 bits are this model's (DESIGN CHOICE, log entry
  28, safe). -/
  | dspHmap (d : Half)
  /-- DSP.ISSUE (R192). -/
  | dspIssue
  /-- FIFO.PUSH (R222). -/
  | fifoPush (w : Word)
  /-- FIFO.POP (R223). -/
  | fifoPop
  /-- The command word NOP (R221). -/
  | nop
  /-- The command word DRAWLINE (R221). -/
  | drawline (row : Byte)
  deriving DecidableEq, Repr

/-- What a FIFO word asks of the consumer (R104): the closed set of two commands. -/
inductive Command where
  | nop
  | drawLine (row : Byte)
  deriving DecidableEq, Repr

/-- The column "kind" of R117. -/
inductive Kind where
  | op
  | hw
  | irq
  | uop
  | fn
  | word
  | pseudo
  deriving DecidableEq, Repr

/-- The kind of each row (R117). -/
def Instr.kind : Instr → Kind
  | .audStart _ _ _ => .op
  | .audStop => .op
  | .audService => .pseudo
  | .audSetvol _ => .op
  | .dspFramereq => .op
  | .xcSubmitCall _ _ _ => .op
  | .xcSubmitAcq => .op
  | .xcSubmitPush => .op
  | .xcPushnop => .op
  | .xcPop => .op
  | .xcDrive => .op
  | .dspPollWf => .op
  | .dspPollSf => .op
  | .dspPollRr => .op
  | .dspPollWd => .op
  | .audFill _ => .uop
  | .audMix _ _ _ => .fn
  | .audBeat _ => .hw
  | .audDone _ => .hw
  | .audIrq _ => .irq
  | .audAbort _ => .uop
  | .audTrigger _ => .uop
  | .audSvc _ => .op
  | .dspBeat _ => .hw
  | .dspDone _ => .hw
  | .dspMap _ => .fn
  | .dspHmap _ => .fn
  | .dspIssue => .uop
  | .fifoPush _ => .uop
  | .fifoPop => .uop
  | .nop => .word
  | .drawline _ => .word

/-- Whether a row is a step some agent takes (kinds `op`, `hw`, `irq`, and the pseudo-operation made of two such
steps). A `uop`, `fn` or `word` row happens only inside another rule (R117). -/
def Instr.isStep (i : Instr) : Bool :=
  match i.kind with
  | .op => true
  | .hw => true
  | .irq => true
  | .pseudo => true
  | .uop => false
  | .fn => false
  | .word => false

/-- Which loop's position decides whether a row can be its agent's next step. -/
inductive Place where
  /-- AUD.SERVICE, of CTX_A: the next of its two steps (R133). -/
  | service
  /-- A phase of XC.SUBMIT, of CTX_A (R224). -/
  | submit
  /-- Any other operation of CTX_A (R7, R117). -/
  | compute
  /-- DSP.POLL, of CTX_B (R187, R231). -/
  | poll
  /-- A row that no such position keeps waiting. -/
  | anywhere
  deriving DecidableEq, Repr

/-- The place of each row (R7, R117). -/
def Instr.place : Instr → Place
  | .audStart _ _ _ => .compute
  | .audStop => .compute
  | .audService => .service
  | .audSetvol _ => .compute
  | .dspFramereq => .compute
  | .xcPushnop => .compute
  | .audSvc _ => .compute
  | .xcSubmitCall _ _ _ => .submit
  | .xcSubmitAcq => .submit
  | .xcSubmitPush => .submit
  | .xcPop => .anywhere
  | .xcDrive => .anywhere
  | .dspPollWf => .poll
  | .dspPollSf => .poll
  | .dspPollRr => .poll
  | .dspPollWd => .poll
  | .audFill _ => .anywhere
  | .audMix _ _ _ => .anywhere
  | .audBeat _ => .anywhere
  | .audDone _ => .anywhere
  | .audIrq _ => .anywhere
  | .audAbort _ => .anywhere
  | .audTrigger _ => .anywhere
  | .dspBeat _ => .anywhere
  | .dspDone _ => .anywhere
  | .dspMap _ => .anywhere
  | .dspHmap _ => .anywhere
  | .dspIssue => .anywhere
  | .fifoPush _ => .anywhere
  | .fifoPop => .anywhere
  | .nop => .anywhere
  | .drawline _ => .anywhere

/-- The operations of CTX_A that are no phase of XC.SUBMIT (R7, R117): the ones R224 keeps waiting while a
`submitLine` is in progress. -/
def Instr.isComputeOp (i : Instr) : Bool := i.place == .service || i.place == .compute

end Sys2Proof
end

