-- ==== Sys2Proof/WellFormed.lean ====
section
/-! DEFINITION. The checks on an instruction's operands that its types do not make (42_dispatch R225, 20_memory R75). -/

namespace Sys2Proof

/-- A palette operand holds 12 entries (3 groups of 4) or 16 (4 groups of 4) (R225). -/
def wfPalette (palette : List Half) : Bool :=
  palette.length == 12 || palette.length == 16

/-- A pixel operand holds `SRC_W` bytes (R225). -/
def wfPixels (srcW : Nat) (pixels : List Byte) : Bool :=
  pixels.length == srcW

/-- An instruction is well formed for a producer row of `srcW` pixels. Every other operand is a bit vector of its
own width (R103), so only XC.SUBMIT.CALL has anything to check. -/
def Instr.wf (srcW : Nat) : Instr → Bool
  | .xcSubmitCall _ pixels palette => wfPixels srcW pixels && wfPalette palette
  | .audStart _ _ _ => true
  | .audStop => true
  | .audService => true
  | .audSetvol _ => true
  | .dspFramereq => true
  | .xcSubmitAcq => true
  | .xcSubmitPush => true
  | .xcPushnop => true
  | .xcPop => true
  | .xcDrive => true
  | .dspPollWf => true
  | .dspPollSf => true
  | .dspPollRr => true
  | .dspPollWd => true
  | .audFill _ => true
  | .audMix _ _ _ => true
  | .audBeat _ => true
  | .audDone _ => true
  | .audIrq _ => true
  | .audAbort _ => true
  | .audTrigger _ => true
  | .audSvc _ => true
  | .dspBeat _ => true
  | .dspDone _ => true
  | .dspMap _ => true
  | .dspHmap _ => true
  | .dspIssue => true
  | .fifoPush _ => true
  | .fifoPop => true
  | .nop => true
  | .drawline _ => true

end Sys2Proof
end

