-- ==== Sys2Proof/Decode.lean ====
section
/-! DEFINITION. The decoder and the encoder of the three bit formats: STEP labels (30_encoding R102, R117), command
words XCW (R104, R105) and pixel bytes PIXB (R106, R107). Operands that no label holds (R103) follow the label in
little-endian bytes, in the order of R117's operand column (DESIGN CHOICE, log entry 4, safe). -/

namespace Sys2Proof

/-! ## Bytes and values (little-endian, R77) -/

/-- Two bytes as a halfword, the least significant first. -/
def halfOf (b0 b1 : Byte) : Half := b1 ++ b0

/-- Four bytes as a word, the least significant first. -/
def wordOf (b0 b1 b2 b3 : Byte) : Word := b3 ++ (b2 ++ (b1 ++ b0))

/-- Byte `i` of a value, byte 0 being the least significant. -/
def byteAt {w : Nat} (v : BitVec w) (i : Nat) : Byte := v.extractLsb' (8 * i) 8

/-- The two bytes of a halfword. -/
def halfBytes (v : Half) : List Byte := [byteAt v 0, byteAt v 1]

/-- The four bytes of a word. -/
def wordBytes (v : Word) : List Byte := [byteAt v 0, byteAt v 1, byteAt v 2, byteAt v 3]

/-- The low `n` bytes of a number, the least significant first. -/
def natBytes : Nat → Nat → List Byte
  | 0, _ => []
  | n + 1, v => BitVec.ofNat 8 v :: natBytes n (v / 256)

/-! ## Reading operands -/

/-- Why bytes hold no step. -/
inductive DecodeError where
  /-- The bytes end before the label or its operands do. -/
  | truncated
  /-- The label names no step: an `opsel` not in R117, or `q` bits its row does not define (R102). -/
  | noSuchStep (label : Half)
  /-- The palette selector of XC.SUBMIT.CALL is neither 0 (12 entries) nor 1 (16 entries). -/
  | paletteSelector (v : Byte)
  deriving DecidableEq, Repr

/-- What a reader answers: the value and the bytes after it, or why there is none. -/
abbrev Read (α : Type) := Except DecodeError (α × List Byte)

def readByte : List Byte → Read Byte
  | b :: r => .ok (b, r)
  | [] => .error .truncated

def readHalf : List Byte → Read Half
  | b0 :: b1 :: r => .ok (halfOf b0 b1, r)
  | _ => .error .truncated

def readWord : List Byte → Read Word
  | b0 :: b1 :: b2 :: b3 :: r => .ok (wordOf b0 b1 b2 b3, r)
  | _ => .error .truncated

def readBytes : Nat → List Byte → Read (List Byte)
  | 0, r => .ok ([], r)
  | _ + 1, [] => .error .truncated
  | n + 1, b :: r =>
    match readBytes n r with
    | .ok (bs, r') => .ok (b :: bs, r')
    | .error e => .error e

def readHalves : Nat → List Byte → Read (List Half)
  | 0, r => .ok ([], r)
  | n + 1, b0 :: b1 :: r =>
    match readHalves n r with
    | .ok (hs, r') => .ok (halfOf b0 b1 :: hs, r')
    | .error e => .error e
  | _ + 1, _ => .error .truncated

/-- AUD.START's operands: `src`, `len`, `prio` (R131). -/
def readStart (ops : List Byte) : Read Instr :=
  match readWord ops with
  | .error e => .error e
  | .ok (src, ops1) =>
    match readWord ops1 with
    | .error e => .error e
    | .ok (len, ops2) =>
      match readWord ops2 with
      | .error e => .error e
      | .ok (prio, ops3) => .ok (.audStart src len prio, ops3)

/-- AUD.MIX's operands: `a`, `b`, `vol` (R136). -/
def readMix (ops : List Byte) : Read Instr :=
  match readHalf ops with
  | .error e => .error e
  | .ok (x, ops1) =>
    match readHalf ops1 with
    | .error e => .error e
    | .ok (y, ops2) =>
      match readHalf ops2 with
      | .error e => .error e
      | .ok (vol, ops3) => .ok (.audMix x y vol, ops3)

/-- How many palette entries a selector byte announces: 12 (3 groups of 4) or 16 (4 groups of 4) (R225). -/
def paletteEntries (sel : Byte) : Option Nat :=
  if sel = 0#8 then some 12 else if sel = 1#8 then some 16 else none

/-- XC.SUBMIT.CALL's operands: `row`, the palette selector, `SRC_W` pixel bytes, the palette entries (R225). -/
def readCall (srcW : Nat) (ops : List Byte) : Read Instr :=
  match readByte ops with
  | .error e => .error e
  | .ok (row, ops1) =>
    match readByte ops1 with
    | .error e => .error e
    | .ok (sel, ops2) =>
      match paletteEntries sel with
      | none => .error (.paletteSelector sel)
      | some n =>
        match readBytes srcW ops2 with
        | .error e => .error e
        | .ok (pixels, ops3) =>
          match readHalves n ops3 with
          | .error e => .error e
          | .ok (palette, ops4) => .ok (.xcSubmitCall row pixels palette, ops4)

/-- One halfword operand. -/
def readOneHalf (mk : Half → Instr) (ops : List Byte) : Read Instr :=
  match readHalf ops with
  | .error e => .error e
  | .ok (v, r) => .ok (mk v, r)

/-- One byte operand. -/
def readOneByte (mk : Byte → Instr) (ops : List Byte) : Read Instr :=
  match readByte ops with
  | .error e => .error e
  | .ok (v, r) => .ok (mk v, r)

/-- One word operand. -/
def readOneWord (mk : Word → Instr) (ops : List Byte) : Read Instr :=
  match readWord ops with
  | .error e => .error e
  | .ok (v, r) => .ok (mk v, r)

/-! ## STEP labels -/

/-- The channel bit of a label, bit 8: 0 is A or display channel 0, 1 is B or display channel 1 (R102). -/
def labelSide (label : Half) : Side := Side.ofBool (label.getLsbD 8)

/-- The rows of opcode_table.json in format STEP: (match, mask), in the table's order. -/
def stepRows : List (Half × Half) :=
  [(0x0001#16, 0xFFFF#16), (0x0002#16, 0xFFFF#16), (0x0003#16, 0xFFFF#16), (0x0004#16, 0xFFFF#16),
   (0x0005#16, 0xFFFF#16), (0x0006#16, 0xFFFF#16), (0x0106#16, 0xFFFF#16), (0x0206#16, 0xFFFF#16),
   (0x0007#16, 0xFFFF#16), (0x0010#16, 0xFFFF#16), (0x0011#16, 0xFFFF#16), (0x0012#16, 0xFFFF#16),
   (0x0112#16, 0xFFFF#16), (0x0212#16, 0xFFFF#16), (0x0312#16, 0xFFFF#16)] ++
  [(0x0020#16, 0xFEFF#16), (0x0021#16, 0xFFFF#16), (0x0022#16, 0xFEFF#16), (0x0023#16, 0xFEFF#16),
   (0x0024#16, 0xFEFF#16), (0x0025#16, 0xFEFF#16), (0x0026#16, 0xFEFF#16), (0x0027#16, 0xFEFF#16),
   (0x0030#16, 0xFEFF#16), (0x0031#16, 0xFEFF#16), (0x0032#16, 0xFFFF#16), (0x0033#16, 0xFFFF#16),
   (0x0034#16, 0xFFFF#16), (0x0040#16, 0xFFFF#16), (0x0041#16, 0xFFFF#16)]

/-- The step a label names, with its operands read from the bytes that follow it (R117, opcode_table.json). The index
of DSP.HMAP is read as two bytes (DESIGN CHOICE, log entry 28). -/
def stepOfLabel (srcW : Nat) (label : Half) (ops : List Byte) : Read Instr :=
  if label = 0x0001#16 then readStart ops
  else if label = 0x0002#16 then .ok (.audStop, ops)
  else if label = 0x0003#16 then .ok (.audService, ops)
  else if label = 0x0004#16 then readOneHalf .audSetvol ops
  else if label = 0x0005#16 then .ok (.dspFramereq, ops)
  else if label = 0x0006#16 then readCall srcW ops
  else if label = 0x0106#16 then .ok (.xcSubmitAcq, ops)
  else if label = 0x0206#16 then .ok (.xcSubmitPush, ops)
  else if label = 0x0007#16 then .ok (.xcPushnop, ops)
  else if label = 0x0010#16 then .ok (.xcPop, ops)
  else if label = 0x0011#16 then .ok (.xcDrive, ops)
  else if label = 0x0012#16 then .ok (.dspPollWf, ops)
  else if label = 0x0112#16 then .ok (.dspPollSf, ops)
  else if label = 0x0212#16 then .ok (.dspPollRr, ops)
  else if label = 0x0312#16 then .ok (.dspPollWd, ops)
  else if label &&& 0xFEFF#16 = 0x0020#16 then .ok (.audFill (labelSide label), ops)
  else if label = 0x0021#16 then readMix ops
  else if label &&& 0xFEFF#16 = 0x0022#16 then .ok (.audBeat (labelSide label), ops)
  else if label &&& 0xFEFF#16 = 0x0023#16 then .ok (.audDone (labelSide label), ops)
  else if label &&& 0xFEFF#16 = 0x0024#16 then .ok (.audIrq (labelSide label), ops)
  else if label &&& 0xFEFF#16 = 0x0025#16 then .ok (.audAbort (labelSide label), ops)
  else if label &&& 0xFEFF#16 = 0x0026#16 then .ok (.audTrigger (labelSide label), ops)
  else if label &&& 0xFEFF#16 = 0x0027#16 then .ok (.audSvc (labelSide label), ops)
  else if label &&& 0xFEFF#16 = 0x0030#16 then .ok (.dspBeat (labelSide label), ops)
  else if label &&& 0xFEFF#16 = 0x0031#16 then .ok (.dspDone (labelSide label), ops)
  else if label = 0x0032#16 then readOneByte .dspMap ops
  else if label = 0x0033#16 then readOneHalf .dspHmap ops
  else if label = 0x0034#16 then .ok (.dspIssue, ops)
  else if label = 0x0040#16 then readOneWord .fifoPush ops
  else if label = 0x0041#16 then .ok (.fifoPop, ops)
  else .error (.noSuchStep label)

/-- Decoding a step from bytes: the label in two bytes, the least significant first, then its operands. Total on
any bytes; answers the instruction and the bytes after it, or why there is none. -/
def decodeStep (srcW : Nat) (bs : List Byte) : Read Instr :=
  match readHalf bs with
  | .error e => .error e
  | .ok (label, ops) => stepOfLabel srcW label ops

/-! ## Command words -/

/-- The opcode field of a command word, bits 7:0 (R104). -/
def cmdField (w : Word) : Byte := w.extractLsb' 0 8

/-- The row field of a command word, bits 31:24 (R104). -/
def rowField (w : Word) : Byte := w.extractLsb' 24 8

/-- Decoding a FIFO word (R105): bits 23:8 are not examined, and the row is ignored for NOP. `none` for the
reserved opcodes 0x02 to 0xFF (R112 a). -/
def decodeCommand (w : Word) : Option Command :=
  if cmdField w = 0x00#8 then some .nop
  else if cmdField w = 0x01#8 then some (.drawLine (rowField w))
  else none

/-- `XCW(cmd, row)` (R105): the row in the top byte, the opcode in the bottom byte, zeros between. -/
def xcw (cmd row : Byte) : Word := (row.setWidth 32 <<< 24) ||| cmd.setWidth 32

/-- Encoding a command (R105): the row is written as 0 for NOP (R104). -/
def encodeCommand : Command → Word
  | .nop => xcw 0x00#8 0#8
  | .drawLine row => xcw 0x01#8 row

/-- The instruction a command word stands for (the two rows of format XCW, R117). -/
def Command.toInstr : Command → Instr
  | .nop => .nop
  | .drawLine row => .drawline row

/-! ## Pixel bytes -/

/-- The palette group of a pixel byte, bits 5:4 (R106). -/
def pixelGroup (p : Byte) : Nat := (p.extractLsb' 4 2).toNat

/-- The intra-group index of a pixel byte, bits 1:0 (R106). -/
def pixelEntry (p : Byte) : Nat := (p.extractLsb' 0 2).toNat

/-- The palette store index `4*g + e` of a pixel byte (R107), 0 to 15. -/
def paletteIndex (p : Byte) : Nat := 4 * pixelGroup p + pixelEntry p

/-! ## The encoder -/

/-- A label with its channel bit (R102). -/
def sideLabel (base : Half) : Side → Half
  | .a => base
  | .b => base ||| 0x0100#16

/-- The STEP label of each row (R117). The two command words have none (R117, kind `word`). -/
def Instr.label : Instr → Option Half
  | .audStart _ _ _ => some 0x0001#16
  | .audStop => some 0x0002#16
  | .audService => some 0x0003#16
  | .audSetvol _ => some 0x0004#16
  | .dspFramereq => some 0x0005#16
  | .xcSubmitCall _ _ _ => some 0x0006#16
  | .xcSubmitAcq => some 0x0106#16
  | .xcSubmitPush => some 0x0206#16
  | .xcPushnop => some 0x0007#16
  | .xcPop => some 0x0010#16
  | .xcDrive => some 0x0011#16
  | .dspPollWf => some 0x0012#16
  | .dspPollSf => some 0x0112#16
  | .dspPollRr => some 0x0212#16
  | .dspPollWd => some 0x0312#16
  | .audFill c => some (sideLabel 0x0020#16 c)
  | .audMix _ _ _ => some 0x0021#16
  | .audBeat c => some (sideLabel 0x0022#16 c)
  | .audDone c => some (sideLabel 0x0023#16 c)
  | .audIrq c => some (sideLabel 0x0024#16 c)
  | .audAbort c => some (sideLabel 0x0025#16 c)
  | .audTrigger c => some (sideLabel 0x0026#16 c)
  | .audSvc c => some (sideLabel 0x0027#16 c)
  | .dspBeat k => some (sideLabel 0x0030#16 k)
  | .dspDone k => some (sideLabel 0x0031#16 k)
  | .dspMap _ => some 0x0032#16
  | .dspHmap _ => some 0x0033#16
  | .dspIssue => some 0x0034#16
  | .fifoPush _ => some 0x0040#16
  | .fifoPop => some 0x0041#16
  | .nop => none
  | .drawline _ => none

/-- The palette selector byte: 1 announces 16 entries, 0 announces 12 (R225). -/
def paletteSelector (palette : List Half) : Byte :=
  if palette.length = 16 then 1#8 else 0#8

/-- The operand bytes that follow a label (log entry 4). -/
def Instr.operandBytes : Instr → List Byte
  | .audStart src len prio => wordBytes src ++ (wordBytes len ++ wordBytes prio)
  | .audSetvol vol => halfBytes vol
  | .xcSubmitCall row pixels palette =>
    row :: paletteSelector palette :: (pixels ++ palette.flatMap halfBytes)
  | .audMix x y vol => halfBytes x ++ (halfBytes y ++ halfBytes vol)
  | .dspMap p => [p]
  | .dspHmap d => halfBytes d
  | .fifoPush w => wordBytes w
  | .audStop => []
  | .audService => []
  | .dspFramereq => []
  | .xcSubmitAcq => []
  | .xcSubmitPush => []
  | .xcPushnop => []
  | .xcPop => []
  | .xcDrive => []
  | .dspPollWf => []
  | .dspPollSf => []
  | .dspPollRr => []
  | .dspPollWd => []
  | .audFill _ => []
  | .audBeat _ => []
  | .audDone _ => []
  | .audIrq _ => []
  | .audAbort _ => []
  | .audTrigger _ => []
  | .audSvc _ => []
  | .dspBeat _ => []
  | .dspDone _ => []
  | .dspIssue => []
  | .fifoPop => []
  | .nop => []
  | .drawline _ => []

/-- The bytes of an instruction: its label and operands, or, for the two command words, the word itself
(least significant byte first, R77). -/
def encode (i : Instr) : List Byte :=
  match i.label with
  | some l => halfBytes l ++ i.operandBytes
  | none =>
    match i with
    | .drawline row => wordBytes (encodeCommand (.drawLine row))
    | _ => wordBytes (encodeCommand .nop)

/-- The bytes of the longest step for a producer row of `srcW` pixels: XC.SUBMIT.CALL with 16 palette entries. -/
def longestStep (srcW : Nat) : Nat := 4 + srcW + 32

/-- The instruction this decoder reads from the bits `w`, numbered as opcode_table.json numbers them: a 16-bit row
is a STEP label with every operand byte zero, a 32-bit row is a command word. -/
def decodeTableWord (nbits w : Nat) : Option Instr :=
  if nbits = 16 then
    match decodeStep Params.default.srcW (natBytes (longestStep Params.default.srcW) w) with
    | .ok (i, _) => some i
    | .error _ => none
  else if nbits = 32 then (decodeCommand (BitVec.ofNat 32 w)).map Command.toInstr
  else none

end Sys2Proof
end

