-- ==== Sys2Proof/Machine/State.lean ====
section
/-! DEFINITION. The machine's state as plain data (10_state R20 to R51), its reset value (R62), and why a step can
stop. One field per state element of the spec; the model's own fields are marked MODEL. -/

namespace Sys2Proof.Machine

/-- A buffer or memory: a list of (index, value) pairs in one canonical form, the indexes strictly rising. An
index not listed holds no value. `Memory 8` is a list of `Host.Cell`. -/
abbrev Memory (w : Nat) := List (Nat × BitVec w)

/-- What an unlisted index reads as: no value (10_state R62 "unspecified"; U1; log entries 8 and 10, safe). A read
that needs a value then draws a free one. -/
def Memory.unlisted {w : Nat} : Option (BitVec w) := none

/-- The canonical form: indexes strictly rising. No entry can equal what an unlisted index reads as, since an entry
has a value. -/
abbrev Memory.wf {w : Nat} (m : Memory w) : Prop := m.Pairwise fun x y => x.1 < y.1

/-- One of a thing for each element of a two-element set (R9). -/
structure Pair (α : Type) where
  a : α
  b : α
  deriving DecidableEq, Repr

/-- `x[c]` (R10). -/
def Pair.get {α : Type} (p : Pair α) : Side → α
  | .a => p.a
  | .b => p.b

/-- `x[c] <- v` (R10). -/
def Pair.set {α : Type} (p : Pair α) (c : Side) (v : α) : Pair α :=
  match c with
  | .a => ⟨v, p.b⟩
  | .b => ⟨p.a, v⟩

/-- One audio channel: its SampleBlock (R23), its flags (R30, R31) and its DMA registers (R32). -/
structure AudioChan where
  /-- `SB[c]` (R23). -/
  block : Memory 8
  /-- `A_RD[c]` (R32). -/
  rd : Word
  /-- `A_LEN[c]` (R32). -/
  len : Word
  /-- `A_CNT[c]` (R32). -/
  cnt : Word
  /-- `A_BUSY[c]` (R32). -/
  busy : Bool
  /-- `A_IP[c]` (R32). -/
  ip : Bool
  /-- `A_IE[c]` (R32). -/
  ie : Bool
  /-- `REFILL[c]` (R30). -/
  refill : Bool
  /-- `TERM[c]` (R31). -/
  term : Bool
  /-- MODEL: the run in progress had its SampleBlock filled under it, so its levels are free values (R82, R253,
  U3; log entry 11). -/
  raced : Bool
  deriving DecidableEq, Repr

/-- The AudioStreamEngine (R23 to R33). -/
structure Audio where
  /-- `SRC`, the source handle: a byte address of space SRC (R24). -/
  src : Word
  /-- `TOTAL` (R25). -/
  total : Word
  /-- `REM` (R26). -/
  rem : Word
  /-- `PRIO`, signed (R27). -/
  prio : Word
  /-- `VOL`, 8.8 fixed point (R28). -/
  vol : Half
  /-- `VOL_V` (R28). -/
  volV : Bool
  /-- `PLAYING` (R29). -/
  playing : Bool
  /-- The two channels, A and B. -/
  chan : Pair AudioChan
  /-- `PWM_LEVEL` (R33). -/
  pwm : Byte
  /-- `AUD_TRACE`, oldest first (R33). -/
  trace : List Byte
  /-- CTX_A's "position between the two AUD.SVC steps of an AUD.SERVICE" (60_exceptions R258; R133; log entry 14). -/
  midService : Bool
  deriving DecidableEq, Repr

/-- `RS`, the RenderState (R34), in the order of its encoding (30_encoding R108). -/
inductive RState where
  | waitFrame
  | startFrame
  | renderRow
  | waitDma
  deriving DecidableEq, Repr

/-- The two bits that encode a render state (R108). -/
def RState.toBits : RState → BitVec 2
  | .waitFrame => 0#2
  | .startFrame => 1#2
  | .renderRow => 2#2
  | .waitDma => 3#2

/-- What the block has sent to the panel (R46, R183). -/
inductive PanelEvent where
  /-- The full-frame addressing command. -/
  | frameWindow
  /-- The entry into RAM-write mode. -/
  | ramWrite
  /-- One colour sent by a display channel. -/
  | pix (k : Side) (v : Half)
  deriving DecidableEq, Repr

/-- One display transfer channel (R41). -/
structure DispChan where
  /-- `D_BUSY[k]` (R41). -/
  busy : Bool
  /-- `D_SRC[k]` (R41). -/
  src : Side
  /-- `D_POS[k]` (R41). -/
  pos : Half
  /-- MODEL: the run in progress had its ScanlineBuffer written under it, so its pixels are free values (R82;
  log entry 12). -/
  raced : Bool
  deriving DecidableEq, Repr

/-- The DisplayScanlineEngine (R34 to R41, R46). -/
structure Display where
  /-- `RS` (R34). -/
  rs : RState
  /-- `ROW` (R35). -/
  row : Half
  /-- `FRAME_REQ` (R36). -/
  frameReq : Bool
  /-- `RENDERING` (R37). -/
  rendering : Bool
  /-- `LB[0]` and `LB[1]` (R38). -/
  line : Pair (Memory 16)
  /-- `FILL_SLOT` (R39). -/
  fillSlot : Side
  /-- `D_CH` (R40). -/
  dCh : Side
  /-- The two transfer channels (R41). -/
  chan : Pair DispChan
  /-- `PANEL_TRACE`, oldest first (R46). -/
  trace : List PanelEvent
  deriving DecidableEq, Repr

/-- `CST`, the consumer's phase (R49). -/
inductive CState where
  /-- `C_POP`: about to pop the next command. -/
  | pop
  /-- `C_DRAW`: driving scanlines for a DRAWLINE. -/
  | draw
  deriving DecidableEq, Repr

/-- `PST`, the producer's phase (R50). -/
inductive PState where
  /-- `P_IDLE`: no call in progress. -/
  | idle
  /-- `P_WAIT`: spinning on `LINE_BUSY`. -/
  | wait
  /-- `P_PUSH`: flag set, push outstanding. -/
  | push
  deriving DecidableEq, Repr

/-- The CoreDispatcher (R47 to R50) and the two stores that change hands under `LINE_BUSY` (R43, R44). -/
structure Dispatcher where
  /-- `LINE_BUSY` (R47). -/
  lineBusy : Bool
  /-- `FIFO`, the next word to pop first; `FIFO_LEN` is its length (R48). -/
  fifo : List Word
  /-- `ROWBUF` (R44). -/
  rowbuf : Memory 8
  /-- `PAL` (R43). -/
  pal : Memory 16
  /-- `PAL_V`, bit j for entry j (R43). -/
  palV : BitVec 16
  /-- `CST` (R49). -/
  cst : CState
  /-- `C_ROW` (R49). -/
  cRow : Byte
  /-- `C_LEFT` (R49). -/
  cLeft : BitVec 2
  /-- `PST` (R50). -/
  pst : PState
  /-- `P_ROW` (R50). -/
  pRow : Byte
  /-- MODEL: the pixel row the caller holds during `P_WAIT` (R50, R225; log entry 20). -/
  heldPixels : List Byte
  /-- MODEL: the palette the caller holds during `P_WAIT` (R50, R225; log entry 20). -/
  heldPalette : List Half
  deriving DecidableEq, Repr

/-- MODEL: what the last function or micro-operation placed as a turn of its own returned (R117, kinds `fn` and
`uop`; log entry 3). -/
inductive Returned where
  | nothing
  /-- AUD.FILL: "this is the final partial block" (R135). -/
  | final (f : Bool)
  /-- AUD.MIX (R136). -/
  | level (v : Byte)
  /-- DSP.MAP (R184). -/
  | colour (v : Half)
  /-- DSP.HMAP: a source index or `none` (R185). -/
  | source (x : Option Nat)
  /-- FIFO.POP (R223). -/
  | word (w : Word)
  deriving DecidableEq, Repr

/-- MODEL: one turn of the run (20_memory R80; log entry 1). -/
inductive Turn where
  /-- An agent takes the step these bytes encode. -/
  | act (bytes : List Byte)
  /-- The producer rewrites bytes of space SRC (R74: "The environment may change the contents of `SRC` between any
  two steps"; log entry 8). -/
  | produce (addr : Nat) (bytes : List Byte)
  deriving DecidableEq, Repr

/-- The whole state of the block (R20), with the model's own fields. -/
structure State where
  /-- MODEL: the parameters of the step relation, which no step writes (R6, R42, R55; log entry 5). -/
  params : Params
  /-- The AudioStreamEngine. -/
  audio : Audio
  /-- The DisplayScanlineEngine. -/
  disp : Display
  /-- The CoreDispatcher. -/
  xc : Dispatcher
  /-- `FAULT` (R51). -/
  fault : BitVec 8
  /-- Space SRC, the producer's sample memory by byte address (R74). -/
  srcMem : Memory 8
  /-- MODEL: how many operations that may draw free values have run (log entry 7). -/
  draws : Nat
  /-- MODEL: the value last returned to a turn (log entry 3). -/
  ret : Returned
  /-- MODEL: the turns to come, the next first (R80; log entry 1). -/
  schedule : List Turn
  deriving DecidableEq, Repr

/-- One audio channel at reset (R62). -/
def AudioChan.reset : AudioChan :=
  { block := [], rd := 0#32, len := 0#32, cnt := 0#32, busy := false, ip := false, ie := false,
    refill := false, term := false, raced := false }

/-- The audio engine at reset (R62). `SRC`, `VOL` and `PWM_LEVEL` are unspecified there: zero is this model's
(DESIGN CHOICE, log entry 9, unsafe), and so is CTX_A outside an AUD.SERVICE (log entry 14). -/
def Audio.reset : Audio :=
  { src := 0#32, total := 0#32, rem := 0#32, prio := 0#32, vol := 0#16, volV := false,
    playing := false, chan := ⟨AudioChan.reset, AudioChan.reset⟩, pwm := 0#8, trace := [],
    midService := false }

/-- One display channel at reset (R62). -/
def DispChan.reset : DispChan :=
  { busy := false, src := .a, pos := 0#16, raced := false }

/-- The display engine at reset (R62, R291). -/
def Display.reset : Display :=
  { rs := .waitFrame, row := 0#16, frameReq := false, rendering := false, line := ⟨[], []⟩,
    fillSlot := .a, dCh := .a, chan := ⟨DispChan.reset, DispChan.reset⟩, trace := [] }

/-- The dispatcher at reset (R62). -/
def Dispatcher.reset : Dispatcher :=
  { lineBusy := false, fifo := [], rowbuf := [], pal := [], palV := 0#16, cst := .pop, cRow := 0#8,
    cLeft := 0#2, pst := .idle, pRow := 0#8, heldPixels := [], heldPalette := [] }

/-- The state after reset of a block with given parameters (R62, R290): nothing supplied, nothing scheduled. -/
def State.resetWith (p : Params) : State :=
  { params := p, audio := Audio.reset, disp := Display.reset, xc := Dispatcher.reset, fault := 0#8,
    srcMem := [], draws := 0, ret := .nothing, schedule := [] }

/-- The state after reset, with the default parameters (log entry 5). -/
def State.reset : State := State.resetWith Params.default

/-- Why the machine stops with a fault. No rule of the spec stops the block (60_exceptions R250), so the one reason
belongs to the turn, not to an operation. -/
inductive Fault where
  /-- Raised by `step` when a turn's label names no step (30_encoding R102). Safe: the hardware transmits no labels,
  and nothing is claimed of a run past this point. -/
  | noSuchStep (label : Half)
  deriving DecidableEq, Repr

/-- Why the model gives a turn no meaning. -/
inductive Refusal where
  /-- An arm of `exec` whose instruction has no meaning yet. No arm is refused in this model. Safe. -/
  | notModelled (mnemonic : String)
  /-- Raised by `step` when the bytes of a turn end before the label's operands do (log entry 26). Safe. -/
  | malformedOperands
  /-- Raised by `step` when XC.SUBMIT.CALL's palette selector announces neither 12 nor 16 entries (R225; log entry
  26). Safe. -/
  | paletteSelector (v : Byte)
  deriving DecidableEq, Repr

end Sys2Proof.Machine
end

