-- ==== Sys2Proof/Machine/Ops.lean ====
section
/-! DEFINITION. The shared operations: memory, fault bits, free values, the two output ports, the hardware queue, and
the completion interrupt's request, acknowledgement and channel micro-operations. -/

namespace Sys2Proof.Machine

/-! ## Memory -/

/-- The value at an index, or no value. -/
def Memory.read? {w : Nat} : Memory w → Nat → Option (BitVec w)
  | [], _ => Memory.unlisted
  | (a, v) :: m, i => if i = a then some v else Memory.read? m i

/-- Writing the entries of `news` over `old`, both in canonical form; an entry of `news` replaces the one at its
index. Every write of the model is this one. -/
def Memory.overlay {w : Nat} : Memory w → Memory w → Memory w
  | [], old => old
  | (a, v) :: news, old =>
    old.takeWhile (fun e => Nat.blt e.1 a) ++
      (a, v) :: Memory.overlay news (old.dropWhile (fun e => Nat.ble e.1 a))

/-- The entries that put a list of values at successive indexes from `a`. -/
def Memory.listing {w : Nat} : Nat → List (BitVec w) → Memory w
  | _, [] => []
  | a, v :: vs => (a, v) :: Memory.listing (a + 1) vs

/-- The producer rewrites bytes of space SRC (R74). -/
def produceBytes (addr : Nat) (bytes : List Byte) (s : State) : State :=
  { s with srcMem := Memory.overlay (Memory.listing addr bytes) s.srcMem }

/-! ## Fault bits (60_exceptions R251) -/

/-- The invariant violations of R251. -/
inductive Violation where
  | audReconfig
  | audOwnership
  | audOverrun
  | dspParity
  | xcBadcmd
  | uninit
  | xcReentry
  deriving DecidableEq, Repr

/-- The code of a violation, its bit number in `FAULT` (R251). -/
def Violation.code : Violation → Nat
  | .audReconfig => 0
  | .audOwnership => 1
  | .audOverrun => 2
  | .dspParity => 3
  | .xcBadcmd => 4
  | .uninit => 5
  | .xcReentry => 6

/-- Whether a violation's bit of `FAULT` is set. -/
def State.faulted (s : State) (f : Violation) : Bool := s.fault.getLsbD f.code

/-- `raise F_x` (R10, R250): the block's only exception. It sets the sticky bit and the step goes on: no state is
saved, no handler runs, no control transfer happens. -/
def raise (f : Violation) (s : State) : State :=
  { s with fault := s.fault ||| (1#8 <<< f.code) }

/-- `if b then raise F_x`. -/
def raiseIf (b : Bool) (f : Violation) (s : State) : State :=
  if b then raise f s else s

/-! ## Free values (R10 `draw`) -/

/-- The next operation draws fresh values (log entry 7). -/
def State.spend (s : State) : State := { s with draws := s.draws + 1 }

/-- A free byte of the current operation. -/
def State.drawByte (s : State) (site : DrawSite) (i : Nat) : Byte := Config.draw 8 site s.draws i

/-- A free halfword of the current operation. -/
def State.drawHalf (s : State) (site : DrawSite) (i : Nat) : Half := Config.draw 16 site s.draws i

/-! ## Channels, indexed -/

/-- Audio channel `c`. -/
def State.aud (s : State) (c : Side) : AudioChan := s.audio.chan.get c

/-- Writing audio channel `c`. -/
def State.setAud (s : State) (c : Side) (x : AudioChan) : State :=
  { s with audio := { s.audio with chan := s.audio.chan.set c x } }

/-- Display channel `k`. -/
def State.dsp (s : State) (k : Side) : DispChan := s.disp.chan.get k

/-- Writing display channel `k`. -/
def State.setDsp (s : State) (k : Side) (x : DispChan) : State :=
  { s with disp := { s.disp with chan := s.disp.chan.set k x } }

/-! ## Output ports -/

/-- The level a write of `v` puts on the pin: `v`, or a free value once `F_AUD_RECONFIG` is set (U5: "everything
later in `AUD_TRACE` is `any value`"; log entry 11). -/
def pwmValue (v : Byte) (s : State) : Byte :=
  if s.faulted .audReconfig then s.drawByte .level 0 else v

/-- `PwmOut(v)` (R33): `PWM_LEVEL <- v; AUD_TRACE <- AUD_TRACE ++ [v]`. -/
def pwmOut (v : Byte) (s : State) : State :=
  State.spend
    { s with audio := { s.audio with pwm := pwmValue v s, trace := s.audio.trace ++ [pwmValue v s] } }

/-- `PanelOut(e)` (R46): `PANEL_TRACE <- PANEL_TRACE ++ [e]`. -/
def panelOut (e : PanelEvent) (s : State) : State :=
  { s with disp := { s.disp with trace := s.disp.trace ++ [e] } }

/-! ## The hardware queue -/

/-- `FifoPush(w)` (42_dispatch R222), once it is enabled. -/
def fifoEnqueue (w : Word) (s : State) : State :=
  { s with xc := { s.xc with fifo := s.xc.fifo ++ [w] } }

/-- `FifoPop()` (R223): what is left once the head has been taken. -/
def fifoDequeue (s : State) : State :=
  { s with xc := { s.xc with fifo := s.xc.fifo.tail } }

/-! ## Audio channel micro-operations and the completion interrupt -/

/-- AUD.TRIGGER c (40_audio R139): an idle channel starts a run of `A_LEN[c]` entries; a busy one ignores it. -/
def triggerChannel (c : Side) (s : State) : State :=
  if (s.aud c).busy then s
  else s.setAud c { s.aud c with busy := true, cnt := (s.aud c).len, raced := false }

/-- AUD.ABORT c (R143): the run ends at once; nothing is signalled. -/
def abortChannel (c : Side) (s : State) : State :=
  s.setAud c { s.aud c with busy := false, cnt := 0#32 }

/-- The completion request of R259: the run is over and the channel's pending bit is set. -/
def requestCompletion (c : Side) (s : State) : State :=
  s.setAud c { s.aud c with busy := false, ip := true }

/-- Stopping playback from the handler (R142): silence the level, abort the other channel, clear `PLAYING`. -/
def stopFromHandler (c : Side) (s : State) : State :=
  let s1 := abortChannel c.other (pwmOut s.params.silence s)
  { s1 with audio := { s1.audio with playing := false } }

/-- Rearming from the handler (R142): the read pointer to the start of the block, and a refill asked for. -/
def rearmFromHandler (c : Side) (s : State) : State :=
  s.setAud c { s.aud c with rd := 0#32, refill := true }

/-- Acknowledging the interrupt (R263): the handler clears its own channel's pending bit before it ends. -/
def acknowledge (c : Side) (s : State) : State :=
  s.setAud c { s.aud c with ip := false }

/-- Taking the completion interrupt of channel `c`, handler and return included (R258: "taking it is the whole of
entry, handler and return"). Nothing of CTX_A's is saved or changed; the return is the end of the step (R263). -/
def takeCompletion (c : Side) (s : State) : State :=
  acknowledge c (if (s.aud c).term then stopFromHandler c s else rearmFromHandler c s)

end Sys2Proof.Machine
end

