-- ==== Sys2Proof/Machine/Flags.lean ====
section
/-! DEFINITION. The derived flags of the block (10_state R52) and the conditions under which a step is enabled
(00_scope R10 `enabled when`). -/

namespace Sys2Proof.Machine

/-- The FIFO is full (R48). A queue longer than its depth, which no run reaches, counts as full. -/
def State.fifoFull (s : State) : Bool := decide (s.params.fifoDepth ≤ s.xc.fifo.length)

/-- The FIFO is empty (R48). -/
def State.fifoEmpty (s : State) : Bool := s.xc.fifo.isEmpty

/-- Some audio channel is mid-transfer (R131). -/
def State.audioBusy (s : State) : Bool := (s.aud .a).busy || (s.aud .b).busy

/-- AUD.BEAT c is enabled (R140). -/
def beatReady (c : Side) (s : State) : Bool := (s.aud c).busy && (s.aud c).cnt != 0#32

/-- AUD.DONE c is enabled (R141). -/
def doneReady (c : Side) (s : State) : Bool := (s.aud c).busy && (s.aud c).cnt == 0#32

/-- The completion interrupt of channel c is pending and enabled (60_exceptions R258). -/
def irqReady (c : Side) (s : State) : Bool := (s.aud c).ip && (s.aud c).ie

/-- The channel used for the previous line is idle: `D_BUSY[D_CH] = 0` (R189, R191). -/
def lineChannelIdle (s : State) : Bool := !(s.dsp s.disp.dCh).busy

/-- DSP.BEAT k is enabled (R193). -/
def pixelReady (k : Side) (s : State) : Bool :=
  (s.dsp k).busy && decide ((s.dsp k).pos.toNat < s.params.lineW)

/-- DSP.DONE k is enabled (R194). -/
def lineDoneReady (k : Side) (s : State) : Bool :=
  (s.dsp k).busy && decide ((s.dsp k).pos.toNat = s.params.lineW)

/-- Channel k is busy reading the fill target (R190, R255). -/
def readsFillTarget (k : Side) (s : State) : Bool :=
  (s.dsp k).busy && decide ((s.dsp k).src = s.disp.fillSlot)

/-- XC.SUBMIT.ACQ is enabled: the spin succeeds (R226). -/
def acquireReady (s : State) : Bool := decide (s.xc.pst = .wait) && !s.xc.lineBusy

/-- XC.SUBMIT.PUSH is enabled (R227). -/
def pushReady (s : State) : Bool := decide (s.xc.pst = .push) && !s.fifoFull

/-- XC.PUSHNOP is enabled (R230). -/
def pushNopReady (s : State) : Bool := decide (s.xc.pst = .idle) && !s.fifoFull

/-- XC.POP is enabled (R228). -/
def popReady (s : State) : Bool := decide (s.xc.cst = .pop) && !s.fifoEmpty

/-- XC.DRIVE is enabled (R229). -/
def driveReady (s : State) : Bool := decide (s.xc.cst = .draw)

/-- Whether the rule of an operation enables it in a state. A micro-operation that moves a word has the condition of
its enclosing step (R222, R223); functions, words and the other micro-operations have none. -/
def stepEnabled (i : Instr) (s : State) : Bool :=
  match i with
  | .audStart _ _ _ => true
  | .audStop => true
  | .audService => true
  | .audSetvol _ => true
  | .dspFramereq => true
  | .xcSubmitCall _ _ _ => true
  | .xcSubmitAcq => acquireReady s
  | .xcSubmitPush => pushReady s
  | .xcPushnop => pushNopReady s
  | .xcPop => popReady s
  | .xcDrive => driveReady s
  | .dspPollWf => decide (s.disp.rs = .waitFrame)
  | .dspPollSf => decide (s.disp.rs = .startFrame)
  | .dspPollRr => decide (s.disp.rs = .renderRow)
  | .dspPollWd => decide (s.disp.rs = .waitDma)
  | .audFill _ => true
  | .audMix _ _ _ => true
  | .audBeat c => beatReady c s
  | .audDone c => doneReady c s
  | .audIrq c => irqReady c s
  | .audAbort _ => true
  | .audTrigger _ => true
  | .audSvc _ => true
  | .dspBeat k => pixelReady k s
  | .dspDone k => lineDoneReady k s
  | .dspMap _ => true
  | .dspHmap _ => true
  | .dspIssue => true
  | .fifoPush _ => !s.fifoFull
  | .fifoPop => !s.fifoEmpty
  | .nop => true
  | .drawline _ => true

/-- CTX_A is inside a `submitLine` and `i` is another of its operations (R224: "while `PST != P_IDLE` CTX_A takes no
other step except being preempted by CTX_C"; R306 d). -/
def heldByCall (i : Instr) (s : State) : Bool := i.isComputeOp && !decide (s.xc.pst = .idle)

/-- CTX_A is between the two steps of an AUD.SERVICE and `i` is another of its operations (R133; 20_memory R80 a:
program order within CTX_A). -/
def heldByService (i : Instr) (s : State) : Bool :=
  s.audio.midService && (i.place == .compute || i.place == .submit)

/-- `i` is a DSP.POLL and the block is assembled, so CTX_B takes it only inside XC.DRIVE (41_display R181, 42_dispatch
R231: "CTX_B performs no other steps"; log entry 27). -/
def heldByConsumer (i : Instr) (s : State) : Bool := !s.params.engineAlone && i.place == .poll

/-- The position of its agent's loop keeps `i` waiting. -/
def held (i : Instr) (s : State) : Bool := heldByCall i s || heldByService i s || heldByConsumer i s

end Sys2Proof.Machine
end

