-- ==== Sys2Proof/Machine/Operands.lean ====
section
/-! DEFINITION. How an operation reads its operands: the producer's sample memory (20_memory R74), the volume
(40_audio R135), the dispatcher's row buffer and palette (41_display R184, R190), the column map (R185, R186). -/

namespace Sys2Proof.Machine

/-- The byte at an address of space SRC: the one supplied, or a free value (R74, U19). -/
def srcByte (s : State) (addr : Nat) : Byte :=
  (Memory.read? s.srcMem addr).getD (s.drawByte .srcByte addr)

/-- `SrcVal(m) = MemRead(SRC, SRC_base + 2*m, 2)`, little-endian, unsigned (R74, R77). -/
def srcVal (s : State) (m : Nat) : Half :=
  halfOf (srcByte s (s.audio.src.toNat + 2 * m)) (srcByte s (s.audio.src.toNat + 2 * m + 1))

/-- The volume the mix of slot `i` of SampleBlock `c` uses: `VOL`, or `draw(16)` when it was never written (R135,
U2; log entry 19). -/
def fillVolume (c : Side) (s : State) (i : Nat) : Half :=
  if s.audio.volV then s.audio.vol else s.drawHalf .volume (2 * i + c.bit)

/-- `ROWBUF[x]` as read for destination `d`: the entry, or a free value if it was never written (R190, U1). -/
def rowByte (s : State) (d x : Nat) : Byte :=
  (Memory.read? s.xc.rowbuf x).getD (s.drawByte .rowByte d)

/-- The entry a pixel byte selects has been written: `PAL_V[j] = 1` (R43, R184). -/
def paletteValid (s : State) (p : Byte) : Bool := s.xc.palV.getLsbD (paletteIndex p)

/-- DSP.MAP's value for pixel byte `p` (R184): `PAL[j]`, or `draw(16)` for an entry never written. `d` tells the
draws of one step apart. -/
def mapColour (s : State) (d : Nat) (p : Byte) : Half :=
  if paletteValid s p then
    (Memory.read? s.xc.pal (paletteIndex p)).getD (s.drawHalf .colour d)
  else s.drawHalf .colour d

/-- The scaled column map (R186). The two named maps answer nothing from `3 * SRC_W div 2` on. -/
def scaledSource (p : Params) (d : Nat) : Option Nat :=
  match p.scaledMap with
  | .oddDoubled => if d < 3 * p.srcW / 2 then some ((2 * d + 1) / 3) else none
  | .evenDoubled => if d < 3 * p.srcW / 2 then some (2 * d / 3) else none
  | .table es => (es[d]?).join

/-- DSP.HMAP: which source pixel destination pixel `d` shows (R185, R186). -/
def hmap (p : Params) (d : Nat) : Option Nat :=
  match p.scale with
  | .unscaled =>
    if p.margin ≤ d ∧ d < p.margin + p.srcW then some (d - p.margin) else none
  | .x15 => scaledSource p d
  | .x2 => scaledSource p d

end Sys2Proof.Machine
end

