-- ==== Sys2Proof/Machine/Audio.lean ====
section
/-! DEFINITION. The AudioStreamEngine's operations (40_audio R130 to R147). -/

namespace Sys2Proof.Machine

/-- What an `exec` arm answers. -/
abbrev Result := Host.Outcome State Fault Refusal

/-- A step that its rule does not enable: the agent takes no step and nothing changes (R10: "blocked (waiting), not
faulted"; log entry 2). -/
def unlessReady (ready : Bool) (effect : State → State) (s : State) : Result :=
  if ready then .next (effect s) else .next s

/-! ## The mixer -/

/-- AUD.MIX (R136): the sum of the two top bytes, times the 8.8 volume, shifted right 8, clamped to 255. The
arithmetic is exact until the clamp (R137). -/
def mixLevel (x y vol : Half) : Byte :=
  BitVec.ofNat 8 (min ((x.toNat / 256 + y.toNat / 256) * vol.toNat / 256) LEVEL_MAX)

/-! ## Filling a SampleBlock -/

/-- `k`, the slots one fill mixes (R135): `min(REM, CAP)`. -/
def fillCount (s : State) : Nat := min s.audio.rem.toNat CAP

/-- `base`, the index of the first sample a fill mixes (R135): `TOTAL - REM`. -/
def fillBase (s : State) : Nat := s.audio.total.toNat - s.audio.rem.toNat

/-- The level slot `i` of a fill of `c` takes (R135). -/
def fillLevel (c : Side) (s : State) (i : Nat) : Byte :=
  mixLevel (srcVal s (2 * (fillBase s + i))) (srcVal s (2 * (fillBase s + i) + 1)) (fillVolume c s i)

/-- The slots a fill of `c` writes. -/
def fillSlots (c : Side) (s : State) : Memory 8 :=
  (List.range (fillCount s)).map fun i => (i, fillLevel c s i)

/-- "This is the final partial block": fewer than `CAP` samples remain (R135). -/
def fillFinal (s : State) : Bool := decide (s.audio.rem.toNat < CAP)

/-- AUD.FILL c (R135): mix the next block into SampleBlock `c`; on the final partial block shorten the transfer count
and reload `REM` with `TOTAL`. A fill of a busy channel makes the data of its run free values (R82, U3). -/
def fillChannel (c : Side) (s : State) : State :=
  let s1 := raiseIf (!s.audio.volV) .uninit (raiseIf (s.aud c).busy .audOwnership s)
  let s2 := s1.setAud c
    { s.aud c with
      block := Memory.overlay (fillSlots c s) (s.aud c).block
      len := if fillFinal s then BitVec.ofNat 32 (fillCount s) else (s.aud c).len
      raced := (s.aud c).raced || (s.aud c).busy }
  { s2 with audio := { s2.audio with
      rem := if fillFinal s then s.audio.total else s.audio.rem - BitVec.ofNat 32 CAP } }

/-- A fill whose result is stored in the channel's termination request (R131, R134): `TERM[c] <- AUD.FILL(c)`. -/
def fillAndPropagate (c : Side) (s : State) : State :=
  let s1 := fillChannel c s
  s1.setAud c { s1.aud c with term := fillFinal s }

/-! ## Operations of CTX_A -/

/-- AUD.START's session registers (R131: "records the sample source and total length", "resets session counters"). -/
def recordSession (src len prio : Word) (s : State) : State :=
  { s with audio := { s.audio with src := src, total := len, prio := prio, rem := len } }

/-- AUD.START's clearing of one channel before the priming fills (R131). -/
def clearChannel (c : Side) (s : State) : State :=
  s.setAud c { s.aud c with refill := false, term := false, len := BitVec.ofNat 32 CAP }

/-- AUD.START's arming of one channel (R131: "arms both DMA channels"). -/
def armChannel (c : Side) (s : State) : State :=
  s.setAud c { s.aud c with rd := 0#32, ip := false, ie := true }

/-- Marking the session playing, or not (R29). -/
def setPlaying (b : Bool) (s : State) : State :=
  { s with audio := { s.audio with playing := b } }

/-- AUD.START up to the priming fills (R131): the violation test, the session registers, both channels cleared. -/
def prepareSession (src len prio : Word) (s : State) : State :=
  clearChannel .b (clearChannel .a (recordSession src len prio (raiseIf s.audioBusy .audReconfig s)))

/-- AUD.START's priming fills (R131: "one synchronous fill of buffer A and buffer B"). -/
def primeBuffers (s : State) : State := fillAndPropagate .b (fillAndPropagate .a s)

/-- AUD.START (R131), in the order of its pseudocode. -/
def startSession (src len prio : Word) (s : State) : State :=
  let s1 := primeBuffers (prepareSession src len prio s)
  let s2 := armChannel .b (armChannel .a s1)
  (setPlaying true (triggerChannel .a s2)).spend

/-- AUD.START. A session of length 0 runs as R131 (c) describes it (log entry 13). -/
def execAudStart (src len prio : Word) (s : State) : Result :=
  .next (startSession src len prio s)

/-- The hard stop of AUD.STOP (R132). -/
def hardStop (s : State) : State :=
  setPlaying false (pwmOut s.params.silence (abortChannel .b (abortChannel .a s)))

/-- AUD.STOP. -/
def execAudStop (s : State) : Result := .next (hardStop s)

/-- AUD.SVC c (R134): if a refill is asked for, clear the flag, refill, and propagate the result. -/
def serviceChannel (c : Side) (s : State) : State :=
  if (s.aud c).refill then
    (fillAndPropagate c (s.setAud c { s.aud c with refill := false })).spend
  else s

/-- AUD.SVC. -/
def execAudSvc (c : Side) (s : State) : Result := .next (serviceChannel c s)

/-- CTX_A's position between the two steps of an AUD.SERVICE (60_exceptions R258). -/
def setMidService (b : Bool) (s : State) : State :=
  { s with audio := { s.audio with midService := b } }

/-- The next of AUD.SERVICE's two steps (R133): AUD.SVC A, after which steps of other agents may come, then
AUD.SVC B. -/
def serviceStep (s : State) : State :=
  if s.audio.midService then setMidService false (serviceChannel .b s)
  else setMidService true (serviceChannel .a s)

/-- AUD.SERVICE: a turn that names it takes the next of its two steps (log entry 14). -/
def execAudService (s : State) : Result := .next (serviceStep s)

/-- AUD.SETVOL (R144). -/
def execAudSetvol (vol : Half) (s : State) : Result :=
  .next { s with audio := { s.audio with vol := vol, volV := true } }

/-! ## Steps of the DMA channels -/

/-- The level AUD.BEAT c reads (R140): the entry at the read pointer, or `draw(8)` where the entry was never written
(U1), where the pointer is past the block (U4), or where the run's block was filled under it (U3). -/
def beatLevel (c : Side) (s : State) : Byte :=
  if !(s.aud c).raced && decide ((s.aud c).rd.toNat < CAP) then
    (Memory.read? (s.aud c).block (s.aud c).rd.toNat).getD (s.drawByte .sample 0)
  else s.drawByte .sample 0

/-- AUD.BEAT c (R140), once enabled. -/
def beatChannel (c : Side) (s : State) : State :=
  let s1 := pwmOut (beatLevel c s)
    (raiseIf (!decide ((s.aud c).rd.toNat < CAP)) .audOverrun s)
  s1.setAud c { s1.aud c with rd := (s.aud c).rd + 1#32, cnt := (s.aud c).cnt - 1#32 }

/-- AUD.BEAT. -/
def execAudBeat (c : Side) (s : State) : Result := unlessReady (beatReady c s) (beatChannel c) s

/-- AUD.DONE c (R141), once enabled: the run ends, the interrupt is requested, the other channel is triggered. -/
def completeChannel (c : Side) (s : State) : State :=
  triggerChannel c.other (requestCompletion c s)

/-- AUD.DONE. -/
def execAudDone (c : Side) (s : State) : Result := unlessReady (doneReady c s) (completeChannel c) s

/-- AUD.IRQ (R142): the completion interrupt is taken when it is pending and enabled (R258). -/
def execAudIrq (c : Side) (s : State) : Result := unlessReady (irqReady c s) (takeCompletion c) s

/-! ## Micro-operations and the function, placed as turns of their own (log entry 3) -/

/-- AUD.FILL, returning whether the block is the final partial one. -/
def execAudFill (c : Side) (s : State) : Result :=
  .next ({ fillChannel c s with ret := .final (fillFinal s) }).spend

/-- AUD.MIX, returning the level. -/
def execAudMix (x y vol : Half) (s : State) : Result :=
  .next { s with ret := .level (mixLevel x y vol) }

/-- AUD.ABORT. -/
def execAudAbort (c : Side) (s : State) : Result := .next (abortChannel c s)

/-- AUD.TRIGGER. -/
def execAudTrigger (c : Side) (s : State) : Result := .next (triggerChannel c s)

end Sys2Proof.Machine
end

