-- ==== Sys2Proof/Machine/Display.lean ====
section
/-! DEFINITION. The DisplayScanlineEngine's operations (41_display R180 to R197). -/

namespace Sys2Proof.Machine

/-! ## Rendering a row -/

/-- The entries RenderRow writes (R190): every destination that shows a source pixel, mapped through the palette. -/
def renderedLine (s : State) : Memory 16 :=
  (List.range s.params.lineW).filterMap fun d =>
    (hmap s.params d).map fun x => (d, mapColour s d (rowByte s d x))

/-- Some mapped pixel selects a palette entry that was never written (R184, R190). -/
def rendersUnwritten (s : State) : Bool :=
  (List.range s.params.lineW).any fun d =>
    match hmap s.params d with
    | some x => !paletteValid s (rowByte s d x)
    | none => false

/-- A run that reads the fill target when RenderRow writes it has free values for data (R82; log entry 12). -/
def markRaced (k : Side) (s : State) : State :=
  s.setDsp k { s.dsp k with raced := (s.dsp k).raced || readsFillTarget k s }

/-- Writing the fill target. -/
def writeFillTarget (m : Memory 16) (s : State) : State :=
  { s with disp := { s.disp with
      line := s.disp.line.set s.disp.fillSlot (Memory.overlay m (s.disp.line.get s.disp.fillSlot)) } }

/-- The transition of the render state (R22: `RS <- state`). -/
def setRs (r : RState) (s : State) : State := { s with disp := { s.disp with rs := r } }

/-- DSP.POLL.RR (R190). -/
def renderRow (s : State) : State :=
  let s1 := raiseIf (rendersUnwritten s) .uninit
    (raiseIf (readsFillTarget .a s || readsFillTarget .b s) .dspParity s)
  let s2 := markRaced .b (markRaced .a s1)
  (setRs .waitDma (writeFillTarget (renderedLine s) s2)).spend

/-! ## The state machine -/

/-- DSP.POLL.WF (R188): leave WaitFrame when a frame is asked for. -/
def pollWaitFrame (s : State) : State :=
  if s.disp.frameReq then
    { s with disp := { s.disp with frameReq := false, rendering := true, rs := .startFrame } }
  else s

/-- DSP.POLL.SF (R189): address the frame once the previous channel is idle. -/
def pollStartFrame (s : State) : State :=
  if lineChannelIdle s then
    let s1 := panelOut .ramWrite (panelOut .frameWindow s)
    { s1 with disp := { s1.disp with row := 0#16, rs := .renderRow } }
  else s

/-- DSP.ISSUE (R192): hand the just-built line to the other transfer channel and flip the fill slot. -/
def issueLine (s : State) : State :=
  let k := s.disp.dCh.other
  let s1 := raiseIf (s.dsp k).busy .dspParity s
  let s2 := s1.setDsp k { busy := true, src := s.disp.fillSlot, pos := 0#16, raced := false }
  { s2 with disp := { s2.disp with dCh := k, fillSlot := s.disp.fillSlot.other } }

/-- Counting the issued line (R191): the last row ends the frame, any other goes on to the next row. -/
def countRow (s : State) : State :=
  if s.disp.row.toNat + 1 = s.params.frameH then
    { s with disp := { s.disp with rendering := false, row := 0#16, rs := .waitFrame } }
  else { s with disp := { s.disp with row := s.disp.row + 1#16, rs := .renderRow } }

/-- DSP.POLL.WD (R191): issue the line once the previous channel is idle. -/
def pollWaitDma (s : State) : State :=
  if lineChannelIdle s then countRow (issueLine s) else s

/-- DSP.POLL (R187): the rule of the render state as it is when the step begins. -/
def poll (s : State) : State :=
  match s.disp.rs with
  | .waitFrame => pollWaitFrame s
  | .startFrame => pollStartFrame s
  | .renderRow => renderRow s
  | .waitDma => pollWaitDma s

/-- DSP.POLL.WF. A label whose `q` is not the value of `RS` names a step that is not enabled (R187; log entry 21). -/
def execDspPollWf (s : State) : Result :=
  unlessReady (decide (s.disp.rs = .waitFrame)) pollWaitFrame s

/-- DSP.POLL.SF. -/
def execDspPollSf (s : State) : Result :=
  unlessReady (decide (s.disp.rs = .startFrame)) pollStartFrame s

/-- DSP.POLL.RR. -/
def execDspPollRr (s : State) : Result :=
  unlessReady (decide (s.disp.rs = .renderRow)) renderRow s

/-- DSP.POLL.WD. -/
def execDspPollWd (s : State) : Result :=
  unlessReady (decide (s.disp.rs = .waitDma)) pollWaitDma s

/-! ## Frame request, transfer channels -/

/-- DSP.FRAMEREQ (R182). -/
def execDspFramereq (s : State) : Result :=
  .next { s with disp := { s.disp with frameReq := true } }

/-- The colour DSP.BEAT k sends (R193): the entry at the transfer position, or `draw(16)` where it was never written
(U1) or where the run's slot was written under it (R82). -/
def beatPixel (k : Side) (s : State) : Half :=
  if (s.dsp k).raced then s.drawHalf .pixel 0
  else (Memory.read? (s.disp.line.get (s.dsp k).src) (s.dsp k).pos.toNat).getD (s.drawHalf .pixel 0)

/-- DSP.BEAT k (R193), once enabled. -/
def sendPixel (k : Side) (s : State) : State :=
  let s1 := panelOut (.pix k (beatPixel k s)) s
  (s1.setDsp k { s.dsp k with pos := (s.dsp k).pos + 1#16 }).spend

/-- DSP.BEAT. -/
def execDspBeat (k : Side) (s : State) : Result := unlessReady (pixelReady k s) (sendPixel k) s

/-- DSP.DONE k (R194), once enabled: the channel goes idle; no interrupt, no chain. -/
def finishLine (k : Side) (s : State) : State :=
  s.setDsp k { s.dsp k with busy := false }

/-- DSP.DONE. -/
def execDspDone (k : Side) (s : State) : Result := unlessReady (lineDoneReady k s) (finishLine k) s

/-! ## Functions and the micro-operation, placed as turns of their own (log entry 3) -/

/-- DSP.MAP (R184), returning the colour. -/
def execDspMap (p : Byte) (s : State) : Result :=
  .next (({ raiseIf (!paletteValid s p) .uninit s with ret := .colour (mapColour s 0 p) }).spend)

/-- DSP.HMAP (R185, R186), returning the source index or none, for any 16-bit index (log entry 28). -/
def execDspHmap (d : Half) (s : State) : Result :=
  .next { s with ret := .source (hmap s.params d.toNat) }

/-- DSP.ISSUE. -/
def execDspIssue (s : State) : Result := .next (issueLine s)

end Sys2Proof.Machine
end

