-- ==== Sys2Proof/Machine/Dispatcher.lean ====
section
/-! DEFINITION. The CoreDispatcher's operations and the two command words (42_dispatch R220 to R232). -/

namespace Sys2Proof.Machine

/-! ## The hardware queue -/

/-- FIFO.PUSH (R222): waits while the queue is full. -/
def execFifoPush (w : Word) (s : State) : Result := unlessReady (!s.fifoFull) (fifoEnqueue w) s

/-- FIFO.POP (R223), returning the word: waits while the queue is empty. -/
def execFifoPop (s : State) : Result :=
  match s.xc.fifo with
  | [] => .next s
  | w :: _ => .next { fifoDequeue s with ret := .word w }

/-! ## Producer side -/

/-- XC.SUBMIT.CALL (R225): the call begins, and the caller holds its operands; a call in progress makes it a
violation that changes nothing else. -/
def beginCall (row : Byte) (pixels : List Byte) (palette : List Half) (s : State) : State :=
  if s.xc.pst = .idle then
    { s with xc := { s.xc with pRow := row, pst := .wait, heldPixels := pixels, heldPalette := palette } }
  else raise .xcReentry s

/-- XC.SUBMIT.CALL. -/
def execXcSubmitCall (row : Byte) (pixels : List Byte) (palette : List Half) (s : State) : Result :=
  .next (beginCall row pixels palette s)

/-- The `PAL_V` bits of the first `n` entries (R226). -/
def firstEntries (n : Nat) : BitVec 16 := BitVec.ofNat 16 (2 ^ n - 1)

/-- XC.SUBMIT.ACQ (R226), once the spin succeeds: copy the row and the palette, then set the flag. -/
def acquireLine (s : State) : State :=
  { s with xc := { s.xc with
      rowbuf := Memory.overlay (Memory.listing 0 (s.xc.heldPixels.take s.params.srcW)) s.xc.rowbuf
      pal := Memory.overlay (Memory.listing 0 (s.xc.heldPalette.take PAL_STORE)) s.xc.pal
      palV := s.xc.palV ||| firstEntries (s.xc.heldPalette.take PAL_STORE).length
      lineBusy := true
      pst := .push
      heldPixels := []
      heldPalette := [] } }

/-- XC.SUBMIT.ACQ. -/
def execXcSubmitAcq (s : State) : Result := unlessReady (acquireReady s) acquireLine s

/-- XC.SUBMIT.PUSH (R227), once the queue has room. -/
def pushLine (s : State) : State :=
  let s1 := fifoEnqueue (encodeCommand (.drawLine s.xc.pRow)) s
  { s1 with xc := { s1.xc with pst := .idle } }

/-- XC.SUBMIT.PUSH. -/
def execXcSubmitPush (s : State) : Result := unlessReady (pushReady s) pushLine s

/-- XC.PUSHNOP (R230). -/
def execXcPushnop (s : State) : Result :=
  unlessReady (pushNopReady s) (fifoEnqueue (encodeCommand .nop)) s

/-! ## Consumer side -/

/-- How many panel lines a DRAWLINE drives (R228): two for an odd row in mode `X2`, else one. -/
def linesToDrive (scale : Scale) (row : Byte) : BitVec 2 :=
  if scale = .x2 ∧ row.getLsbD 0 = true then 2#2 else 1#2

/-- The word DRAWLINE at the consumer (R221, R228): the draw begins. -/
def beginDraw (row : Byte) (s : State) : State :=
  { s with xc := { s.xc with cRow := row, cLeft := linesToDrive s.params.scale row, cst := .draw } }

/-- What the consumer does with a popped word (R228): NOP nothing, DRAWLINE a draw, anything else a violation and
then as NOP (R112 a, R256). -/
def runCommand (w : Word) (s : State) : State :=
  match decodeCommand w with
  | some .nop => s
  | some (.drawLine row) => beginDraw row s
  | none => raise .xcBadcmd s

/-- XC.POP (R228), once there is a word. -/
def popCommand (s : State) : State :=
  match s.xc.fifo with
  | [] => s
  | w :: _ => runCommand w (fifoDequeue s)

/-- XC.POP. -/
def execXcPop (s : State) : Result := unlessReady (popReady s) popCommand s

/-- One line of the command is issued (R229): the last one clears `LINE_BUSY` and returns to the pop. -/
def countLine (s : State) : State :=
  if s.xc.cLeft - 1#2 = 0#2 then
    { s with xc := { s.xc with cLeft := 0#2, lineBusy := false, cst := .pop } }
  else { s with xc := { s.xc with cLeft := s.xc.cLeft - 1#2 } }

/-- `issued` (R229): this poll will issue a transfer. -/
def willIssue (s : State) : Bool := decide (s.disp.rs = .waitDma) && lineChannelIdle s

/-- XC.DRIVE (R229), once enabled: one poll of the engine, counted if it issued a transfer. -/
def driveEngine (s : State) : State :=
  if willIssue s then countLine (poll s) else poll s

/-- XC.DRIVE. -/
def execXcDrive (s : State) : Result := unlessReady (driveReady s) driveEngine s

/-! ## The command words -/

/-- NOP (R221): "on Nop, do nothing". -/
def execNop (s : State) : Result := .next s

/-- DRAWLINE (R221, R228). -/
def execDrawline (row : Byte) (s : State) : Result := .next (beginDraw row s)

end Sys2Proof.Machine
end

