-- ==== Sys2Proof/Machine/Dispatch.lean ====
section
/-! DEFINITION. The dispatch of every row of opcode_table.json to its meaning. -/

namespace Sys2Proof.Machine

def exec (i : Instr) (s : State) : Host.Outcome State Fault Refusal :=
  match i with
  | .audStart src len prio => Sys2Proof.Machine.execAudStart src len prio s
  | .audStop => Sys2Proof.Machine.execAudStop s
  | .audService => Sys2Proof.Machine.execAudService s
  | .audSetvol vol => Sys2Proof.Machine.execAudSetvol vol s
  | .dspFramereq => Sys2Proof.Machine.execDspFramereq s
  | .xcSubmitCall row pixels palette => Sys2Proof.Machine.execXcSubmitCall row pixels palette s
  | .xcSubmitAcq => Sys2Proof.Machine.execXcSubmitAcq s
  | .xcSubmitPush => Sys2Proof.Machine.execXcSubmitPush s
  | .xcPushnop => Sys2Proof.Machine.execXcPushnop s
  | .xcPop => Sys2Proof.Machine.execXcPop s
  | .xcDrive => Sys2Proof.Machine.execXcDrive s
  | .dspPollWf => Sys2Proof.Machine.execDspPollWf s
  | .dspPollSf => Sys2Proof.Machine.execDspPollSf s
  | .dspPollRr => Sys2Proof.Machine.execDspPollRr s
  | .dspPollWd => Sys2Proof.Machine.execDspPollWd s
  | .audFill c => Sys2Proof.Machine.execAudFill c s
  | .audMix x y vol => Sys2Proof.Machine.execAudMix x y vol s
  | .audBeat c => Sys2Proof.Machine.execAudBeat c s
  | .audDone c => Sys2Proof.Machine.execAudDone c s
  | .audIrq c => Sys2Proof.Machine.execAudIrq c s
  | .audAbort c => Sys2Proof.Machine.execAudAbort c s
  | .audTrigger c => Sys2Proof.Machine.execAudTrigger c s
  | .audSvc c => Sys2Proof.Machine.execAudSvc c s
  | .dspBeat k => Sys2Proof.Machine.execDspBeat k s
  | .dspDone k => Sys2Proof.Machine.execDspDone k s
  | .dspMap p => Sys2Proof.Machine.execDspMap p s
  | .dspHmap d => Sys2Proof.Machine.execDspHmap d s
  | .dspIssue => Sys2Proof.Machine.execDspIssue s
  | .fifoPush w => Sys2Proof.Machine.execFifoPush w s
  | .fifoPop => Sys2Proof.Machine.execFifoPop s
  | .nop => Sys2Proof.Machine.execNop s
  | .drawline row => Sys2Proof.Machine.execDrawline row s

end Sys2Proof.Machine
end

