-- ==== Sys2Proof/Machine/Turns.lean ====
section
/-! DEFINITION. How the block's next step is taken (20_memory R80): the turns of the schedule, fetched and decoded.
The spec leaves open which enabled step of which agent comes next; the schedule is that choice (log entry 1). -/

namespace Sys2Proof.Machine

/-- What a decoding error means for a turn: a label that names no step (R102), or operand bytes that are not an
operand (log entry 26). -/
def stopFor : DecodeError → Result
  | .noSuchStep label => .fault (.noSuchStep label)
  | .truncated => .refused .malformedOperands
  | .paletteSelector v => .refused (.paletteSelector v)

/-- The step an agent takes: the one decoded, unless CTX_A is kept inside a `submitLine` or an AUD.SERVICE, or CTX_B
inside its loop (R224, R133, R231; log entries 14, 15 and 27), in which case that agent takes no step. -/
def takeStep (i : Instr) (s : State) : Result :=
  if held i s then .next s else exec i s

/-- One turn: the decoded step, or the producer's write. -/
def takeTurn (t : Turn) (s : State) : Result :=
  match t with
  | .produce addr bytes => .next (produceBytes addr bytes s)
  | .act bytes =>
    match decodeStep s.params.srcW bytes with
    | .ok (i, _) => takeStep i s
    | .error e => stopFor e

/-- The machine's step: the next turn of the schedule. With no turn placed no agent moves and the state stays as it
is (log entry 1). -/
def runTurn (s : State) : Result :=
  match s.schedule with
  | [] => .next s
  | t :: ts => takeTurn t { s with schedule := ts }

/-- A label is a DSP.POLL: its `opsel`, bits 7:0, is 0x12 (R117). -/
def isPollLabel (w : Nat) : Bool := w % 256 == 0x12

/-- A 16-bit row placed as the next turn: its label and operand bytes, zeros up to the longest step. For DSP.POLL the
engine is driven alone (R181; log entry 27). -/
def placeLabel (w : Nat) (s : State) : State :=
  { s with
    params := { s.params with engineAlone := s.params.engineAlone || isPollLabel w }
    schedule := .act (natBytes (longestStep s.params.srcW) w) :: s.schedule }

/-- A command word placed where the consumer fetches it (42_dispatch R228): at the head of the FIFO, the consumer at
the pop, and the next turn XC.POP (log entry 18). -/
def placeCommand (w : Nat) (s : State) : State :=
  { s with
    xc := { s.xc with fifo := BitVec.ofNat 32 w :: s.xc.fifo, cst := .pop }
    schedule := .act (encode .xcPop) :: s.schedule }

/-- An instruction of opcode_table.json placed so that the very next step runs it. -/
def placeWord (nbits w : Nat) (s : State) : State :=
  if nbits = 32 then placeCommand w s else placeLabel w s

end Sys2Proof.Machine
end

