-- ==== Sys2Proof/Machine/Step.lean ====
section
/-! DEFINITION. The step of the machine, and where an instruction is placed for it. -/

namespace Sys2Proof.Machine

/-- One step: the next turn of the schedule (20_memory R80). -/
def step (s : State) : Host.Outcome State Fault Refusal := runTurn s

/-- `s` with the instruction whose bits are `w` placed so that the very next step runs it (log entries 1 and 18). -/
def State.withFetchWord (s : State) (nbits w : Nat) : State := placeWord nbits w s

end Sys2Proof.Machine
end

