-- ==== Sys2Proof/Machine/Pseudo.lean ====
section
/-! DEFINITION. The pseudo-operations that have no label (30_encoding R115, R116): sequences of the rows of R117
(log entry 23), and sequences of steps. -/

namespace Sys2Proof.Machine

/-- The steps of a list, one after the other, stopping where one stops (20_memory R80: a run is a sequence of
steps). -/
def execAll : List Instr → State → Result
  | [], s => .next s
  | i :: is, s =>
    match exec i s with
    | .next t => execAll is t
    | .fault r => .fault r
    | .refused r => .refused r

/-- AUD.PLAY, the caller's pre-emption policy (R115): a session of lower or equal priority is a no-op while one
plays, a higher one stops the session first. `prio` and `PRIO` are compared as signed values. -/
def execAudPlay (src len prio : Word) (s : State) : Result :=
  if s.audio.playing then
    if prio.sle s.audio.prio then .next s
    else execAll [.audStop, .audStart src len prio] s
  else exec (.audStart src len prio) s

/-- The step CTX_B takes next in XC.RUNCONSUMER (R116, R231): the pop, or a drive while a command is being drawn. -/
def consumerStep (s : State) : Instr :=
  match s.xc.cst with
  | .pop => .xcPop
  | .draw => .xcDrive

/-- `n` turns of CTX_B in the loop of XC.RUNCONSUMER (R231). -/
def runConsumer : Nat → State → Result
  | 0, s => .next s
  | n + 1, s =>
    match exec (consumerStep s) s with
    | .next t => runConsumer n t
    | .fault r => .fault r
    | .refused r => .refused r

/-- DSP.DRIVELINE (R116): at most `n` polls, up to and including the one in WaitDma that issues a transfer. -/
def driveLine : Nat → State → State
  | 0, s => s
  | n + 1, s => if willIssue s then poll s else driveLine n (poll s)

end Sys2Proof.Machine
end

