-- ==== Sys2Proof/Safety.lean ====
section
/-! DEFINITION. What claims are stated in: fault-free runs (60_exceptions R250), the invariants of the spec
(10_state R60, R61; 41_display R196), and which turns the spec schedules. -/

namespace Sys2Proof.Machine

/-- A fault-free state (R250: "claims about output are made for fault-free runs"). -/
def State.faultFree (s : State) : Prop := s.fault = 0#8

/-- Every index of a buffer is below its element count (20_memory R70). -/
abbrev Memory.below {w : Nat} (n : Nat) (m : Memory w) : Prop := ∀ e ∈ m, e.1 < n

/-- One audio channel: its block in canonical form inside `CAP` entries, its counts within a block, and no count
left over on an idle channel (R23, R32). -/
def AudioChan.ok (x : AudioChan) : Prop :=
  Memory.wf x.block ∧ Memory.below CAP x.block ∧ x.len.toNat ≤ CAP ∧ x.cnt.toNat ≤ CAP ∧
    (x.busy = false → x.cnt = 0#32)

/-- The audio registers: `REM <= TOTAL` (R60 e) and both channels. -/
def Audio.ok (x : Audio) : Prop :=
  x.rem.toNat ≤ x.total.toNat ∧ AudioChan.ok x.chan.a ∧ AudioChan.ok x.chan.b

/-- The display registers: `0 <= ROW <= FRAME_H - 1` (R35), transfer positions within a line (R41), line buffers in
canonical form inside `LINE_W` entries (R38). -/
def Display.ok (p : Params) (x : Display) : Prop :=
  x.row.toNat < p.frameH ∧
    x.chan.a.pos.toNat ≤ p.lineW ∧ x.chan.b.pos.toNat ≤ p.lineW ∧
    Memory.wf x.line.a ∧ Memory.below p.lineW x.line.a ∧
    Memory.wf x.line.b ∧ Memory.below p.lineW x.line.b

/-- The dispatcher: the FIFO within its depth (R48), the row buffer and palette in canonical form inside their
stores (R43, R44), `PAL_V` set just where an entry is written (R43), the lines left while drawing (R49), the operands
held during `P_WAIT` (R50, R225). -/
def Dispatcher.ok (p : Params) (x : Dispatcher) : Prop :=
  x.fifo.length ≤ p.fifoDepth ∧
    Memory.wf x.rowbuf ∧ Memory.below p.srcW x.rowbuf ∧
    Memory.wf x.pal ∧ Memory.below PAL_STORE x.pal ∧
    (∀ j, x.palV.getLsbD j = (Memory.read? x.pal j).isSome) ∧
    (x.cst = .draw → x.cLeft = 1#2 ∨ x.cLeft = 2#2) ∧
    (x.cst = .pop → x.cLeft = 0#2) ∧
    (x.pst = .wait → x.heldPixels.length = p.srcW ∧ wfPalette x.heldPalette = true)

/-- The invariant of the whole state: what every register and store is, whatever turn is taken. `FAULT` bit 7 is 0
(R251); CTX_A is not inside an AUD.SERVICE and a `submitLine` at once (20_memory R80 a). -/
def State.ok (s : State) : Prop :=
  s.params.wf = true ∧ Audio.ok s.audio ∧ Display.ok s.params s.disp ∧
    Dispatcher.ok s.params s.xc ∧ s.fault.getLsbD 7 = false ∧ Memory.wf s.srcMem ∧
    (s.audio.midService = true → s.xc.pst = .idle)

/-- The ping-pong (R60 a): as long as no channel was reconfigured mid-transfer, at most one channel is busy, and
exactly one while a session plays. -/
def pingPong (s : State) : Prop :=
  s.faulted .audReconfig = false →
    ((s.aud .a).busy && (s.aud .b).busy) = false ∧
      (s.audio.playing = true → s.audioBusy = true)

/-- The line transfers (R60 b, R196): a busy channel is the one used for the previous line and reads the slot that
is not the fill target; `F_DSP_PARITY` is not set. -/
def linesApart (s : State) : Prop :=
  (∀ k, (s.dsp k).busy = true → k = s.disp.dCh ∧ (s.dsp k).src = s.disp.fillSlot.other) ∧
    s.faulted .dspParity = false

/-- The frame in progress (R35, R37): `RENDERING` is set outside WaitFrame and clear in it, and the row counter is 0
where a frame has not begun. -/
def frameConsistent (s : State) : Prop :=
  (s.disp.rendering = true ↔ s.disp.rs ≠ .waitFrame) ∧
    (s.disp.rs = .waitFrame ∨ s.disp.rs = .startFrame → s.disp.row = 0#16)

/-- A FIFO word is DRAWLINE (R104). -/
def isDrawWord (w : Word) : Bool :=
  match decodeCommand w with
  | some (.drawLine _) => true
  | some .nop => false
  | none => false

/-- A FIFO word is one of the two commands (R112 a). -/
def isCommandWord (w : Word) : Bool := (decodeCommand w).isSome

/-- The lines submitted and not yet drawn: in the producer's push phase, in the FIFO, at the consumer (R61). -/
def linesInFlight (s : State) : Nat :=
  (s.xc.pst == .push).toNat + s.xc.fifo.countP isDrawWord + (s.xc.cst == .draw).toNat

/-- The one-line discipline (R61, R60 d): `LINE_BUSY` is set exactly while one line is in flight, there is never a
second, the FIFO holds commands only, and `F_XC_BADCMD` is not set (R256). -/
def oneLineInFlight (s : State) : Prop :=
  linesInFlight s = s.xc.lineBusy.toNat ∧
    (∀ w ∈ s.xc.fifo, isCommandWord w = true) ∧ s.faulted .xcBadcmd = false

/-- A turn the spec schedules: a producer's write, or bytes that decode to a step some agent takes (R117; a `uop`,
`fn` or `word` row is never a step of its own). A DSP.POLL counts: driven alone the engine takes it (R181), and an
assembled block keeps it waiting (R231; log entry 27), so what holds of every scheduled turn holds of both. -/
def Turn.scheduled (srcW : Nat) : Turn → Bool
  | .produce _ _ => true
  | .act bytes =>
    match decodeStep srcW bytes with
    | .ok (i, _) => i.isStep
    | .error _ => false

/-- The next turn, if there is one, is a turn the spec schedules. -/
def State.nextScheduled (s : State) : Bool :=
  match s.schedule with
  | [] => true
  | t :: _ => t.scheduled s.params.srcW

/-- An operation of the audio pipeline (40_audio). -/
def isAudio : Instr → Bool
  | .audStart _ _ _ => true
  | .audStop => true
  | .audService => true
  | .audSetvol _ => true
  | .audFill _ => true
  | .audMix _ _ _ => true
  | .audBeat _ => true
  | .audDone _ => true
  | .audIrq _ => true
  | .audAbort _ => true
  | .audTrigger _ => true
  | .audSvc _ => true
  | .dspFramereq => false
  | .xcSubmitCall _ _ _ => false
  | .xcSubmitAcq => false
  | .xcSubmitPush => false
  | .xcPushnop => false
  | .xcPop => false
  | .xcDrive => false
  | .dspPollWf => false
  | .dspPollSf => false
  | .dspPollRr => false
  | .dspPollWd => false
  | .dspBeat _ => false
  | .dspDone _ => false
  | .dspMap _ => false
  | .dspHmap _ => false
  | .dspIssue => false
  | .fifoPush _ => false
  | .fifoPop => false
  | .nop => false
  | .drawline _ => false

end Sys2Proof.Machine
end

