-- ==== Sys2Proof/Certificates/Slice0/Obligations.lean ====
section
/-! DEFINITION. The statements about the block, each one a rule of the spec or what follows from several. -/

open Sys2Proof Sys2Proof.Machine

/-! ## Words the statements use -/

namespace Sys2Proof.Machine

/-- One line's transfer on display channel `k`, to its end (41_display R193, R194). -/
def drainLine (lineW : Nat) (k : Side) : List Instr :=
  List.replicate lineW (.dspBeat k) ++ [.dspDone k]

/-- `n` RenderRow→WaitDma cycles, each line's transfer finishing before the next cycle; `k` is the channel used
before the first (R195). -/
def frameLines (lineW : Nat) : Nat → Side → List Instr
  | 0, _ => []
  | n + 1, k => .dspPollRr :: .dspPollWd :: (drainLine lineW k.other ++ frameLines lineW n k.other)

/-- One whole frame from WaitFrame (R195). -/
def frameSteps (p : Params) (k : Side) : List Instr :=
  .dspPollWf :: .dspPollSf :: frameLines p.lineW p.frameH k

/-- `n` fills on alternating buffers, the first of buffer `c` (40_audio R145). -/
def alternateFills : Nat → Side → List Instr
  | 0, _ => []
  | n + 1, c => .audFill c :: alternateFills n c.other

/-- The steps of a session of `len` samples that fits one buffer, each handler running at once (40_audio R146). A
full buffer is followed by the final block of no slots (70_reset_and_hazards R303). -/
def shortSession (src len prio : Word) : List Instr :=
  .audStart src len prio :: (List.replicate len.toNat (.audBeat .a) ++ [.audDone .a, .audIrq .a] ++
    if len.toNat = 1024 then [.audDone .b, .audIrq .b] else [])

/-- `s` with the source handle AUD.START records. -/
def withSource (src : Word) (s : State) : State := { s with audio := { s.audio with src := src } }

/-- The level sample `n` of the source mixes to at the volume of `s` (R135, R136). -/
def sampleLevel (s : State) (n : Nat) : Byte :=
  mixLevel (srcVal s (2 * n)) (srcVal s (2 * n + 1)) s.audio.vol

/-- The bits a step adds to `FAULT`: `v` where the condition holds. -/
def faultBits (b : Bool) (v : BitVec 8) : BitVec 8 := if b then v else 0#8

end Sys2Proof.Machine

/-! ## Encoding -/

/-- Words written out from the tables of R117 and R105 decode to the rows they stand for, and the labels
95_test_vectors lists as naming no step decode to none. The layouts are the spec's own decisions D1 and D3 (log entry
25). -/
def Obligations.SpecWordsDecodeToTheirRows : Prop :=
  decodeTableWord 16 0x0001 = some (.audStart 0#32 0#32 0#32) ∧
  decodeTableWord 16 0x0206 = some .xcSubmitPush ∧
  decodeTableWord 16 0x0011 = some .xcDrive ∧
  decodeTableWord 16 0x0312 = some .dspPollWd ∧
  decodeTableWord 16 0x0124 = some (.audIrq .b) ∧
  decodeTableWord 16 0x0130 = some (.dspBeat .b) ∧
  decodeTableWord 32 0x8F000001 = some (.drawline 143#8) ∧
  decodeTableWord 32 0x00ABCD00 = some .nop ∧
  decodeTableWord 16 0x0000 = none ∧ decodeTableWord 16 0x0008 = none ∧
  decodeTableWord 16 0x0306 = none ∧ decodeTableWord 16 0x0412 = none ∧
  decodeTableWord 16 0x0222 = none ∧ decodeTableWord 16 0x0101 = none ∧ decodeTableWord 32 0x00000002 = none

/-- Decode and encode agree on every well-formed step, with every operand at every value, whatever bytes follow. The
operand bytes are the model's choice (log entry 4). -/
def Obligations.DecodeOfEncodeIsTheStep : Prop :=
  ∀ (srcW : Nat) (i : Instr) (rest : List Byte),
    i.wf srcW = true → i.label ≠ none → decodeStep srcW (encode i ++ rest) = .ok (i, rest)

/-- The other direction: bytes that decode are the encoding of what they decode to, which is well formed; no byte is
dropped and no two encodings name one step. The operand bytes are the model's choice (log entry 4). -/
def Obligations.DecodedBytesAreItsEncoding : Prop :=
  ∀ (srcW : Nat) (bs rest : List Byte) (i : Instr),
    decodeStep srcW bs = .ok (i, rest) → encode i ++ rest = bs ∧ i.wf srcW = true

/-- R102: a label names no step exactly when it matches no row of the table; a turn with such a label stops the
machine. That such a turn stops is the model's choice (log entry 26). -/
def Obligations.LabelOutsideTheTableNamesNoStep : Prop :=
  (∀ (srcW : Nat) (label : Half) (ops : List Byte),
    stepOfLabel srcW label ops = .error (.noSuchStep label) ↔
      ∀ r ∈ stepRows, label &&& r.2 ≠ r.1) ∧
  ∀ (s : State) (b0 b1 : Byte) (ops : List Byte) (ts : List Turn),
    s.schedule = .act (b0 :: b1 :: ops) :: ts →
    (∀ r ∈ stepRows, halfOf b0 b1 &&& r.2 ≠ r.1) →
    step s = .fault (.noSuchStep (halfOf b0 b1))

/-- R105: encoding a command word puts the row in bits 31:24 and the opcode in bits 7:0, with zeros between; decoding
reads the two fields back, unsigned, and does not examine bits 23:8. The bit places are the spec's own decision D3
(log entry 25). -/
def Obligations.CommandWordFields : Prop :=
  (∀ cmd row : Byte, (xcw cmd row).toNat = row.toNat * 2 ^ 24 + cmd.toNat) ∧
  (∀ w : Word, (cmdField w).toNat = w.toNat % 256 ∧ (rowField w).toNat = w.toNat / 2 ^ 24) ∧
  (∀ w : Word, w.toNat % 256 = 0 → decodeCommand w = some .nop) ∧
  (∀ w : Word, w.toNat % 256 = 1 →
    decodeCommand w = some (.drawLine (BitVec.ofNat 8 (w.toNat / 2 ^ 24)))) ∧
  ∀ c : Command, decodeCommand (encodeCommand c) = some c

/-! ## The step -/

/-- A step runs the decoded instruction: when the next turn's bytes decode to `i`, CTX_A is not inside a `submitLine`
with `i` another of its operations, nor between the two steps of an AUD.SERVICE, and a DSP.POLL is taken by an engine
driven alone, step is exec of `i` with that turn used up. The turns and the three positions are the model's choice
(log entries 1, 14, 15 and 27). -/
def Obligations.StepRunsTheDecodedInstruction : Prop :=
  ∀ (s : State) (bytes rest : List Byte) (ts : List Turn) (i : Instr),
    s.schedule = .act bytes :: ts → decodeStep s.params.srcW bytes = .ok (i, rest) →
    (i.isComputeOp = true → s.xc.pst = .idle) →
    (i.place = .compute ∨ i.place = .submit → s.audio.midService = false) →
    (i.place = .poll → s.params.engineAlone = true) →
    step s = exec i { s with schedule := ts }

/-- R224: while `PST != P_IDLE` an operation of CTX_A that is no phase of the call is not taken; the turn is used up
and nothing else changes. That the turn is used up is the model's choice (log entries 2 and 15). -/
def Obligations.SubmitInProgressHoldsTheComputeCore : Prop :=
  ∀ (s : State) (bytes rest : List Byte) (ts : List Turn) (i : Instr),
    s.schedule = .act bytes :: ts → decodeStep s.params.srcW bytes = .ok (i, rest) →
    i.isComputeOp = true → s.xc.pst ≠ .idle →
    step s = .next { s with schedule := ts }

/-- R74: the producer may rewrite the sample memory between any two steps: the bytes it supplies are read back, every
other byte of SRC and everything else is unchanged. That the rewrite is a turn is the model's choice (log entry 8). -/
def Obligations.ProducerRewritesOnlyItsBytes : Prop :=
  ∀ (s : State) (addr : Nat) (bytes : List Byte) (ts : List Turn),
    Memory.wf s.srcMem → s.schedule = .produce addr bytes :: ts →
    ∃ t, step s = .next t ∧
      (∀ j, j < bytes.length → Memory.read? t.srcMem (addr + j) = bytes[j]?) ∧
      (∀ x, x < addr ∨ addr + bytes.length ≤ x →
        Memory.read? t.srcMem x = Memory.read? s.srcMem x) ∧
      t = { s with srcMem := t.srcMem, schedule := ts }

/-- The model's choice (log entry 1): with no turn placed no agent moves. -/
def Obligations.NoTurnLeavesTheStateAsItIs : Prop :=
  ∀ s : State, s.schedule = [] → step s = .next s

/-- The model's choice (log entry 2): a step its rule does not enable changes nothing (R10: the agent "is blocked
(waiting), not faulted"). The conditions are those of R140, R141, R258, R193, R194, R226, R227, R230, R228, R229, R222
and R223; for the four labels of DSP.POLL the condition is that `q` is the value of `RS` (R187, log entry 21). -/
def Obligations.DisabledStepChangesNothing : Prop :=
  (∀ (c : Side) (s : State),
    ((s.aud c).busy = false ∨ (s.aud c).cnt = 0#32 → exec (.audBeat c) s = .next s) ∧
    ((s.aud c).busy = false ∨ (s.aud c).cnt ≠ 0#32 → exec (.audDone c) s = .next s) ∧
    ((s.aud c).ip = false ∨ (s.aud c).ie = false → exec (.audIrq c) s = .next s)) ∧
  (∀ (k : Side) (s : State),
    ((s.dsp k).busy = false ∨ s.params.lineW ≤ (s.dsp k).pos.toNat → exec (.dspBeat k) s = .next s) ∧
    ((s.dsp k).busy = false ∨ (s.dsp k).pos.toNat ≠ s.params.lineW → exec (.dspDone k) s = .next s)) ∧
  (∀ s : State,
    (s.xc.pst ≠ .wait ∨ s.xc.lineBusy = true → exec .xcSubmitAcq s = .next s) ∧
    (s.xc.pst ≠ .push ∨ s.params.fifoDepth ≤ s.xc.fifo.length → exec .xcSubmitPush s = .next s) ∧
    (s.xc.pst ≠ .idle ∨ s.params.fifoDepth ≤ s.xc.fifo.length → exec .xcPushnop s = .next s) ∧
    (s.xc.cst ≠ .pop ∨ s.xc.fifo = [] → exec .xcPop s = .next s) ∧
    (s.xc.cst ≠ .draw → exec .xcDrive s = .next s) ∧
    (s.disp.rs ≠ .waitFrame → exec .dspPollWf s = .next s) ∧
    (s.disp.rs ≠ .startFrame → exec .dspPollSf s = .next s) ∧
    (s.disp.rs ≠ .renderRow → exec .dspPollRr s = .next s) ∧
    (s.disp.rs ≠ .waitDma → exec .dspPollWd s = .next s) ∧
    (s.params.fifoDepth ≤ s.xc.fifo.length → ∀ w, exec (.fifoPush w) s = .next s) ∧
    (s.xc.fifo = [] → exec .fifoPop s = .next s)) ∧
  ∀ (i : Instr) (s : State), stepEnabled i s = false → exec i s = .next s

/-! ## Reset -/

/-- R62: what reset leaves, for every value the spec gives, whatever the parameters. All but the first row of R62 is
the spec's own decision D37 (log entry 25). -/
def Obligations.ResetLeavesTheTableOfR62 : Prop :=
  ∀ p : Params,
    let s := State.resetWith p
    (s.disp.rs = .waitFrame ∧ s.disp.row = 0#16 ∧ s.disp.frameReq = false ∧ s.disp.rendering = false ∧
      s.disp.fillSlot = .a ∧ s.disp.dCh = .a ∧ s.disp.trace = []) ∧
    (∀ k, (s.dsp k).busy = false ∧ (s.dsp k).src = .a ∧ (s.dsp k).pos = 0#16) ∧
    (s.audio.playing = false ∧ s.audio.total = 0#32 ∧ s.audio.rem = 0#32 ∧ s.audio.prio = 0#32 ∧
      s.audio.volV = false ∧ s.audio.trace = []) ∧
    (∀ c, (s.aud c).refill = false ∧ (s.aud c).term = false ∧ (s.aud c).rd = 0#32 ∧ (s.aud c).len = 0#32 ∧
      (s.aud c).cnt = 0#32 ∧ (s.aud c).busy = false ∧ (s.aud c).ip = false ∧ (s.aud c).ie = false) ∧
    (s.xc.lineBusy = false ∧ s.xc.fifo = [] ∧ s.xc.cst = .pop ∧ s.xc.cRow = 0#8 ∧ s.xc.cLeft = 0#2 ∧
      s.xc.pst = .idle ∧ s.xc.pRow = 0#8 ∧ s.xc.palV = 0#16) ∧
    s.fault = 0#8

/-- The reset state meets every invariant below, for every parameter set within the constraints of R6. The invariants
are the model's reading of R60 and R61. -/
def Obligations.ResetMeetsTheInvariants : Prop :=
  ∀ p : Params, p.wf = true →
    State.ok (State.resetWith p) ∧ pingPong (State.resetWith p) ∧ linesApart (State.resetWith p) ∧
      frameConsistent (State.resetWith p) ∧ oneLineInFlight (State.resetWith p)

/-! ## Invariants that every step keeps -/

/-- Every step, of any turn whatever, keeps what every register and store is: memories in canonical form and inside
their spaces, `REM <= TOTAL` (R60 e), `ROW` below `FRAME_H` (R35), the FIFO within its depth (R48), `PAL_V` set just
where the palette is written (R43), `FAULT` bit 7 zero (R251), CTX_A in one place at a time (R80 a). The canonical
form is the model's choice (log entries 8 and 10), and so is CTX_A's position in an AUD.SERVICE (log entry 14). -/
def Obligations.EveryStepKeepsTheStateOk : Prop :=
  ∀ s t : State, State.ok s → step s = .next t → State.ok t

/-- R60 (a): every scheduled step keeps the ping-pong: at most one audio channel busy, and exactly one while a session
plays, as long as no channel was reconfigured mid-transfer. Which turns are scheduled is the model's choice (log
entries 1, 3 and 27). -/
def Obligations.ScheduledStepKeepsThePingPong : Prop :=
  ∀ s t : State, s.nextScheduled = true → pingPong s → step s = .next t → pingPong t

/-- R60 (b), R196: every scheduled step keeps the line transfers apart: at most one in flight, on the channel last
used, never from the fill target; so `F_DSP_PARITY` is never set. Which turns are scheduled is the model's choice (log
entries 1, 3 and 27). -/
def Obligations.ScheduledStepKeepsTheLinesApart : Prop :=
  ∀ s t : State, s.nextScheduled = true → linesApart s → step s = .next t → linesApart t

/-- R35, R37: every step keeps `RENDERING` set exactly outside WaitFrame, and `ROW` 0 before a frame's first line. The
spec sets `RENDERING` by its own decision D28 (log entry 25). -/
def Obligations.EveryStepKeepsTheFrameConsistent : Prop :=
  ∀ s t : State, frameConsistent s → step s = .next t → frameConsistent t

/-- R61, R60 (d): every scheduled step keeps the one-line discipline: `LINE_BUSY` is set exactly while one DRAWLINE is
submitted and not drawn, there is never a second, and `F_XC_BADCMD` is never set (R256). R61 is the spec's own
derivation; which turns are scheduled is the model's choice (log entries 1, 3 and 27). -/
def Obligations.ScheduledStepKeepsOneLineInFlight : Prop :=
  ∀ s t : State, s.nextScheduled = true → oneLineInFlight s → step s = .next t → oneLineInFlight t

/-! ## Whole-machine rules over all instructions -/

/-- R51: no instruction clears a `FAULT` bit, and none sets bit 7; reset clears all. The register is the spec's own
decision D36 (log entry 25). -/
def Obligations.FaultBitsAreSticky : Prop :=
  (∀ (i : Instr) (s t : State), exec i s = .next t →
    (∀ j, s.fault.getLsbD j = true → t.fault.getLsbD j = true) ∧
      t.fault.getLsbD 7 = s.fault.getLsbD 7) ∧
  ∀ p : Params, (State.resetWith p).fault = 0#8

/-- R33, R46: both output histories only grow, and `PWM_LEVEL` is the last level output by an instruction that outputs
one. The histories are state in the model (log entry 22). -/
def Obligations.OutputHistoriesOnlyGrow : Prop :=
  ∀ (i : Instr) (s t : State), exec i s = .next t →
    (∃ levels, t.audio.trace = s.audio.trace ++ levels ∧
      ((levels = [] ∧ t.audio.pwm = s.audio.pwm) ∨ levels = [t.audio.pwm])) ∧
    ∃ events, t.disp.trace = s.disp.trace ++ events

/-- R42, R55, R74: no instruction writes a parameter, the producer's memory, or the order of the turns to come. That
the parameters and the schedule are state is the model's choice (log entries 1 and 5). -/
def Obligations.NoInstructionWritesParametersOrSource : Prop :=
  ∀ (i : Instr) (s t : State), exec i s = .next t →
    t.params = s.params ∧ t.srcMem = s.srcMem ∧ t.schedule = s.schedule

/-- R87: no step of one pipeline writes state of the other. -/
def Obligations.PipelinesWriteOnlyTheirOwnState : Prop :=
  ∀ (i : Instr) (s t : State), exec i s = .next t →
    (isAudio i = true → t.disp = s.disp ∧ t.xc = s.xc) ∧
    (isAudio i = false → t.audio = s.audio)

/-- R87: no step of one pipeline reads state of the other: what an instruction does to its own pipeline is the same
whatever the other one holds. The count of free values is the model's own (log entry 7). -/
def Obligations.PipelinesReadOnlyTheirOwnState : Prop :=
  ∀ (i : Instr) (s s' t t' : State), exec i s = .next t → exec i s' = .next t' →
    s.params = s'.params → s.draws = s'.draws →
    (isAudio i = true → s.audio = s'.audio → s.srcMem = s'.srcMem → s.fault = s'.fault →
      t.audio = t'.audio ∧ t.fault = t'.fault) ∧
    (isAudio i = false → s.disp = s'.disp → s.xc = s'.xc → t.disp = t'.disp ∧ t.xc = t'.xc)

/-- R196: the only transitions of `RS`, whatever instruction runs. R196 marks the list as its own derivation from R188
to R191. -/
def Obligations.RenderStateTransitions : Prop :=
  ∀ (i : Instr) (s t : State), exec i s = .next t →
    t.disp.rs = s.disp.rs ∨
    (s.disp.rs = .waitFrame ∧ t.disp.rs = .startFrame ∧ s.disp.frameReq = true) ∨
    (s.disp.rs = .startFrame ∧ t.disp.rs = .renderRow ∧ (s.dsp s.disp.dCh).busy = false) ∨
    (s.disp.rs = .renderRow ∧ t.disp.rs = .waitDma) ∨
    (s.disp.rs = .waitDma ∧ t.disp.rs = .renderRow ∧ (s.dsp s.disp.dCh).busy = false ∧
      s.disp.row.toNat + 1 ≠ s.params.frameH) ∨
    (s.disp.rs = .waitDma ∧ t.disp.rs = .waitFrame ∧ (s.dsp s.disp.dCh).busy = false ∧
      s.disp.row.toNat + 1 = s.params.frameH)

/-! ## Audio -/

/-- R136: AUD.MIX returns the sum of the two shifted samples, times the volume, shifted right 8, clamped to 255; it
changes nothing else. -/
def Obligations.MixSumsScalesAndClamps : Prop :=
  ∀ (x y vol : Half) (s : State),
    ∃ v : Byte, exec (.audMix x y vol) s = .next { s with ret := .level v } ∧
      v.toNat = min ((((x >>> 8).toNat + (y >>> 8).toNat) * vol.toNat) >>> 8) 255

/-- R144: AUD.SETVOL writes `VOL` and sets `VOL_V`, and nothing else. The operation is the spec's own decision D16
(log entry 25). -/
def Obligations.SetVolumeWritesTheVolume : Prop :=
  ∀ (vol : Half) (s : State),
    exec (.audSetvol vol) s = .next { s with audio := { s.audio with vol := vol, volV := true } }

/-- R132: AUD.STOP aborts both channels, outputs the silence level (a free value once `F_AUD_RECONFIG` is set, U5) and
clears `PLAYING`; every other register keeps its value. What is left as it is follows the spec's own decision D15 (log
entry 25); the free level is log entry 11. -/
def Obligations.StopAbortsBothChannelsAndSilences : Prop :=
  ∀ s : State, ∃ (t : State) (v : Byte), exec .audStop s = .next t ∧
    (s.faulted .audReconfig = false → v = s.params.silence) ∧
    (∀ c, t.aud c = { s.aud c with busy := false, cnt := 0#32 }) ∧
    t.audio.pwm = v ∧ t.audio.trace = s.audio.trace ++ [v] ∧ t.audio.playing = false ∧
    t = { s with
      audio := { s.audio with chan := t.audio.chan, pwm := v, trace := t.audio.trace, playing := false }
      draws := t.draws }

/-- R143: AUD.ABORT ends the run of its channel; nothing is signalled and nothing else changes. The spec's own
decision D13 (log entry 25). -/
def Obligations.AbortEndsTheRun : Prop :=
  ∀ (c : Side) (s : State), ∃ t : State, exec (.audAbort c) s = .next t ∧
    t.aud c = { s.aud c with busy := false, cnt := 0#32 } ∧ t.aud c.other = s.aud c.other ∧
    t = { s with audio := { s.audio with chan := t.audio.chan } }

/-- R139: AUD.TRIGGER starts a run of `A_LEN[c]` entries on an idle channel and is ignored by a busy one. Ignoring a
busy channel is the spec's own decision D46 (log entry 25); `raced` is the model's (log entry 11). -/
def Obligations.TriggerStartsAnIdleChannel : Prop :=
  ∀ (c : Side) (s : State), ∃ t : State, exec (.audTrigger c) s = .next t ∧
    ((s.aud c).busy = false →
      t.aud c = { s.aud c with busy := true, cnt := (s.aud c).len, raced := false }) ∧
    ((s.aud c).busy = true → t.aud c = s.aud c) ∧
    t.aud c.other = s.aud c.other ∧
    t = { s with audio := { s.audio with chan := t.audio.chan } }

/-- R140: AUD.BEAT outputs the entry at the read pointer (a free value for an entry never written, for a pointer past
the block, which sets `F_AUD_OVERRUN`, and in a run outside the contract, U3, U5), and moves the pointer and the
count. The overrun is the spec's own decision D43 (log entry 25); the free levels are log entries 10 and 11. -/
def Obligations.BeatOutputsTheEntryAtTheReadPointer : Prop :=
  ∀ (c : Side) (s : State), (s.aud c).busy = true → (s.aud c).cnt ≠ 0#32 →
    ∃ (t : State) (v : Byte), exec (.audBeat c) s = .next t ∧
      ((s.aud c).rd.toNat < 1024 → (s.aud c).raced = false → s.faulted .audReconfig = false →
        ∀ x, Memory.read? (s.aud c).block (s.aud c).rd.toNat = some x → v = x) ∧
      t.audio.pwm = v ∧ t.audio.trace = s.audio.trace ++ [v] ∧
      t.fault = s.fault ||| faultBits (decide (1024 ≤ (s.aud c).rd.toNat)) 0x04#8 ∧
      t.aud c = { s.aud c with rd := (s.aud c).rd + 1#32, cnt := (s.aud c).cnt - 1#32 } ∧
      t.aud c.other = s.aud c.other ∧
      t = { s with
        audio := { s.audio with chan := t.audio.chan, pwm := v, trace := t.audio.trace }
        fault := t.fault, draws := t.draws }

/-- R141: AUD.DONE ends the run, sets the pending bit, and triggers the other channel if it is idle, whether or not a
session plays. A busy channel ignores the trigger by the spec's own decision D46 (log entry 25); `raced` is the
model's (log entry 11). -/
def Obligations.DoneRaisesTheInterruptAndChains : Prop :=
  ∀ (c : Side) (s : State), (s.aud c).busy = true → (s.aud c).cnt = 0#32 →
    ∃ t : State, exec (.audDone c) s = .next t ∧
      t.aud c = { s.aud c with busy := false, ip := true } ∧
      ((s.aud c.other).busy = false → t.aud c.other =
        { s.aud c.other with busy := true, cnt := (s.aud c.other).len, raced := false }) ∧
      ((s.aud c.other).busy = true → t.aud c.other = s.aud c.other) ∧
      t = { s with audio := { s.audio with chan := t.audio.chan } }

/-- R142, R258: AUD.IRQ, pending and enabled: with the termination requested it silences the output, aborts the other
channel and clears `PLAYING`; otherwise it rearms the read pointer and asks for a refill; either way it clears its own
pending bit, and nothing of CTX_A's sequencing state changes. Leaving the termination request set is the spec's own
decision D19 (log entry 25); the free level is log entry 11. -/
def Obligations.CompletionHandlerTerminatesOrRearms : Prop :=
  ∀ (c : Side) (s : State), (s.aud c).ip = true → (s.aud c).ie = true →
    ∃ t : State, exec (.audIrq c) s = .next t ∧ t.xc = s.xc ∧
      ((s.aud c).term = false →
        t.aud c = { s.aud c with rd := 0#32, refill := true, ip := false } ∧
        t.aud c.other = s.aud c.other ∧
        t = { s with audio := { s.audio with chan := t.audio.chan } }) ∧
      ((s.aud c).term = true → ∃ v : Byte,
        (s.faulted .audReconfig = false → v = s.params.silence) ∧
        t.aud c = { s.aud c with ip := false } ∧
        t.aud c.other = { s.aud c.other with busy := false, cnt := 0#32 } ∧
        t.audio.trace = s.audio.trace ++ [v] ∧
        t = { s with
          audio := { s.audio with
            chan := t.audio.chan, pwm := v, trace := t.audio.trace, playing := false }
          draws := t.draws })

/-- R135: AUD.FILL mixes `min(REM, CAP)` slots from sample `TOTAL - REM` on, leaves every other slot, and on fewer
than `CAP` remaining samples shortens the transfer count, reloads `REM` and returns 1. The source position is the
spec's own decision D7 (log entry 25). -/
def Obligations.FillMixesTheNextBlock : Prop :=
  ∀ (c : Side) (s : State), Memory.wf (s.aud c).block →
    ∃ t : State, exec (.audFill c) s = .next t ∧
      (s.audio.volV = true → ∀ i, i < min s.audio.rem.toNat 1024 →
        Memory.read? (t.aud c).block i =
          some (sampleLevel s (s.audio.total.toNat - s.audio.rem.toNat + i))) ∧
      (∀ i, min s.audio.rem.toNat 1024 ≤ i →
        Memory.read? (t.aud c).block i = Memory.read? (s.aud c).block i) ∧
      (s.audio.rem.toNat < 1024 →
        (t.aud c).len.toNat = s.audio.rem.toNat ∧ t.audio.rem = s.audio.total ∧ t.ret = .final true) ∧
      (1024 ≤ s.audio.rem.toNat →
        (t.aud c).len = (s.aud c).len ∧ t.audio.rem.toNat = s.audio.rem.toNat - 1024 ∧
        t.ret = .final false) ∧
      t.fault = s.fault ||| faultBits (s.aud c).busy 0x02#8 ||| faultBits (!s.audio.volV) 0x20#8 ∧
      t.aud c = { s.aud c with
        block := (t.aud c).block, len := (t.aud c).len, raced := (t.aud c).raced } ∧
      t.aud c.other = s.aud c.other ∧
      t = { s with
        audio := { s.audio with chan := t.audio.chan, rem := t.audio.rem }
        fault := t.fault, draws := t.draws, ret := t.ret }

/-- R74, R77: a source value is the little-endian halfword of the two bytes supplied at `SRC_base + 2*m`. The spec's
own decisions D5, D6 and D39 (log entry 25). -/
def Obligations.SourceValueIsTheSuppliedHalfword : Prop :=
  ∀ (s : State) (m : Nat) (lo hi : Byte),
    Memory.read? s.srcMem (s.audio.src.toNat + 2 * m) = some lo →
    Memory.read? s.srcMem (s.audio.src.toNat + 2 * m + 1) = some hi →
    (srcVal s m).toNat = lo.toNat + 256 * hi.toNat

/-- R145: from `REM = TOTAL = N`, fills on alternating buffers take `CAP` samples each and return 0 for `N div CAP`
calls; the next call takes `N mod CAP`, returns 1 and leaves `REM = N`. In this form it is the spec's own derivation
from R135. -/
def Obligations.FillSequenceConsumesExactlyN : Prop :=
  ∀ (s : State) (N : Nat), s.audio.total.toNat = N → s.audio.rem.toNat = N →
    (∀ j, j ≤ N / 1024 → ∃ t, execAll (alternateFills j .a) s = .next t ∧
      t.audio.rem.toNat = N - 1024 * j ∧ (0 < j → t.ret = .final false)) ∧
    ∃ t, execAll (alternateFills (N / 1024 + 1) .a) s = .next t ∧
      t.ret = .final true ∧ t.audio.rem.toNat = N ∧
      (t.aud (Side.other^[N / 1024] .a)).len.toNat = N % 1024

/-- R131: AUD.START records the session, primes both buffers from the counter reset first (90_conflicts C2), stores
each priming fill's result in its termination request, arms both channels and triggers A; a busy channel sets
`F_AUD_RECONFIG` and `F_AUD_OWNERSHIP`, and keeps its count. The order is the spec's own decisions D8, D9 and D10 (log
entry 25). -/
def Obligations.StartPrimesArmsAndPlays : Prop :=
  ∀ (src len prio : Word) (s : State),
    (∀ c, Memory.wf (s.aud c).block) →
    let first := decide (len.toNat < 1024)
    let r1 := if len.toNat < 1024 then len.toNat else len.toNat - 1024
    let second := decide (r1 < 1024)
    ∃ t : State, exec (.audStart src len prio) s = .next t ∧
      t.audio.src = src ∧ t.audio.total = len ∧ t.audio.prio = prio ∧ t.audio.playing = true ∧
      t.audio.rem.toNat = (if r1 < 1024 then len.toNat else r1 - 1024) ∧
      (t.aud .a).term = first ∧ (t.aud .b).term = second ∧
      (t.aud .a).len.toNat = min len.toNat 1024 ∧ (t.aud .b).len.toNat = min r1 1024 ∧
      (∀ c, (t.aud c).rd = 0#32 ∧ (t.aud c).ip = false ∧ (t.aud c).ie = true ∧
        (t.aud c).refill = false) ∧
      (t.aud .a).busy = true ∧ (t.aud .b).busy = (s.aud .b).busy ∧
      (t.aud .a).cnt = (if (s.aud .a).busy then (s.aud .a).cnt else (t.aud .a).len) ∧
      (t.aud .b).cnt = (s.aud .b).cnt ∧
      (s.audio.volV = true → ∀ i, i < min len.toNat 1024 →
        Memory.read? (t.aud .a).block i = some (sampleLevel (withSource src s) i)) ∧
      (s.audio.volV = true → ∀ i, i < min r1 1024 →
        Memory.read? (t.aud .b).block i = some (sampleLevel (withSource src s) (len.toNat - r1 + i))) ∧
      (∀ i, min len.toNat 1024 ≤ i →
        Memory.read? (t.aud .a).block i = Memory.read? (s.aud .a).block i) ∧
      (∀ i, min r1 1024 ≤ i →
        Memory.read? (t.aud .b).block i = Memory.read? (s.aud .b).block i) ∧
      t.fault = s.fault ||| faultBits s.audioBusy 0x03#8 ||| faultBits (!s.audio.volV) 0x20#8 ∧
      t = { s with
        audio := { s.audio with
          src := src, total := len, prio := prio, rem := t.audio.rem, playing := true,
          chan := t.audio.chan }
        fault := t.fault, draws := t.draws }

/-- R134: AUD.SVC with the refill flag clear does nothing; with it set, it clears the flag, fills, and assigns the
fill's result to the termination request. The spec's own decisions D11 and D50 (log entry 25). -/
def Obligations.ServiceRefillsAndPropagates : Prop :=
  ∀ (c : Side) (s : State),
    ((s.aud c).refill = false → exec (.audSvc c) s = .next s) ∧
    ((s.aud c).refill = true → ∃ (u t : State) (f : Bool),
      exec (.audFill c) (s.setAud c { s.aud c with refill := false }) = .next u ∧
      u.ret = .final f ∧ exec (.audSvc c) s = .next t ∧
      t.aud c = { u.aud c with term := f } ∧ t.aud c.other = s.aud c.other ∧
      t = { u with audio := { u.audio with chan := t.audio.chan }, ret := s.ret })

/-- R114, R133: AUD.SERVICE is AUD.SVC A and then AUD.SVC B: a turn that names it takes the next of the two, and two
such turns one after the other are the two AUD.SVC. Between them steps of other agents may come: no other instruction
moves CTX_A's position (R258), and CTX_A takes no other operation. That each of the two is a turn of its own is the
model's choice (log entry 14). -/
def Obligations.ServiceIsBothBuffersInOrder : Prop :=
  ∀ s : State,
    (s.audio.midService = false → ∃ u : State, exec (.audSvc .a) s = .next u ∧
      exec .audService s = .next { u with audio := { u.audio with midService := true } }) ∧
    (s.audio.midService = true → ∃ u : State, exec (.audSvc .b) s = .next u ∧
      exec .audService s = .next { u with audio := { u.audio with midService := false } }) ∧
    (s.audio.midService = false → ∃ t : State,
      execAll [.audService, .audService] s = .next t ∧ execAll [.audSvc .a, .audSvc .b] s = .next t) ∧
    (∀ (i : Instr) (t : State), i ≠ .audService → exec i s = .next t →
      t.audio.midService = s.audio.midService) ∧
    ∀ (bytes rest : List Byte) (ts : List Turn) (i : Instr),
      s.schedule = .act bytes :: ts → decodeStep s.params.srcW bytes = .ok (i, rest) →
      s.audio.midService = true → (i.place = .compute ∨ i.place = .submit) →
      step s = .next { s with schedule := ts }

/-- R115: AUD.PLAY does nothing for a priority not above the playing session's, as signed values; a higher one stops
the session first; with nothing playing it starts. The signed comparison is the spec's own decision D17 (log entry
25); the function is log entry 23. -/
def Obligations.PlayPreemptsOnlyByHigherPriority : Prop :=
  ∀ (src len prio : Word) (s : State),
    (s.audio.playing = true → prio.toInt ≤ s.audio.prio.toInt →
      execAudPlay src len prio s = .next s) ∧
    (s.audio.playing = true → s.audio.prio.toInt < prio.toInt →
      execAudPlay src len prio s = execAll [.audStop, .audStart src len prio] s) ∧
    (s.audio.playing = false → execAudPlay src len prio s = exec (.audStart src len prio) s)

/-- R146, for a session that fits one buffer and handlers that run at once: its output is exactly the mixed levels of
its samples in order and then the silence level; it ends with no session playing, both channels idle and no fault. R146
is the spec's own derivation. -/
def Obligations.ShortSessionPlaysItsSamplesThenSilence : Prop :=
  ∀ (src len prio : Word) (s : State),
    (∀ c, Memory.wf (s.aud c).block) → 1 ≤ len.toNat → len.toNat ≤ 1024 → s.audioBusy = false →
    s.audio.volV = true → s.faulted .audReconfig = false →
    ∃ t : State, execAll (shortSession src len prio) s = .next t ∧
      t.audio.trace = s.audio.trace ++
        (List.range len.toNat).map (sampleLevel (withSource src s)) ++ [s.params.silence] ∧
      t.audio.playing = false ∧ t.audioBusy = false ∧ t.fault = s.fault

/-! ## Display -/

/-- R182: DSP.FRAMEREQ sets `FRAME_REQ`, and nothing else. -/
def Obligations.FrameRequestSetsTheFlag : Prop :=
  ∀ s : State, exec .dspFramereq s = .next { s with disp := { s.disp with frameReq := true } }

/-- R188: in WaitFrame a poll that sees the request clears it, marks rendering and goes to StartFrame; one that does
not changes nothing. `RENDERING` is set by the spec's own decision D28 (log entry 25). -/
def Obligations.WaitFramePollObservesTheRequest : Prop :=
  ∀ s : State, s.disp.rs = .waitFrame →
    (s.disp.frameReq = true → exec .dspPollWf s = .next
      { s with disp := { s.disp with frameReq := false, rendering := true, rs := .startFrame } }) ∧
    (s.disp.frameReq = false → exec .dspPollWf s = .next s)

/-- R189: in StartFrame a poll with the previous channel idle sends the two commands, resets the row counter and goes to
RenderRow; with it busy nothing changes. -/
def Obligations.StartFramePollAddressesTheFrame : Prop :=
  ∀ s : State, s.disp.rs = .startFrame →
    ((s.dsp s.disp.dCh).busy = false → exec .dspPollSf s = .next
      { s with disp := { s.disp with
          trace := s.disp.trace ++ [.frameWindow, .ramWrite], row := 0#16, rs := .renderRow } }) ∧
    ((s.dsp s.disp.dCh).busy = true → exec .dspPollSf s = .next s)

/-- R190: in RenderRow a poll writes into the fill target, at every destination that shows a source pixel, that
pixel's palette colour (a free value where the row byte or the colour was never written), leaves every other entry and
the other slot, and goes to WaitDma; it sets `F_DSP_PARITY` if a busy channel reads the fill target and `F_UNINIT` if
a palette entry read was never written. The line built is `ROWBUF` by the spec's own decision D44 (log entry 25); the
free colours are log entry 10. -/
def Obligations.RenderRowPollMapsTheRow : Prop :=
  ∀ s : State, s.disp.rs = .renderRow → Memory.wf (s.disp.line.get s.disp.fillSlot) →
    ∃ t : State, exec .dspPollRr s = .next t ∧
      (∀ d x p v, d < s.params.lineW → hmap s.params d = some x →
        Memory.read? s.xc.rowbuf x = some p → s.xc.palV.getLsbD (paletteIndex p) = true →
        Memory.read? s.xc.pal (paletteIndex p) = some v →
        Memory.read? (t.disp.line.get s.disp.fillSlot) d = some v) ∧
      (∀ d, s.params.lineW ≤ d ∨ hmap s.params d = none →
        Memory.read? (t.disp.line.get s.disp.fillSlot) d =
          Memory.read? (s.disp.line.get s.disp.fillSlot) d) ∧
      t.disp.line.get s.disp.fillSlot.other = s.disp.line.get s.disp.fillSlot.other ∧
      (∃ unwritten : Bool, t.fault = s.fault |||
          faultBits (readsFillTarget .a s || readsFillTarget .b s) 0x08#8 ||| faultBits unwritten 0x20#8 ∧
        ((∃ d x p, d < s.params.lineW ∧ hmap s.params d = some x ∧
          Memory.read? s.xc.rowbuf x = some p ∧ s.xc.palV.getLsbD (paletteIndex p) = false) →
          unwritten = true) ∧
        ((∀ d x, d < s.params.lineW → hmap s.params d = some x →
          ∃ p, Memory.read? s.xc.rowbuf x = some p ∧ s.xc.palV.getLsbD (paletteIndex p) = true) →
          unwritten = false)) ∧
      (∀ k, t.dsp k = { s.dsp k with raced := (t.dsp k).raced }) ∧
      t = { s with
        disp := { s.disp with line := t.disp.line, chan := t.disp.chan, rs := .waitDma }
        fault := t.fault, draws := t.draws }

/-- R192: DSP.ISSUE toggles `D_CH`, starts that channel on the fill target at position 0, and flips the fill target; a
busy channel sets `F_DSP_PARITY`. `raced` is the model's own field (log entry 12). -/
def Obligations.IssueHandsTheLineToTheOtherChannel : Prop :=
  ∀ s : State, ∃ t : State, exec .dspIssue s = .next t ∧
    t.disp.dCh = s.disp.dCh.other ∧ t.disp.fillSlot = s.disp.fillSlot.other ∧
    t.dsp s.disp.dCh.other = { busy := true, src := s.disp.fillSlot, pos := 0#16, raced := false } ∧
    t.dsp s.disp.dCh = s.dsp s.disp.dCh ∧
    t.fault = s.fault ||| faultBits (s.dsp s.disp.dCh.other).busy 0x08#8 ∧
    t = { s with
      disp := { s.disp with chan := t.disp.chan, dCh := t.disp.dCh, fillSlot := t.disp.fillSlot }
      fault := t.fault }

/-- R191: in WaitDma a poll with the previous channel idle issues the line (R192) and counts it: the last row of the
frame clears `RENDERING`, resets `ROW` and returns to WaitFrame, any other row goes to RenderRow; with the channel busy
nothing changes. -/
def Obligations.WaitDmaPollIssuesAndCounts : Prop :=
  ∀ s : State, s.disp.rs = .waitDma →
    ((s.dsp s.disp.dCh).busy = true → exec .dspPollWd s = .next s) ∧
    ((s.dsp s.disp.dCh).busy = false → ∃ u : State, exec .dspIssue s = .next u ∧
      (s.disp.row.toNat + 1 = s.params.frameH → exec .dspPollWd s = .next
        { u with disp := { u.disp with rendering := false, row := 0#16, rs := .waitFrame } }) ∧
      (s.disp.row.toNat + 1 ≠ s.params.frameH → exec .dspPollWd s = .next
        { u with disp := { u.disp with row := s.disp.row + 1#16, rs := .renderRow } }))

/-- R193: DSP.BEAT sends the entry at the transfer position (a free value for an entry never written, or in a run
outside the contract) and moves the position. The free colours are log entries 10 and 12. -/
def Obligations.PixelBeatSendsTheNextEntry : Prop :=
  ∀ (k : Side) (s : State), (s.dsp k).busy = true → (s.dsp k).pos.toNat < s.params.lineW →
    ∃ (t : State) (v : Half), exec (.dspBeat k) s = .next t ∧
      ((s.dsp k).raced = false → ∀ x,
        Memory.read? (s.disp.line.get (s.dsp k).src) (s.dsp k).pos.toNat = some x → v = x) ∧
      t.disp.trace = s.disp.trace ++ [.pix k v] ∧
      t.dsp k = { s.dsp k with pos := (s.dsp k).pos + 1#16 } ∧ t.dsp k.other = s.dsp k.other ∧
      t = { s with disp := { s.disp with chan := t.disp.chan, trace := t.disp.trace }, draws := t.draws }

/-- R194: DSP.DONE makes the channel idle and changes nothing else. That no interrupt and no chain follows is the
spec's own decision D31 (log entry 25). -/
def Obligations.LineDoneIdlesTheChannel : Prop :=
  ∀ (k : Side) (s : State), (s.dsp k).busy = true → (s.dsp k).pos.toNat = s.params.lineW →
    ∃ t : State, exec (.dspDone k) s = .next t ∧
      t.dsp k = { s.dsp k with busy := false } ∧ t.dsp k.other = s.dsp k.other ∧
      t = { s with disp := { s.disp with chan := t.disp.chan } }

/-- R184, R107: DSP.MAP returns `PAL[4*p[5:4] + p[1:0]]`; an entry never written sets `F_UNINIT` and returns a free
value. The entries never written are the spec's own choice C1 and decision D21 (log entries 10 and 25). -/
def Obligations.MapSelectsThePaletteEntry : Prop :=
  ∀ (p : Byte) (s : State),
    let j := 4 * (p.toNat / 16 % 4) + p.toNat % 4
    ∃ (t : State) (v : Half), exec (.dspMap p) s = .next t ∧ t.ret = .colour v ∧
      (s.xc.palV.getLsbD j = true → ∀ x, Memory.read? s.xc.pal j = some x → v = x) ∧
      t.fault = s.fault ||| faultBits (!s.xc.palV.getLsbD j) 0x20#8 ∧
      t = { s with fault := t.fault, draws := t.draws, ret := t.ret }

/-- R185, R186: DSP.HMAP returns the source index a destination shows, or none: in the unscaled mode offset by the
margin; in both scaled modes `(2*d + 1) div 3` below `3 * SRC_W div 2` with the map the spec decides on, `2*d div 3`
with the alternative it names, and the entry of the table with any other map substituted. The spec's own decisions D24
and D26 (log entries 6 and 25). That the index has 16 bits is the model's choice (log entry 28). -/
def Obligations.HorizontalMapOfEachMode : Prop :=
  ∀ (d : Half) (s : State), ∃ x : Option Nat, exec (.dspHmap d) s = .next { s with ret := .source x } ∧
    (s.params.scale = .unscaled →
      x = if (s.params.lineW - s.params.srcW) / 2 ≤ d.toNat ∧
            d.toNat < (s.params.lineW - s.params.srcW) / 2 + s.params.srcW
          then some (d.toNat - (s.params.lineW - s.params.srcW) / 2) else none) ∧
    (s.params.scale ≠ .unscaled → s.params.scaledMap = .oddDoubled →
      x = if d.toNat < 3 * s.params.srcW / 2 then some ((2 * d.toNat + 1) / 3) else none) ∧
    (s.params.scale ≠ .unscaled → s.params.scaledMap = .evenDoubled →
      x = if d.toNat < 3 * s.params.srcW / 2 then some (2 * d.toNat / 3) else none) ∧
    ∀ entries, s.params.scale ≠ .unscaled → s.params.scaledMap = .table entries →
      (∀ e, entries[d.toNat]? = some e → x = e) ∧ (entries[d.toNat]? = none → x = none)

/-- R195, with each transfer finishing before the next line: a frame of `FRAME_H` RenderRow→WaitDma cycles from
WaitFrame with the request set returns to WaitFrame with `ROW` 0 and `RENDERING` clear, after `FrameWindow`,
`RamWrite` and `FRAME_H * LINE_W` pixels, line r on channel `other^(r+1)(D_CH)`. In this form it is the spec's own
derivation from R188 to R194. -/
def Obligations.FrameReturnsToWaitFrame : Prop :=
  ∀ s : State, s.params.wf = true → s.disp.rs = .waitFrame → s.disp.frameReq = true →
    (∀ k, (s.dsp k).busy = false) →
    ∃ (t : State) (pixels : List PanelEvent),
      execAll (frameSteps s.params s.disp.dCh) s = .next t ∧
      t.disp.rs = .waitFrame ∧ t.disp.row = 0#16 ∧ t.disp.rendering = false ∧ t.disp.frameReq = false ∧
      t.disp.fillSlot = Side.other^[s.params.frameH] s.disp.fillSlot ∧
      t.disp.dCh = Side.other^[s.params.frameH] s.disp.dCh ∧
      t.disp.trace = s.disp.trace ++ (.frameWindow :: .ramWrite :: pixels) ∧
      pixels.length = s.params.frameH * s.params.lineW ∧
      ∀ r j, r < s.params.frameH → j < s.params.lineW →
        ∃ v, pixels[r * s.params.lineW + j]? = some (.pix (Side.other^[r + 1] s.disp.dCh) v)

/-! ## Dispatcher -/

/-- R222, R223: a push appends its word to a queue with room, a pop takes and returns the oldest word; nothing else
changes. What a turn does while the queue is full or empty is log entry 2. -/
def Obligations.QueueIsFirstInFirstOut : Prop :=
  (∀ (w : Word) (s : State), s.xc.fifo.length < s.params.fifoDepth →
    exec (.fifoPush w) s = .next { s with xc := { s.xc with fifo := s.xc.fifo ++ [w] } }) ∧
  ∀ (w : Word) (ws : List Word) (s : State), s.xc.fifo = w :: ws →
    exec .fifoPop s = .next { s with xc := { s.xc with fifo := ws }, ret := .word w }

/-- R225: XC.SUBMIT.CALL from P_IDLE records the row, holds the operands and waits; during a call it sets
`F_XC_REENTRY` and changes nothing else. The operands held stand in State (log entry 20). The phases are the spec's
own decision D34 (log entry 25). -/
def Obligations.SubmitCallBeginsOrIsReentry : Prop :=
  ∀ (row : Byte) (pixels : List Byte) (palette : List Half) (s : State),
    (s.xc.pst = .idle → exec (.xcSubmitCall row pixels palette) s = .next
      { s with xc := { s.xc with
          pRow := row, pst := .wait, heldPixels := pixels, heldPalette := palette } }) ∧
    (s.xc.pst ≠ .idle → exec (.xcSubmitCall row pixels palette) s = .next
      { s with fault := s.fault ||| 0x40#8 })

/-- R226: XC.SUBMIT.ACQ, with `LINE_BUSY` 0, copies the held row and palette, marks the palette entries valid, sets
`LINE_BUSY` and goes to P_PUSH; every entry it does not copy is unchanged. The palette is taken by the spec's own
decision D22 (log entry 25). That the operands held are let go is the model's choice (log entry 20). -/
def Obligations.AcquireCopiesTheLineAndSetsBusy : Prop :=
  ∀ s : State, s.xc.pst = .wait → s.xc.lineBusy = false →
    s.xc.heldPixels.length = s.params.srcW → wfPalette s.xc.heldPalette = true →
    Memory.wf s.xc.rowbuf → Memory.wf s.xc.pal →
    ∃ t : State, exec .xcSubmitAcq s = .next t ∧
      (∀ i, i < s.params.srcW → Memory.read? t.xc.rowbuf i = s.xc.heldPixels[i]?) ∧
      (∀ i, s.params.srcW ≤ i → Memory.read? t.xc.rowbuf i = Memory.read? s.xc.rowbuf i) ∧
      (∀ j, j < s.xc.heldPalette.length →
        Memory.read? t.xc.pal j = s.xc.heldPalette[j]? ∧ t.xc.palV.getLsbD j = true) ∧
      (∀ j, s.xc.heldPalette.length ≤ j →
        Memory.read? t.xc.pal j = Memory.read? s.xc.pal j ∧
        t.xc.palV.getLsbD j = s.xc.palV.getLsbD j) ∧
      t = { s with xc := { s.xc with
          rowbuf := t.xc.rowbuf, pal := t.xc.pal, palV := t.xc.palV, lineBusy := true, pst := .push,
          heldPixels := [], heldPalette := [] } }

/-- R227: XC.SUBMIT.PUSH, with room in the queue, pushes one DRAWLINE word with the call's row, and the call returns.
The word's bit places and the phase are the spec's own decisions D3 and D34 (log entry 25). -/
def Obligations.SubmitPushEnqueuesOneDrawline : Prop :=
  ∀ s : State, s.xc.pst = .push → s.xc.fifo.length < s.params.fifoDepth →
    exec .xcSubmitPush s = .next
      { s with xc := { s.xc with
          fifo := s.xc.fifo ++ [BitVec.ofNat 32 (s.xc.pRow.toNat * 2 ^ 24 + 1)], pst := .idle } }

/-- R230: XC.PUSHNOP, outside a call and with room in the queue, pushes the zero word, and nothing else. The operation
is the spec's own decision D35 (log entry 25). -/
def Obligations.PushNopEnqueuesTheZeroWord : Prop :=
  ∀ s : State, s.xc.pst = .idle → s.xc.fifo.length < s.params.fifoDepth →
    exec .xcPushnop s = .next { s with xc := { s.xc with fifo := s.xc.fifo ++ [0#32] } }

/-- R228: XC.POP takes the oldest word: NOP does nothing more; DRAWLINE records its row, the lines to drive (two for
an odd row in mode X2) and begins the draw; a reserved opcode sets `F_XC_BADCMD`. The spec's own decisions D4 and D25
(log entry 25). -/
def Obligations.PopDecodesTheNextCommand : Prop :=
  ∀ (w : Word) (ws : List Word) (s : State), s.xc.cst = .pop → s.xc.fifo = w :: ws →
    (w.toNat % 256 = 0 → exec .xcPop s = .next { s with xc := { s.xc with fifo := ws } }) ∧
    (w.toNat % 256 = 1 → exec .xcPop s = .next
      { s with xc := { s.xc with
          fifo := ws, cRow := BitVec.ofNat 8 (w.toNat / 2 ^ 24), cst := .draw,
          cLeft := if s.params.scale = .x2 ∧ w.toNat / 2 ^ 24 % 2 = 1 then 2#2 else 1#2 } }) ∧
    (2 ≤ w.toNat % 256 → exec .xcPop s = .next
      { s with xc := { s.xc with fifo := ws }, fault := s.fault ||| 0x10#8 })

/-- R229: XC.DRIVE is one poll of the engine; if that poll issues a transfer it counts the line, and the last line of
the command clears `LINE_BUSY` and returns to the pop. The consumer's position as state, and when `LINE_BUSY` is
cleared, are the spec's own decision D33 (log entry 25). -/
def Obligations.DriveIsOnePollAndCountsTheLine : Prop :=
  ∀ s : State, s.xc.cst = .draw → s.xc.cLeft ≠ 0#2 →
    ∃ u : State,
      exec (match s.disp.rs with
        | .waitFrame => .dspPollWf
        | .startFrame => .dspPollSf
        | .renderRow => .dspPollRr
        | .waitDma => .dspPollWd) s = .next u ∧
      (¬ (s.disp.rs = .waitDma ∧ (s.dsp s.disp.dCh).busy = false) → exec .xcDrive s = .next u) ∧
      (s.disp.rs = .waitDma → (s.dsp s.disp.dCh).busy = false → s.xc.cLeft = 1#2 →
        exec .xcDrive s = .next
          { u with xc := { s.xc with cLeft := 0#2, lineBusy := false, cst := .pop } }) ∧
      (s.disp.rs = .waitDma → (s.dsp s.disp.dCh).busy = false → s.xc.cLeft ≠ 1#2 →
        exec .xcDrive s = .next { u with xc := { s.xc with cLeft := s.xc.cLeft - 1#2 } })

/-- R221: the command words: NOP does nothing; DRAWLINE begins a draw of its row. The lines to drive follow the spec's
own decision D25 (log entries 3 and 25). -/
def Obligations.CommandWordsAtTheConsumer : Prop :=
  (∀ s : State, exec .nop s = .next s) ∧
  ∀ (row : Byte) (s : State), exec (.drawline row) s = .next
    { s with xc := { s.xc with
        cRow := row, cst := .draw,
        cLeft := if s.params.scale = .x2 ∧ row.toNat % 2 = 1 then 2#2 else 1#2 } }

/-- R232: a call that waits on a busy line does not return and enqueues nothing until XC.DRIVE runs: over any sequence
of steps without one (micro-operation labels left out) `LINE_BUSY` stays set, the call stays in P_WAIT, no word enters
the queue, and the line being drawn is not touched. In this form it is the spec's own derivation from R226 and R229.
-/
def Obligations.BackpressureHoldsUntilTheDrive : Prop :=
  ∀ (is : List Instr) (s t : State), s.xc.lineBusy = true → s.xc.pst = .wait →
    (∀ i ∈ is, i.isStep = true ∧ i ≠ .xcDrive) → execAll is s = .next t →
    t.xc.lineBusy = true ∧ t.xc.pst = .wait ∧ t.xc.pRow = s.xc.pRow ∧
      (∃ n, t.xc.fifo = s.xc.fifo.drop n) ∧ t.xc.rowbuf = s.xc.rowbuf ∧ t.xc.pal = s.xc.pal

/-- R116, R231: DSP.DRIVELINE repeats DSP.POLL up to and including the first poll that issues a transfer, which leaves
the channel it toggled to busy: any bound past that poll stops there, and a bound it does not reach is used up in
polls. XC.RUNCONSUMER is the loop of CTX_B: each of its turns is XC.POP at C_POP and XC.DRIVE while a command is
drawn, NOP words are discarded one each turn, and a command with one line left is drawn by just the polls of
DSP.DRIVELINE, after which `LINE_BUSY` is clear and the loop is at the pop. In an assembled block CTX_B takes no
DSP.POLL of its own. The functions are the model's form of the pseudo-operations (log entry 23), and whether the block
is assembled is a parameter (log entry 27). -/
def Obligations.DriveLinePollsUpToTheIssue : Prop :=
  (∀ (n : Nat) (s : State),
    (∀ j, j < n → ¬ ((poll^[j] s).disp.rs = .waitDma ∧
      ((poll^[j] s).dsp (poll^[j] s).disp.dCh).busy = false)) →
    (∀ m, m ≤ n → driveLine m s = poll^[m] s) ∧
    ((poll^[n] s).disp.rs = .waitDma → ((poll^[n] s).dsp (poll^[n] s).disp.dCh).busy = false →
      (∀ m, n < m → driveLine m s = poll^[n + 1] s) ∧
      (driveLine (n + 1) s).disp.dCh = (poll^[n] s).disp.dCh.other ∧
      ((driveLine (n + 1) s).dsp (driveLine (n + 1) s).disp.dCh).busy = true ∧
      (s.xc.cst = .draw → s.xc.cLeft = 1#2 → runConsumer (n + 1) s = .next
        { driveLine (n + 1) s with xc := { s.xc with cLeft := 0#2, lineBusy := false, cst := .pop } }))) ∧
  (∀ (n : Nat) (s : State), ∃ t : State, runConsumer n s = .next t ∧
    runConsumer (n + 1) s = exec (if t.xc.cst = .pop then .xcPop else .xcDrive) t) ∧
  (∀ (ws rest : List Word) (s : State), s.xc.cst = .pop → s.xc.fifo = ws ++ rest →
    (∀ w ∈ ws, w.toNat % 256 = 0) →
    runConsumer ws.length s = .next { s with xc := { s.xc with fifo := rest } }) ∧
  ∀ (s : State) (bytes rest : List Byte) (ts : List Turn) (i : Instr),
    s.schedule = .act bytes :: ts → decodeStep s.params.srcW bytes = .ok (i, rest) →
    i.place = .poll → s.params.engineAlone = false → step s = .next { s with schedule := ts }
end

