-- ==== Sys2Proof/Laws/Decode.lean ====
section
/-! SUPPORT. The laws of bytes, readers and labels: bytes and values agree in both directions, and what each operand
reader answers. -/

namespace Sys2Proof

/-- A bit of an 8-bit window is the bit of the whole. -/
theorem lsb_window {w : Nat} (v : BitVec w) (k e i : Nat) (h1 : e < 8) (h2 : k + e = i) :
    (decide (e < 8) && v.getLsbD (k + e)) = v.getLsbD i := by
  simp [h1, h2]
/-- The two bytes of a halfword make it. -/
theorem halfOf_bytes (v : Half) : halfOf (byteAt v 0) (byteAt v 1) = v := by
  apply BitVec.eq_of_getLsbD_eq
  intro i hi
  simp only [halfOf, byteAt, BitVec.getLsbD_append, BitVec.getLsbD_extractLsb']
  repeat' split
  all_goals exact lsb_window v _ _ _ (by omega) (by omega)

/-- The four bytes of a word make it. -/
theorem wordOf_bytes (v : Word) : wordOf (byteAt v 0) (byteAt v 1) (byteAt v 2) (byteAt v 3) = v := by
  apply BitVec.eq_of_getLsbD_eq
  intro i hi
  simp only [wordOf, byteAt, BitVec.getLsbD_append, BitVec.getLsbD_extractLsb']
  repeat' split
  all_goals exact lsb_window v _ _ _ (by omega) (by omega)

/-- Two bytes are the bytes of the halfword they make. -/
theorem bytes_halfOf (a b : Byte) : halfBytes (halfOf a b) = [a, b] := by
  simp only [halfBytes, List.cons.injEq, and_true]
  constructor <;> apply BitVec.eq_of_getLsbD_eq <;> intro i hi <;>
    simp only [halfOf, byteAt, BitVec.getLsbD_append, BitVec.getLsbD_extractLsb', hi, decide_true,
      Bool.true_and] <;>
    (repeat' split) <;> first | omega | (congr 1; omega)

/-- Four bytes are the bytes of the word they make. -/
theorem bytes_wordOf (a b c d : Byte) : wordBytes (wordOf a b c d) = [a, b, c, d] := by
  simp only [wordBytes, List.cons.injEq, and_true]
  refine ⟨?_, ?_, ?_, ?_⟩ <;> apply BitVec.eq_of_getLsbD_eq <;> intro i hi <;>
    simp only [wordOf, byteAt, BitVec.getLsbD_append, BitVec.getLsbD_extractLsb', hi, decide_true,
      Bool.true_and] <;>
    (repeat' split) <;> first | omega | (congr 1; omega)

/-! ## A reader undoes its writer -/

theorem readHalf_bytes (v : Half) (r : List Byte) : readHalf (halfBytes v ++ r) = .ok (v, r) := by
  simp [readHalf, halfBytes, halfOf_bytes]

theorem readWord_bytes (v : Word) (r : List Byte) : readWord (wordBytes v ++ r) = .ok (v, r) := by
  simp [readWord, wordBytes, wordOf_bytes]

theorem readBytes_append (bs r : List Byte) : readBytes bs.length (bs ++ r) = .ok (bs, r) := by
  induction bs with
  | nil => rfl
  | cons b bs ih => simp [readBytes, ih]

theorem readHalves_append (hs : List Half) (r : List Byte) :
    readHalves hs.length (hs.flatMap halfBytes ++ r) = .ok (hs, r) := by
  induction hs with
  | nil => rfl
  | cons b bs ih => 
    simp only [List.flatMap_cons, List.append_assoc, List.length_cons]
    rw [halfBytes, List.cons_append, List.cons_append, List.nil_append, readHalves, ih]
    simp only [halfOf_bytes]

/-! ## What a reader has read -/

theorem readHalf_ok {bs rest : List Byte} {v : Half} (h : readHalf bs = .ok (v, rest)) : halfBytes v ++ rest = bs := by
  match bs, h with
  | b0 :: b1 :: r, h =>
    simp only [readHalf, Except.ok.injEq, Prod.mk.injEq] at h
    obtain ⟨rfl, rfl⟩ := h
    simp [bytes_halfOf]

theorem readWord_ok {bs rest : List Byte} {v : Word} (h : readWord bs = .ok (v, rest)) : wordBytes v ++ rest = bs := by
  match bs, h with
  | b0 :: b1 :: b2 :: b3 :: r, h =>
    simp only [readWord, Except.ok.injEq, Prod.mk.injEq] at h
    obtain ⟨rfl, rfl⟩ := h
    simp [bytes_wordOf]

theorem readBytes_ok {n : Nat} : ∀ {bs rest v : List Byte}, readBytes n bs = .ok (v, rest) → v ++ rest = bs ∧ v.length = n := by
  induction n with
  | zero =>
    intro bs rest v h
    simp only [readBytes, Except.ok.injEq, Prod.mk.injEq] at h
    obtain ⟨rfl, rfl⟩ := h
    exact ⟨rfl, rfl⟩
  | succ n ih =>
    intro bs rest v h
    match bs, h with
    | b :: r, h =>
      simp only [readBytes] at h
      split at h
      · rename_i bs' r' hr
        simp only [Except.ok.injEq, Prod.mk.injEq] at h
        obtain ⟨rfl, rfl⟩ := h
        have := ih hr
        simp [this]
      · cases h

theorem readHalves_ok {n : Nat} : ∀ {bs rest : List Byte} {v : List Half}, readHalves n bs = .ok (v, rest) → v.flatMap halfBytes ++ rest = bs ∧ v.length = n := by
  induction n with
  | zero =>
    intro bs rest v h
    simp only [readHalves, Except.ok.injEq, Prod.mk.injEq] at h
    obtain ⟨rfl, rfl⟩ := h
    exact ⟨rfl, rfl⟩
  | succ n ih =>
    intro bs rest v h
    match bs, h with
    | b :: b1 :: r, h =>
      simp only [readHalves] at h
      split at h
      · rename_i bs' r' hr
        simp only [Except.ok.injEq, Prod.mk.injEq] at h
        obtain ⟨rfl, rfl⟩ := h
        have := ih hr
        simp [this, bytes_halfOf]
      · cases h

/-! ## A reader of operands never answers that a label names no step -/

theorem readByte_ne (bs : List Byte) (l : Half) : readByte bs ≠ .error (.noSuchStep l) := by
  unfold readByte
  split <;> simp

theorem readHalf_ne (bs : List Byte) (l : Half) : readHalf bs ≠ .error (.noSuchStep l) := by
  unfold readHalf
  split <;> simp

theorem readWord_ne (bs : List Byte) (l : Half) : readWord bs ≠ .error (.noSuchStep l) := by
  unfold readWord
  split <;> simp

theorem readBytes_ne (n : Nat) (bs : List Byte) (l : Half) : readBytes n bs ≠ .error (.noSuchStep l) := by
  induction n generalizing bs with
  | zero => simp [readBytes]
  | succ n ih =>
    match bs with
    | [] => simp [readBytes]
    | b :: r =>
      have := ih r
      rw [readBytes]
      split
      · simp
      · rename_i e he
        rw [he] at this
        simpa using this

theorem readHalves_ne (n : Nat) (bs : List Byte) (l : Half) : readHalves n bs ≠ .error (.noSuchStep l) := by
  induction n generalizing bs with
  | zero => simp [readHalves]
  | succ n ih =>
    match bs with
    | [] => simp [readHalves]
    | [_] => simp [readHalves]
    | b0 :: b1 :: r =>
      have := ih r
      rw [readHalves]
      split
      · simp
      · rename_i e he
        rw [he] at this
        simpa using this

theorem readStart_ne (ops : List Byte) (l : Half) : readStart ops ≠ .error (.noSuchStep l) := by
  intro h
  unfold readStart at h
  split at h
  · rename_i e he; cases h; exact readWord_ne _ _ he
  · split at h
    · rename_i e he; cases h; exact readWord_ne _ _ he
    · split at h
      · rename_i e he; cases h; exact readWord_ne _ _ he
      · cases h

theorem readMix_ne (ops : List Byte) (l : Half) : readMix ops ≠ .error (.noSuchStep l) := by
  intro h
  unfold readMix at h
  split at h
  · rename_i e he; cases h; exact readHalf_ne _ _ he
  · split at h
    · rename_i e he; cases h; exact readHalf_ne _ _ he
    · split at h
      · rename_i e he; cases h; exact readHalf_ne _ _ he
      · cases h

theorem readOneByte_ne (mk : Byte → Instr) (ops : List Byte) (l : Half) :
    readOneByte mk ops ≠ .error (.noSuchStep l) := by
  intro h
  unfold readOneByte at h
  split at h
  · rename_i e he; cases h; exact readByte_ne _ _ he
  · cases h

theorem readOneHalf_ne (mk : Half → Instr) (ops : List Byte) (l : Half) :
    readOneHalf mk ops ≠ .error (.noSuchStep l) := by
  intro h
  unfold readOneHalf at h
  split at h
  · rename_i e he; cases h; exact readHalf_ne _ _ he
  · cases h

theorem readOneWord_ne (mk : Word → Instr) (ops : List Byte) (l : Half) :
    readOneWord mk ops ≠ .error (.noSuchStep l) := by
  intro h
  unfold readOneWord at h
  split at h
  · rename_i e he; cases h; exact readWord_ne _ _ he
  · cases h

theorem readCall_ne (srcW : Nat) (ops : List Byte) (l : Half) : readCall srcW ops ≠ .error (.noSuchStep l) := by
  intro h
  unfold readCall at h
  split at h
  · rename_i e he; cases h; exact readByte_ne _ _ he
  split at h
  · rename_i e he; cases h; exact readByte_ne _ _ he
  split at h
  · cases h
  split at h
  · rename_i e he; cases h; exact readBytes_ne _ _ _ he
  split at h
  · rename_i e he; cases h; exact readHalves_ne _ _ _ he
  · cases h

/-! ## The labels with operands -/

theorem stepOfLabel_start (srcW : Nat) (ops : List Byte) : stepOfLabel srcW 0x0001#16 ops = readStart ops := rfl

theorem stepOfLabel_setvol (srcW : Nat) (ops : List Byte) :
    stepOfLabel srcW 0x0004#16 ops = readOneHalf .audSetvol ops := rfl

theorem stepOfLabel_call (srcW : Nat) (ops : List Byte) : stepOfLabel srcW 0x0006#16 ops = readCall srcW ops := rfl

theorem stepOfLabel_mix (srcW : Nat) (ops : List Byte) : stepOfLabel srcW 0x0021#16 ops = readMix ops := rfl

theorem stepOfLabel_map (srcW : Nat) (ops : List Byte) :
    stepOfLabel srcW 0x0032#16 ops = readOneByte .dspMap ops := rfl

theorem stepOfLabel_hmap (srcW : Nat) (ops : List Byte) :
    stepOfLabel srcW 0x0033#16 ops = readOneHalf .dspHmap ops := rfl

theorem stepOfLabel_push (srcW : Nat) (ops : List Byte) :
    stepOfLabel srcW 0x0040#16 ops = readOneWord .fifoPush ops := rfl

/-- A label that matches a row with a channel bit is that row with the channel it names (R102). -/
theorem label_side (label base : Half) (hb : base &&& 0xFEFF#16 = base) (h : label &&& 0xFEFF#16 = base) : sideLabel base (labelSide label) = label := by
  subst h
  rcases hx : label.getLsbD 8 with _ | _
  · simp only [labelSide, hx, Side.ofBool, sideLabel]
    ext i hi
    have : (0xFEFF#16)[i] = decide (i ≠ 8) := by
      revert i; decide
    simp only [BitVec.getElem_and, this]
    by_cases h8 : i = 8
    · subst h8; simpa using hx.symm
    · simp [h8]
  · simp only [labelSide, hx, Side.ofBool, sideLabel]
    ext i hi
    have h1 : (0xFEFF#16)[i] = decide (i ≠ 8) := by
      revert i; decide
    have h2 : (0x0100#16)[i] = decide (i = 8) := by
      revert i; decide
    simp only [BitVec.getElem_and, BitVec.getElem_or, h1, h2]
    by_cases h8 : i = 8
    · subst h8; simpa using hx.symm
    · simp [h8]

theorem readStart_ok {ops rest : List Byte} {i : Instr} (h : readStart ops = .ok (i, rest)) :
    ∃ a b c, i = .audStart a b c ∧ i.operandBytes ++ rest = ops := by
  simp only [readStart] at h
  split at h
  · cases h
  · rename_i a o1 h1
    split at h
    · cases h
    · rename_i b o2 h2
      split at h
      · cases h
      · rename_i c o3 h3
        simp only [Except.ok.injEq, Prod.mk.injEq] at h
        obtain ⟨rfl, rfl⟩ := h
        exact ⟨a, b, c, rfl, by simp [Instr.operandBytes, readWord_ok h1, readWord_ok h2, readWord_ok h3]⟩

theorem readMix_ok {ops rest : List Byte} {i : Instr} (h : readMix ops = .ok (i, rest)) :
    ∃ a b c, i = .audMix a b c ∧ i.operandBytes ++ rest = ops := by
  simp only [readMix] at h
  split at h
  · cases h
  · rename_i a o1 h1
    split at h
    · cases h
    · rename_i b o2 h2
      split at h
      · cases h
      · rename_i c o3 h3
        simp only [Except.ok.injEq, Prod.mk.injEq] at h
        obtain ⟨rfl, rfl⟩ := h
        exact ⟨a, b, c, rfl, by simp [Instr.operandBytes, readHalf_ok h1, readHalf_ok h2, readHalf_ok h3]⟩

theorem readOneHalf_ok {mk : Half → Instr} {ops rest : List Byte} {i : Instr} (h : readOneHalf mk ops = .ok (i, rest)) :
    ∃ a, i = mk a ∧ halfBytes a ++ rest = ops := by
  simp only [readOneHalf] at h
  split at h
  · cases h
  · rename_i a o1 h1
    simp only [Except.ok.injEq, Prod.mk.injEq] at h
    obtain ⟨rfl, rfl⟩ := h
    exact ⟨a, rfl, readHalf_ok h1⟩

theorem readOneByte_ok {mk : Byte → Instr} {ops rest : List Byte} {i : Instr} (h : readOneByte mk ops = .ok (i, rest)) :
    ∃ a, i = mk a ∧ [a] ++ rest = ops := by
  match ops, h with
  | b :: r, h =>
    simp only [readOneByte, readByte, Except.ok.injEq, Prod.mk.injEq] at h
    obtain ⟨rfl, rfl⟩ := h
    exact ⟨b, rfl, rfl⟩

theorem readOneWord_ok {mk : Word → Instr} {ops rest : List Byte} {i : Instr} (h : readOneWord mk ops = .ok (i, rest)) :
    ∃ a, i = mk a ∧ wordBytes a ++ rest = ops := by
  simp only [readOneWord] at h
  split at h
  · cases h
  · rename_i a o1 h1
    simp only [Except.ok.injEq, Prod.mk.injEq] at h
    obtain ⟨rfl, rfl⟩ := h
    exact ⟨a, rfl, readWord_ok h1⟩

theorem readByte_ok {ops rest : List Byte} {v : Byte} (h : readByte ops = .ok (v, rest)) : v :: rest = ops := by
  match ops, h with
  | b :: r, h =>
    simp only [readByte, Except.ok.injEq, Prod.mk.injEq] at h
    obtain ⟨rfl, rfl⟩ := h
    rfl

theorem readCall_ok {srcW : Nat} {ops rest : List Byte} {i : Instr} (h : readCall srcW ops = .ok (i, rest)) :
    ∃ a b c, i = .xcSubmitCall a b c ∧ i.operandBytes ++ rest = ops ∧ i.wf srcW = true := by
  simp only [readCall] at h
  split at h
  · cases h
  rename_i row o1 h1
  split at h
  · cases h
  rename_i sel o2 h2
  split at h
  · cases h
  rename_i n hn
  split at h
  · cases h
  rename_i px o3 h3
  split at h
  · cases h
  rename_i pal o4 h4
  simp only [Except.ok.injEq, Prod.mk.injEq] at h
  obtain ⟨rfl, rfl⟩ := h
  obtain ⟨e3, l3⟩ := readBytes_ok h3
  obtain ⟨e4, l4⟩ := readHalves_ok h4
  refine ⟨row, px, pal, rfl, ?_, ?_⟩
  · have hs : paletteSelector pal = sel := by
      simp only [paletteEntries] at hn
      split at hn
      · simp at hn; subst hn; simp [paletteSelector, *]
      · split at hn
        · simp at hn; subst hn; simp [paletteSelector, *]
        · cases hn
    simp only [Instr.operandBytes, hs, List.cons_append, List.append_assoc, e4, e3]
    rw [readByte_ok h2, readByte_ok h1]
  · simp only [Instr.wf, wfPixels, wfPalette, l3, l4]
    simp only [paletteEntries] at hn
    split at hn
    · simp at hn; subst hn; simp
    · split at hn
      · simp at hn; subst hn; simp
      · cases hn

/-- The encoding of a step is its label and its operand bytes. -/
theorem encode_of_label {i : Instr} {l : Half} (h : i.label = some l) :
    encode i = halfBytes l ++ i.operandBytes := by
  unfold encode
  split
  · rename_i l' hl
    rw [h] at hl
    cases hl
    rfl
  · rename_i hn
    rw [h] at hn
    cases hn

/-- All that a label can answer: an instruction with that label, whose operand bytes and what follows them are the bytes
read (R102, R117). -/
theorem stepOfLabel_ok {srcW : Nat} {label : Half} {ops rest : List Byte} {i : Instr}
    (h : stepOfLabel srcW label ops = .ok (i, rest)) :
    i.label = some label ∧ i.operandBytes ++ rest = ops ∧ i.wf srcW = true := by
  rw [stepOfLabel] at h
  by_cases h0 : label = 0x0001#16
  · rw [if_pos h0] at h
    obtain ⟨_, _, _, rfl, ho⟩ := readStart_ok h
    exact ⟨congrArg some h0.symm, ho, rfl⟩
  rw [if_neg h0] at h
  by_cases h1 : label = 0x0002#16
  · rw [if_pos h1] at h
    obtain ⟨rfl, rfl⟩ := Prod.mk.inj (Except.ok.inj h)
    exact ⟨congrArg some h1.symm, rfl, rfl⟩
  rw [if_neg h1] at h
  by_cases h2 : label = 0x0003#16
  · rw [if_pos h2] at h
    obtain ⟨rfl, rfl⟩ := Prod.mk.inj (Except.ok.inj h)
    exact ⟨congrArg some h2.symm, rfl, rfl⟩
  rw [if_neg h2] at h
  by_cases h3 : label = 0x0004#16
  · rw [if_pos h3] at h
    obtain ⟨_, rfl, ho⟩ := readOneHalf_ok h
    exact ⟨congrArg some h3.symm, ho, rfl⟩
  rw [if_neg h3] at h
  by_cases h4 : label = 0x0005#16
  · rw [if_pos h4] at h
    obtain ⟨rfl, rfl⟩ := Prod.mk.inj (Except.ok.inj h)
    exact ⟨congrArg some h4.symm, rfl, rfl⟩
  rw [if_neg h4] at h
  by_cases h5 : label = 0x0006#16
  · rw [if_pos h5] at h
    obtain ⟨_, _, _, rfl, ho, hw⟩ := readCall_ok h
    exact ⟨congrArg some h5.symm, ho, hw⟩
  rw [if_neg h5] at h
  by_cases h6 : label = 0x0106#16
  · rw [if_pos h6] at h
    obtain ⟨rfl, rfl⟩ := Prod.mk.inj (Except.ok.inj h)
    exact ⟨congrArg some h6.symm, rfl, rfl⟩
  rw [if_neg h6] at h
  by_cases h7 : label = 0x0206#16
  · rw [if_pos h7] at h
    obtain ⟨rfl, rfl⟩ := Prod.mk.inj (Except.ok.inj h)
    exact ⟨congrArg some h7.symm, rfl, rfl⟩
  rw [if_neg h7] at h
  by_cases h8 : label = 0x0007#16
  · rw [if_pos h8] at h
    obtain ⟨rfl, rfl⟩ := Prod.mk.inj (Except.ok.inj h)
    exact ⟨congrArg some h8.symm, rfl, rfl⟩
  rw [if_neg h8] at h
  by_cases h9 : label = 0x0010#16
  · rw [if_pos h9] at h
    obtain ⟨rfl, rfl⟩ := Prod.mk.inj (Except.ok.inj h)
    exact ⟨congrArg some h9.symm, rfl, rfl⟩
  rw [if_neg h9] at h
  by_cases h10 : label = 0x0011#16
  · rw [if_pos h10] at h
    obtain ⟨rfl, rfl⟩ := Prod.mk.inj (Except.ok.inj h)
    exact ⟨congrArg some h10.symm, rfl, rfl⟩
  rw [if_neg h10] at h
  by_cases h11 : label = 0x0012#16
  · rw [if_pos h11] at h
    obtain ⟨rfl, rfl⟩ := Prod.mk.inj (Except.ok.inj h)
    exact ⟨congrArg some h11.symm, rfl, rfl⟩
  rw [if_neg h11] at h
  by_cases h12 : label = 0x0112#16
  · rw [if_pos h12] at h
    obtain ⟨rfl, rfl⟩ := Prod.mk.inj (Except.ok.inj h)
    exact ⟨congrArg some h12.symm, rfl, rfl⟩
  rw [if_neg h12] at h
  by_cases h13 : label = 0x0212#16
  · rw [if_pos h13] at h
    obtain ⟨rfl, rfl⟩ := Prod.mk.inj (Except.ok.inj h)
    exact ⟨congrArg some h13.symm, rfl, rfl⟩
  rw [if_neg h13] at h
  by_cases h14 : label = 0x0312#16
  · rw [if_pos h14] at h
    obtain ⟨rfl, rfl⟩ := Prod.mk.inj (Except.ok.inj h)
    exact ⟨congrArg some h14.symm, rfl, rfl⟩
  rw [if_neg h14] at h
  by_cases h15 : label &&& 0xFEFF#16 = 0x0020#16
  · rw [if_pos h15] at h
    obtain ⟨rfl, rfl⟩ := Prod.mk.inj (Except.ok.inj h)
    exact ⟨congrArg some (label_side _ _ (by decide) h15), rfl, rfl⟩
  rw [if_neg h15] at h
  by_cases h16 : label = 0x0021#16
  · rw [if_pos h16] at h
    obtain ⟨_, _, _, rfl, ho⟩ := readMix_ok h
    exact ⟨congrArg some h16.symm, ho, rfl⟩
  rw [if_neg h16] at h
  by_cases h17 : label &&& 0xFEFF#16 = 0x0022#16
  · rw [if_pos h17] at h
    obtain ⟨rfl, rfl⟩ := Prod.mk.inj (Except.ok.inj h)
    exact ⟨congrArg some (label_side _ _ (by decide) h17), rfl, rfl⟩
  rw [if_neg h17] at h
  by_cases h18 : label &&& 0xFEFF#16 = 0x0023#16
  · rw [if_pos h18] at h
    obtain ⟨rfl, rfl⟩ := Prod.mk.inj (Except.ok.inj h)
    exact ⟨congrArg some (label_side _ _ (by decide) h18), rfl, rfl⟩
  rw [if_neg h18] at h
  by_cases h19 : label &&& 0xFEFF#16 = 0x0024#16
  · rw [if_pos h19] at h
    obtain ⟨rfl, rfl⟩ := Prod.mk.inj (Except.ok.inj h)
    exact ⟨congrArg some (label_side _ _ (by decide) h19), rfl, rfl⟩
  rw [if_neg h19] at h
  by_cases h20 : label &&& 0xFEFF#16 = 0x0025#16
  · rw [if_pos h20] at h
    obtain ⟨rfl, rfl⟩ := Prod.mk.inj (Except.ok.inj h)
    exact ⟨congrArg some (label_side _ _ (by decide) h20), rfl, rfl⟩
  rw [if_neg h20] at h
  by_cases h21 : label &&& 0xFEFF#16 = 0x0026#16
  · rw [if_pos h21] at h
    obtain ⟨rfl, rfl⟩ := Prod.mk.inj (Except.ok.inj h)
    exact ⟨congrArg some (label_side _ _ (by decide) h21), rfl, rfl⟩
  rw [if_neg h21] at h
  by_cases h22 : label &&& 0xFEFF#16 = 0x0027#16
  · rw [if_pos h22] at h
    obtain ⟨rfl, rfl⟩ := Prod.mk.inj (Except.ok.inj h)
    exact ⟨congrArg some (label_side _ _ (by decide) h22), rfl, rfl⟩
  rw [if_neg h22] at h
  by_cases h23 : label &&& 0xFEFF#16 = 0x0030#16
  · rw [if_pos h23] at h
    obtain ⟨rfl, rfl⟩ := Prod.mk.inj (Except.ok.inj h)
    exact ⟨congrArg some (label_side _ _ (by decide) h23), rfl, rfl⟩
  rw [if_neg h23] at h
  by_cases h24 : label &&& 0xFEFF#16 = 0x0031#16
  · rw [if_pos h24] at h
    obtain ⟨rfl, rfl⟩ := Prod.mk.inj (Except.ok.inj h)
    exact ⟨congrArg some (label_side _ _ (by decide) h24), rfl, rfl⟩
  rw [if_neg h24] at h
  by_cases h25 : label = 0x0032#16
  · rw [if_pos h25] at h
    obtain ⟨_, rfl, ho⟩ := readOneByte_ok h
    exact ⟨congrArg some h25.symm, ho, rfl⟩
  rw [if_neg h25] at h
  by_cases h26 : label = 0x0033#16
  · rw [if_pos h26] at h
    obtain ⟨_, rfl, ho⟩ := readOneHalf_ok h
    exact ⟨congrArg some h26.symm, ho, rfl⟩
  rw [if_neg h26] at h
  by_cases h27 : label = 0x0034#16
  · rw [if_pos h27] at h
    obtain ⟨rfl, rfl⟩ := Prod.mk.inj (Except.ok.inj h)
    exact ⟨congrArg some h27.symm, rfl, rfl⟩
  rw [if_neg h27] at h
  by_cases h28 : label = 0x0040#16
  · rw [if_pos h28] at h
    obtain ⟨_, rfl, ho⟩ := readOneWord_ok h
    exact ⟨congrArg some h28.symm, ho, rfl⟩
  rw [if_neg h28] at h
  by_cases h29 : label = 0x0041#16
  · rw [if_pos h29] at h
    obtain ⟨rfl, rfl⟩ := Prod.mk.inj (Except.ok.inj h)
    exact ⟨congrArg some h29.symm, rfl, rfl⟩
  rw [if_neg h29] at h
  cases h

end Sys2Proof
end

