-- ==== Sys2Proof/Laws/State.lean ====
section
/-! SUPPORT. The small lemmas of the state: what each update changes and what it leaves, each true by `rfl` or by
cases on a two-element set. -/

namespace Sys2Proof

@[simp] theorem Side.other_other (c : Side) : c.other.other = c := by cases c <;> rfl
@[simp] theorem Side.other_a : Side.a.other = .b := rfl
@[simp] theorem Side.other_b : Side.b.other = .a := rfl
@[simp] theorem Side.other_ne (c : Side) : c.other ≠ c := by cases c <;> decide
@[simp] theorem Side.ne_other (c : Side) : c ≠ c.other := by cases c <;> decide

/-- Two elements are the same or each other's other. -/
theorem Side.eq_or_eq_other (c d : Side) : c = d ∨ c = d.other := by cases c <;> cases d <;> decide

end Sys2Proof

namespace Sys2Proof.Machine

/-! ## Pairs -/

@[simp] theorem Pair.get_set_same {α : Type} (p : Pair α) (c : Side) (v : α) : (p.set c v).get c = v := by
  cases c <;> rfl

@[simp] theorem Pair.get_set_other {α : Type} (p : Pair α) (c : Side) (v : α) :
    (p.set c v).get c.other = p.get c.other := by cases c <;> rfl

@[simp] theorem Pair.get_other_set {α : Type} (p : Pair α) (c : Side) (v : α) :
    (p.set c.other v).get c = p.get c := by cases c <;> rfl

@[simp] theorem Pair.set_set {α : Type} (p : Pair α) (c : Side) (v w : α) :
    (p.set c v).set c w = p.set c w := by cases c <;> rfl

@[simp] theorem Pair.set_get {α : Type} (p : Pair α) (c : Side) : p.set c (p.get c) = p := by cases c <;> rfl

theorem Pair.set_comm {α : Type} (p : Pair α) (c : Side) (v w : α) :
    (p.set c.other v).set c w = (p.set c w).set c.other v := by cases c <;> rfl

/-- Reading any element after a write. -/
theorem Pair.get_set {α : Type} (p : Pair α) (c d : Side) (v : α) :
    (p.set c v).get d = if d = c then v else p.get d := by cases c <;> cases d <;> rfl

theorem Pair.ext_get {α : Type} {p q : Pair α} (h : ∀ c, p.get c = q.get c) : p = q := by
  cases p; cases q
  have ha := h .a
  have hb := h .b
  simp only [Pair.get] at ha hb
  rw [ha, hb]

/-! ## `raise` -/

@[simp] theorem raise_params (f : Violation) (s : State) : (raise f s).params = s.params := rfl
@[simp] theorem raise_audio (f : Violation) (s : State) : (raise f s).audio = s.audio := rfl
@[simp] theorem raise_disp (f : Violation) (s : State) : (raise f s).disp = s.disp := rfl
@[simp] theorem raise_xc (f : Violation) (s : State) : (raise f s).xc = s.xc := rfl
@[simp] theorem raise_srcMem (f : Violation) (s : State) : (raise f s).srcMem = s.srcMem := rfl
@[simp] theorem raise_draws (f : Violation) (s : State) : (raise f s).draws = s.draws := rfl
@[simp] theorem raise_ret (f : Violation) (s : State) : (raise f s).ret = s.ret := rfl
@[simp] theorem raise_schedule (f : Violation) (s : State) : (raise f s).schedule = s.schedule := rfl
@[simp] theorem raise_fault (f : Violation) (s : State) :
    (raise f s).fault = s.fault ||| (1#8 <<< f.code) := rfl

/-- All `raiseIf` can do: the fault register, and nothing else. -/
theorem raiseIf_eq (b : Bool) (f : Violation) (s : State) :
    raiseIf b f s = { s with fault := s.fault ||| (if b then 1#8 <<< f.code else 0#8) } := by
  cases b
  · simp [raiseIf]
  · rfl

@[simp] theorem raiseIf_params (b : Bool) (f : Violation) (s : State) : (raiseIf b f s).params = s.params := by
  cases b <;> rfl
@[simp] theorem raiseIf_audio (b : Bool) (f : Violation) (s : State) : (raiseIf b f s).audio = s.audio := by
  cases b <;> rfl
@[simp] theorem raiseIf_disp (b : Bool) (f : Violation) (s : State) : (raiseIf b f s).disp = s.disp := by
  cases b <;> rfl
@[simp] theorem raiseIf_xc (b : Bool) (f : Violation) (s : State) : (raiseIf b f s).xc = s.xc := by
  cases b <;> rfl
@[simp] theorem raiseIf_srcMem (b : Bool) (f : Violation) (s : State) : (raiseIf b f s).srcMem = s.srcMem := by
  cases b <;> rfl
@[simp] theorem raiseIf_draws (b : Bool) (f : Violation) (s : State) : (raiseIf b f s).draws = s.draws := by
  cases b <;> rfl
@[simp] theorem raiseIf_ret (b : Bool) (f : Violation) (s : State) : (raiseIf b f s).ret = s.ret := by
  cases b <;> rfl
@[simp] theorem raiseIf_schedule (b : Bool) (f : Violation) (s : State) :
    (raiseIf b f s).schedule = s.schedule := by cases b <;> rfl

theorem raiseIf_fault (b : Bool) (f : Violation) (s : State) :
    (raiseIf b f s).fault = s.fault ||| (if b then 1#8 <<< f.code else 0#8) := by
  rw [raiseIf_eq]

@[simp] theorem raiseIf_aud (b : Bool) (f : Violation) (s : State) (c : Side) : (raiseIf b f s).aud c = s.aud c := by
  cases b <;> rfl
@[simp] theorem raiseIf_dsp (b : Bool) (f : Violation) (s : State) (k : Side) : (raiseIf b f s).dsp k = s.dsp k := by
  cases b <;> rfl

/-! ## Audio channels -/

@[simp] theorem setAud_params (s : State) (c : Side) (x : AudioChan) : (s.setAud c x).params = s.params := rfl
@[simp] theorem setAud_disp (s : State) (c : Side) (x : AudioChan) : (s.setAud c x).disp = s.disp := rfl
@[simp] theorem setAud_xc (s : State) (c : Side) (x : AudioChan) : (s.setAud c x).xc = s.xc := rfl
@[simp] theorem setAud_fault (s : State) (c : Side) (x : AudioChan) : (s.setAud c x).fault = s.fault := rfl
@[simp] theorem setAud_srcMem (s : State) (c : Side) (x : AudioChan) : (s.setAud c x).srcMem = s.srcMem := rfl
@[simp] theorem setAud_draws (s : State) (c : Side) (x : AudioChan) : (s.setAud c x).draws = s.draws := rfl
@[simp] theorem setAud_ret (s : State) (c : Side) (x : AudioChan) : (s.setAud c x).ret = s.ret := rfl
@[simp] theorem setAud_schedule (s : State) (c : Side) (x : AudioChan) :
    (s.setAud c x).schedule = s.schedule := rfl
@[simp] theorem setAud_chan (s : State) (c : Side) (x : AudioChan) :
    (s.setAud c x).audio.chan = s.audio.chan.set c x := rfl
@[simp] theorem setAud_src (s : State) (c : Side) (x : AudioChan) : (s.setAud c x).audio.src = s.audio.src := rfl
@[simp] theorem setAud_total (s : State) (c : Side) (x : AudioChan) :
    (s.setAud c x).audio.total = s.audio.total := rfl
@[simp] theorem setAud_rem (s : State) (c : Side) (x : AudioChan) : (s.setAud c x).audio.rem = s.audio.rem := rfl
@[simp] theorem setAud_prio (s : State) (c : Side) (x : AudioChan) : (s.setAud c x).audio.prio = s.audio.prio := rfl
@[simp] theorem setAud_vol (s : State) (c : Side) (x : AudioChan) : (s.setAud c x).audio.vol = s.audio.vol := rfl
@[simp] theorem setAud_volV (s : State) (c : Side) (x : AudioChan) : (s.setAud c x).audio.volV = s.audio.volV := rfl
@[simp] theorem setAud_playing (s : State) (c : Side) (x : AudioChan) :
    (s.setAud c x).audio.playing = s.audio.playing := rfl
@[simp] theorem setAud_pwm (s : State) (c : Side) (x : AudioChan) : (s.setAud c x).audio.pwm = s.audio.pwm := rfl
@[simp] theorem setAud_trace (s : State) (c : Side) (x : AudioChan) :
    (s.setAud c x).audio.trace = s.audio.trace := rfl

@[simp] theorem aud_setAud_same (s : State) (c : Side) (x : AudioChan) : (s.setAud c x).aud c = x :=
  Pair.get_set_same _ _ _
@[simp] theorem aud_setAud_other (s : State) (c : Side) (x : AudioChan) :
    (s.setAud c x).aud c.other = s.aud c.other := Pair.get_set_other _ _ _
@[simp] theorem aud_other_setAud (s : State) (c : Side) (x : AudioChan) :
    (s.setAud c.other x).aud c = s.aud c := Pair.get_other_set _ _ _

theorem aud_setAud (s : State) (c d : Side) (x : AudioChan) :
    (s.setAud c x).aud d = if d = c then x else s.aud d := Pair.get_set _ _ _ _

/-! ## Display channels -/

@[simp] theorem setDsp_params (s : State) (k : Side) (x : DispChan) : (s.setDsp k x).params = s.params := rfl
@[simp] theorem setDsp_audio (s : State) (k : Side) (x : DispChan) : (s.setDsp k x).audio = s.audio := rfl
@[simp] theorem setDsp_xc (s : State) (k : Side) (x : DispChan) : (s.setDsp k x).xc = s.xc := rfl
@[simp] theorem setDsp_fault (s : State) (k : Side) (x : DispChan) : (s.setDsp k x).fault = s.fault := rfl
@[simp] theorem setDsp_srcMem (s : State) (k : Side) (x : DispChan) : (s.setDsp k x).srcMem = s.srcMem := rfl
@[simp] theorem setDsp_draws (s : State) (k : Side) (x : DispChan) : (s.setDsp k x).draws = s.draws := rfl
@[simp] theorem setDsp_ret (s : State) (k : Side) (x : DispChan) : (s.setDsp k x).ret = s.ret := rfl
@[simp] theorem setDsp_schedule (s : State) (k : Side) (x : DispChan) :
    (s.setDsp k x).schedule = s.schedule := rfl
@[simp] theorem setDsp_chan (s : State) (k : Side) (x : DispChan) :
    (s.setDsp k x).disp.chan = s.disp.chan.set k x := rfl
@[simp] theorem setDsp_rs (s : State) (k : Side) (x : DispChan) : (s.setDsp k x).disp.rs = s.disp.rs := rfl
@[simp] theorem setDsp_row (s : State) (k : Side) (x : DispChan) : (s.setDsp k x).disp.row = s.disp.row := rfl
@[simp] theorem setDsp_frameReq (s : State) (k : Side) (x : DispChan) :
    (s.setDsp k x).disp.frameReq = s.disp.frameReq := rfl
@[simp] theorem setDsp_rendering (s : State) (k : Side) (x : DispChan) :
    (s.setDsp k x).disp.rendering = s.disp.rendering := rfl
@[simp] theorem setDsp_line (s : State) (k : Side) (x : DispChan) : (s.setDsp k x).disp.line = s.disp.line := rfl
@[simp] theorem setDsp_fillSlot (s : State) (k : Side) (x : DispChan) :
    (s.setDsp k x).disp.fillSlot = s.disp.fillSlot := rfl
@[simp] theorem setDsp_dCh (s : State) (k : Side) (x : DispChan) : (s.setDsp k x).disp.dCh = s.disp.dCh := rfl
@[simp] theorem setDsp_trace (s : State) (k : Side) (x : DispChan) :
    (s.setDsp k x).disp.trace = s.disp.trace := rfl

@[simp] theorem dsp_setDsp_same (s : State) (k : Side) (x : DispChan) : (s.setDsp k x).dsp k = x :=
  Pair.get_set_same _ _ _
@[simp] theorem dsp_setDsp_other (s : State) (k : Side) (x : DispChan) :
    (s.setDsp k x).dsp k.other = s.dsp k.other := Pair.get_set_other _ _ _
@[simp] theorem dsp_other_setDsp (s : State) (k : Side) (x : DispChan) :
    (s.setDsp k.other x).dsp k = s.dsp k := Pair.get_other_set _ _ _

theorem dsp_setDsp (s : State) (k d : Side) (x : DispChan) :
    (s.setDsp k x).dsp d = if d = k then x else s.dsp d := Pair.get_set _ _ _ _

/-! ## `spend` -/

@[simp] theorem spend_params (s : State) : s.spend.params = s.params := rfl
@[simp] theorem spend_audio (s : State) : s.spend.audio = s.audio := rfl
@[simp] theorem spend_disp (s : State) : s.spend.disp = s.disp := rfl
@[simp] theorem spend_xc (s : State) : s.spend.xc = s.xc := rfl
@[simp] theorem spend_fault (s : State) : s.spend.fault = s.fault := rfl
@[simp] theorem spend_srcMem (s : State) : s.spend.srcMem = s.srcMem := rfl
@[simp] theorem spend_ret (s : State) : s.spend.ret = s.ret := rfl
@[simp] theorem spend_schedule (s : State) : s.spend.schedule = s.schedule := rfl
@[simp] theorem spend_draws (s : State) : s.spend.draws = s.draws + 1 := rfl
@[simp] theorem spend_aud (s : State) (c : Side) : s.spend.aud c = s.aud c := rfl
@[simp] theorem spend_dsp (s : State) (k : Side) : s.spend.dsp k = s.dsp k := rfl

/-! ## Output ports -/

@[simp] theorem pwmOut_params (v : Byte) (s : State) : (pwmOut v s).params = s.params := rfl
@[simp] theorem pwmOut_disp (v : Byte) (s : State) : (pwmOut v s).disp = s.disp := rfl
@[simp] theorem pwmOut_xc (v : Byte) (s : State) : (pwmOut v s).xc = s.xc := rfl
@[simp] theorem pwmOut_fault (v : Byte) (s : State) : (pwmOut v s).fault = s.fault := rfl
@[simp] theorem pwmOut_srcMem (v : Byte) (s : State) : (pwmOut v s).srcMem = s.srcMem := rfl
@[simp] theorem pwmOut_ret (v : Byte) (s : State) : (pwmOut v s).ret = s.ret := rfl
@[simp] theorem pwmOut_schedule (v : Byte) (s : State) : (pwmOut v s).schedule = s.schedule := rfl
@[simp] theorem pwmOut_draws (v : Byte) (s : State) : (pwmOut v s).draws = s.draws + 1 := rfl
@[simp] theorem pwmOut_aud (v : Byte) (s : State) (c : Side) : (pwmOut v s).aud c = s.aud c := rfl
@[simp] theorem pwmOut_chan (v : Byte) (s : State) : (pwmOut v s).audio.chan = s.audio.chan := rfl
@[simp] theorem pwmOut_playing (v : Byte) (s : State) : (pwmOut v s).audio.playing = s.audio.playing := rfl
@[simp] theorem pwmOut_rem (v : Byte) (s : State) : (pwmOut v s).audio.rem = s.audio.rem := rfl
@[simp] theorem pwmOut_total (v : Byte) (s : State) : (pwmOut v s).audio.total = s.audio.total := rfl
@[simp] theorem pwmOut_pwm (v : Byte) (s : State) : (pwmOut v s).audio.pwm = pwmValue v s := rfl
@[simp] theorem pwmOut_trace (v : Byte) (s : State) :
    (pwmOut v s).audio.trace = s.audio.trace ++ [pwmValue v s] := rfl

/-- The level written is the level asked for, unless `F_AUD_RECONFIG` is set (U5). -/
theorem pwmValue_eq {v : Byte} {s : State} (h : s.faulted .audReconfig = false) : pwmValue v s = v := by
  simp [pwmValue, h]

@[simp] theorem panelOut_params (e : PanelEvent) (s : State) : (panelOut e s).params = s.params := rfl
@[simp] theorem panelOut_audio (e : PanelEvent) (s : State) : (panelOut e s).audio = s.audio := rfl
@[simp] theorem panelOut_xc (e : PanelEvent) (s : State) : (panelOut e s).xc = s.xc := rfl
@[simp] theorem panelOut_fault (e : PanelEvent) (s : State) : (panelOut e s).fault = s.fault := rfl
@[simp] theorem panelOut_srcMem (e : PanelEvent) (s : State) : (panelOut e s).srcMem = s.srcMem := rfl
@[simp] theorem panelOut_draws (e : PanelEvent) (s : State) : (panelOut e s).draws = s.draws := rfl
@[simp] theorem panelOut_ret (e : PanelEvent) (s : State) : (panelOut e s).ret = s.ret := rfl
@[simp] theorem panelOut_schedule (e : PanelEvent) (s : State) : (panelOut e s).schedule = s.schedule := rfl
@[simp] theorem panelOut_dsp (e : PanelEvent) (s : State) (k : Side) : (panelOut e s).dsp k = s.dsp k := rfl
@[simp] theorem panelOut_trace (e : PanelEvent) (s : State) :
    (panelOut e s).disp.trace = s.disp.trace ++ [e] := rfl

/-! ## CTX_A's position in an AUD.SERVICE -/

@[simp] theorem setAud_midService (s : State) (c : Side) (x : AudioChan) :
    (s.setAud c x).audio.midService = s.audio.midService := rfl
@[simp] theorem pwmOut_midService (v : Byte) (s : State) :
    (pwmOut v s).audio.midService = s.audio.midService := rfl
@[simp] theorem setMidService_midService (b : Bool) (s : State) : (setMidService b s).audio.midService = b := rfl
@[simp] theorem setMidService_params (b : Bool) (s : State) : (setMidService b s).params = s.params := rfl
@[simp] theorem setMidService_disp (b : Bool) (s : State) : (setMidService b s).disp = s.disp := rfl
@[simp] theorem setMidService_xc (b : Bool) (s : State) : (setMidService b s).xc = s.xc := rfl
@[simp] theorem setMidService_fault (b : Bool) (s : State) : (setMidService b s).fault = s.fault := rfl
@[simp] theorem setMidService_srcMem (b : Bool) (s : State) : (setMidService b s).srcMem = s.srcMem := rfl
@[simp] theorem setMidService_draws (b : Bool) (s : State) : (setMidService b s).draws = s.draws := rfl
@[simp] theorem setMidService_ret (b : Bool) (s : State) : (setMidService b s).ret = s.ret := rfl
@[simp] theorem setMidService_schedule (b : Bool) (s : State) : (setMidService b s).schedule = s.schedule := rfl
@[simp] theorem setMidService_aud (b : Bool) (s : State) (c : Side) : (setMidService b s).aud c = s.aud c := rfl
@[simp] theorem setMidService_dsp (b : Bool) (s : State) (k : Side) : (setMidService b s).dsp k = s.dsp k := rfl
@[simp] theorem setMidService_setMidService (b d : Bool) (s : State) :
    setMidService b (setMidService d s) = setMidService b s := rfl
@[simp] theorem setMidService_self (s : State) : setMidService s.audio.midService s = s := rfl

/-! ## The queue -/

@[simp] theorem fifoEnqueue_fifo (w : Word) (s : State) : (fifoEnqueue w s).xc.fifo = s.xc.fifo ++ [w] := rfl
@[simp] theorem fifoEnqueue_audio (w : Word) (s : State) : (fifoEnqueue w s).audio = s.audio := rfl
@[simp] theorem fifoEnqueue_disp (w : Word) (s : State) : (fifoEnqueue w s).disp = s.disp := rfl
@[simp] theorem fifoEnqueue_params (w : Word) (s : State) : (fifoEnqueue w s).params = s.params := rfl
@[simp] theorem fifoEnqueue_fault (w : Word) (s : State) : (fifoEnqueue w s).fault = s.fault := rfl
@[simp] theorem fifoDequeue_fifo (s : State) : (fifoDequeue s).xc.fifo = s.xc.fifo.tail := rfl
@[simp] theorem fifoDequeue_audio (s : State) : (fifoDequeue s).audio = s.audio := rfl
@[simp] theorem fifoDequeue_disp (s : State) : (fifoDequeue s).disp = s.disp := rfl
@[simp] theorem fifoDequeue_params (s : State) : (fifoDequeue s).params = s.params := rfl
@[simp] theorem fifoDequeue_fault (s : State) : (fifoDequeue s).fault = s.fault := rfl

end Sys2Proof.Machine
end

