-- ==== Sys2Proof/Laws/Memory.lean ====
section
/-! SUPPORT. The laws of memory: a write is read back, every other index is left, and the canonical form is kept. -/

namespace Sys2Proof.Machine

variable {w : Nat}

@[simp] theorem read?_nil (i : Nat) : Memory.read? ([] : Memory w) i = none := rfl

theorem read?_cons (a : Nat) (v : BitVec w) (m : Memory w) (i : Nat) :
    Memory.read? ((a, v) :: m) i = if i = a then some v else Memory.read? m i := rfl

/-- An index that no entry has reads as no value. -/
theorem read?_eq_none {m : Memory w} {i : Nat} (h : ∀ e ∈ m, e.1 ≠ i) : Memory.read? m i = none := by
  induction m with
  | nil => rfl
  | cons e m ih =>
    obtain ⟨a, v⟩ := e
    have ha : i ≠ a := fun hi => h (a, v) (by simp) hi.symm
    simp only [read?_cons, if_neg ha]
    exact ih fun e he => h e (by simp [he])

/-- A read of a concatenation reads the first part, and the second where the first has nothing. -/
theorem read?_append (m n : Memory w) (i : Nat) :
    Memory.read? (m ++ n) i = (Memory.read? m i).or (Memory.read? n i) := by
  induction m with
  | nil => simp
  | cons e m ih =>
    obtain ⟨a, v⟩ := e
    simp only [List.cons_append, read?_cons]
    split <;> simp [ih]

/-- An entry of a memory is read back when the form is canonical. -/
theorem read?_of_mem {m : Memory w} (hm : Memory.wf m) {i : Nat} {v : BitVec w} (h : (i, v) ∈ m) :
    Memory.read? m i = some v := by
  induction m with
  | nil => simp at h
  | cons e m ih =>
    obtain ⟨a, x⟩ := e
    rw [Memory.wf, List.pairwise_cons] at hm
    simp only [read?_cons]
    rcases List.mem_cons.1 h with h | h
    · obtain ⟨rfl, rfl⟩ := Prod.mk.inj h
      simp
    · have := hm.1 _ h
      simp only at this
      rw [if_neg (by omega)]
      exact ih hm.2 h

theorem mem_of_read? {m : Memory w} {i : Nat} {v : BitVec w} (h : Memory.read? m i = some v) : (i, v) ∈ m := by
  induction m with
  | nil => simp at h
  | cons e m ih =>
    obtain ⟨a, x⟩ := e
    simp only [read?_cons] at h
    split at h
    · rename_i hi
      cases h
      simp [hi]
    · exact List.mem_cons_of_mem _ (ih h)

theorem mem_overlay_of {news : Memory w} : ∀ {old : Memory w} {e : Nat × BitVec w},
    e ∈ Memory.overlay news old → e ∈ news ∨ e ∈ old := by
  induction news with
  | nil => intro old e h; exact .inr h
  | cons x news ih =>
    obtain ⟨a, v⟩ := x
    intro old e h
    simp only [Memory.overlay, List.mem_append, List.mem_cons] at h
    rcases h with h | h | h
    · exact .inr (List.takeWhile_subset _ h)
    · exact .inl (by simp [h])
    · rcases ih h with h | h
      · exact .inl (by simp [h])
      · exact .inr (List.dropWhile_subset _ h)

/-- Every index of a write is below a bound that the new entries and the old ones keep. -/
theorem below_overlay {n : Nat} {news old : Memory w} (hn : Memory.below n news) (ho : Memory.below n old) :
    Memory.below n (Memory.overlay news old) := fun e he =>
  (mem_overlay_of he).elim (hn e) (ho e)

theorem lt_of_mem_takeWhile {a : Nat} {m : Memory w} {e : Nat × BitVec w}
    (h : e ∈ m.takeWhile fun x => Nat.blt x.1 a) : e.1 < a := by
  have := List.mem_takeWhile_imp h
  simpa [Nat.blt_eq] using this

theorem gt_of_mem_dropWhile {a : Nat} {m : Memory w} (hm : Memory.wf m) {e : Nat × BitVec w}
    (h : e ∈ m.dropWhile fun x => Nat.ble x.1 a) : a < e.1 := by
  induction m with
  | nil => simp at h
  | cons x m ih =>
    rw [Memory.wf, List.pairwise_cons] at hm
    rw [List.dropWhile_cons] at h
    split at h
    · exact ih hm.2 h
    · rename_i hx
      have hax : a < x.1 := by
        by_contra hc
        exact hx (by rw [Nat.ble_eq]; omega)
      rcases List.mem_cons.1 h with rfl | h
      · exact hax
      · exact Nat.lt_trans hax (hm.1 _ h)

/-- Every write keeps the canonical form. -/
theorem wf_overlay {news : Memory w} : ∀ {old : Memory w}, Memory.wf news → Memory.wf old →
    Memory.wf (Memory.overlay news old) := by
  induction news with
  | nil => intro old _ h; exact h
  | cons x news ih =>
    obtain ⟨a, v⟩ := x
    intro old hn ho
    rw [Memory.wf, List.pairwise_cons] at hn
    simp only [Memory.overlay, Memory.wf]
    refine List.pairwise_append.2 ⟨ho.sublist (List.takeWhile_sublist _), ?_, ?_⟩
    · refine List.pairwise_cons.2 ⟨fun e he => ?_, ?_⟩
      · rcases mem_overlay_of he with he | he
        · exact hn.1 e he
        · exact gt_of_mem_dropWhile ho he
      · exact ih hn.2 (ho.sublist (List.dropWhile_sublist _))
    · intro e he f hf
      have hea := lt_of_mem_takeWhile he
      rcases List.mem_cons.1 hf with rfl | hf
      · exact hea
      · rcases mem_overlay_of hf with hf | hf
        · exact Nat.lt_trans hea (hn.1 f hf)
        · exact Nat.lt_trans hea (gt_of_mem_dropWhile ho hf)

theorem read?_takeWhile {a i : Nat} {m : Memory w} (hm : Memory.wf m) (hi : i < a) :
    Memory.read? (m.takeWhile fun x => Nat.blt x.1 a) i = Memory.read? m i := by
  induction m with
  | nil => rfl
  | cons x m ih =>
    obtain ⟨b, v⟩ := x
    have hm' := hm
    rw [Memory.wf, List.pairwise_cons] at hm
    rw [List.takeWhile_cons]
    split
    · simp only [read?_cons]
      split
      · rfl
      · exact ih hm.2
    · rename_i hx
      have hab : a ≤ b := by
        by_contra hc
        exact hx (by rw [Nat.blt_eq]; omega)
      symm
      refine read?_eq_none fun e he => ?_
      rcases List.mem_cons.1 he with rfl | he
      · simp only; omega
      · have := hm.1 e he
        simp only at this
        omega

theorem read?_dropWhile {a i : Nat} {m : Memory w} (hi : a < i) :
    Memory.read? (m.dropWhile fun x => Nat.ble x.1 a) i = Memory.read? m i := by
  induction m with
  | nil => rfl
  | cons x m ih =>
    obtain ⟨b, v⟩ := x
    rw [List.dropWhile_cons]
    split
    · rename_i hx
      have : b ≤ a := by rwa [Nat.ble_eq] at hx
      rw [ih, read?_cons, if_neg (by omega)]
    · rfl

/-- The law of every write: an index the new entries have reads their value, any other reads as before. -/
theorem read?_overlay {news : Memory w} : ∀ {old : Memory w}, Memory.wf news → Memory.wf old → ∀ i,
    Memory.read? (Memory.overlay news old) i = (Memory.read? news i).or (Memory.read? old i) := by
  induction news with
  | nil => intro old _ _ i; simp [Memory.overlay]
  | cons x news ih =>
    obtain ⟨a, v⟩ := x
    intro old hn ho i
    have hn' := hn
    rw [Memory.wf, List.pairwise_cons] at hn
    simp only [Memory.overlay, read?_append, read?_cons]
    have hrest := ih hn.2 (ho.sublist (List.dropWhile_sublist fun e : Nat × BitVec w => Nat.ble e.1 a)) i
    rcases Nat.lt_trichotomy i a with hi | hi | hi
    · have hnone : Memory.read? news i = none := read?_eq_none fun e he => by
        have := hn.1 e he
        simp only at this
        omega
      have hdrop : Memory.read? (old.dropWhile fun e => Nat.ble e.1 a) i = none := read?_eq_none fun e he => by
        have := gt_of_mem_dropWhile ho he
        omega
      rw [if_neg (by omega), if_neg (by omega), hrest, hnone, hdrop, read?_takeWhile ho hi]
      simp
    · have htake : Memory.read? (old.takeWhile fun e => Nat.blt e.1 a) i = none := read?_eq_none fun e he => by
        have := lt_of_mem_takeWhile he
        omega
      rw [if_pos hi, if_pos hi, htake]
      simp
    · have htake : Memory.read? (old.takeWhile fun e => Nat.blt e.1 a) i = none := read?_eq_none fun e he => by
        have := lt_of_mem_takeWhile he
        omega
      rw [if_neg (by omega), if_neg (by omega), htake, hrest, read?_dropWhile hi]
      simp

/-! ## Listings -/

theorem mem_listing {a : Nat} {vs : List (BitVec w)} {e : Nat × BitVec w} (h : e ∈ Memory.listing a vs) :
    a ≤ e.1 ∧ e.1 < a + vs.length := by
  induction vs generalizing a with
  | nil => simp [Memory.listing] at h
  | cons v vs ih =>
    simp only [Memory.listing, List.mem_cons] at h
    simp only [List.length_cons]
    rcases h with rfl | h
    · simp only; omega
    · have := ih h
      omega

/-- A listing is in canonical form. -/
theorem wf_listing (a : Nat) (vs : List (BitVec w)) : Memory.wf (Memory.listing a vs) := by
  induction vs generalizing a with
  | nil => exact List.Pairwise.nil
  | cons v vs ih =>
    simp only [Memory.listing, Memory.wf]
    refine List.pairwise_cons.2 ⟨fun e he => ?_, ih _⟩
    have := (mem_listing he).1
    simp only
    omega

theorem below_listing {a n : Nat} {vs : List (BitVec w)} (h : a + vs.length ≤ n) :
    Memory.below n (Memory.listing a vs) := fun e he => by
  have := (mem_listing he).2
  omega

/-- A listing reads its values from its base on, and nothing elsewhere. -/
theorem read?_listing (a : Nat) (vs : List (BitVec w)) (i : Nat) :
    Memory.read? (Memory.listing a vs) i = if a ≤ i then vs[i - a]? else none := by
  induction vs generalizing a with
  | nil => simp [Memory.listing]
  | cons v vs ih =>
    simp only [Memory.listing, read?_cons]
    split
    · rename_i h
      subst h
      simp
    · rename_i h
      rw [ih]
      by_cases ha : a ≤ i
      · rw [if_pos (by omega), if_pos ha]
        obtain ⟨k, hk⟩ : ∃ k, i - a = k + 1 := ⟨i - a - 1, by omega⟩
        rw [hk, List.getElem?_cons_succ]
        congr 1
        omega
      · rw [if_neg (by omega), if_neg ha]

/-! ## Tabulated entries -/

/-- Entries tabulated from a rising list of indexes are in canonical form. -/
theorem wf_map_range (n : Nat) (f : Nat → BitVec w) : Memory.wf ((List.range n).map fun i => (i, f i)) := by
  rw [Memory.wf, List.pairwise_map]
  exact List.pairwise_lt_range

theorem read?_map_range (n : Nat) (f : Nat → BitVec w) (i : Nat) :
    Memory.read? ((List.range n).map fun i => (i, f i)) i = if i < n then some (f i) else none := by
  split
  · rename_i h
    exact read?_of_mem (wf_map_range n f) (List.mem_map.2 ⟨i, List.mem_range.2 h, rfl⟩)
  · rename_i h
    refine read?_eq_none fun e he => ?_
    obtain ⟨j, hj, rfl⟩ := List.mem_map.1 he
    have := List.mem_range.1 hj
    simp only
    omega

theorem wf_filterMap_range (n : Nat) (f : Nat → Option (BitVec w)) :
    Memory.wf ((List.range n).filterMap fun i => (f i).map fun v => (i, v)) := by
  rw [Memory.wf, List.pairwise_filterMap]
  refine List.pairwise_lt_range.imp ?_
  intro i j hij x hx y hy
  simp only [Option.map_eq_some_iff] at hx hy
  obtain ⟨_, _, rfl⟩ := hx
  obtain ⟨_, _, rfl⟩ := hy
  exact hij

theorem mem_filterMap_range {n : Nat} {f : Nat → Option (BitVec w)} {e : Nat × BitVec w}
    (h : e ∈ (List.range n).filterMap fun i => (f i).map fun v => (i, v)) : e.1 < n ∧ f e.1 = some e.2 := by
  simp only [List.mem_filterMap, List.mem_range, Option.map_eq_some_iff] at h
  obtain ⟨i, hi, v, hv, rfl⟩ := h
  exact ⟨hi, hv⟩

theorem read?_filterMap_range (n : Nat) (f : Nat → Option (BitVec w)) (i : Nat) :
    Memory.read? ((List.range n).filterMap fun i => (f i).map fun v => (i, v)) i =
      if i < n then f i else none := by
  cases hr : Memory.read? ((List.range n).filterMap fun i => (f i).map fun v => (i, v)) i with
  | some v =>
    have := mem_filterMap_range (mem_of_read? hr)
    rw [if_pos this.1, this.2]
  | none =>
    split
    · rename_i h
      cases hf : f i with
      | none => rfl
      | some v =>
        have hmem : (i, v) ∈ (List.range n).filterMap fun i => (f i).map fun v => (i, v) := by
          simp only [List.mem_filterMap, List.mem_range, Option.map_eq_some_iff]
          exact ⟨i, h, v, hf, rfl⟩
        rw [read?_of_mem (wf_filterMap_range n f) hmem] at hr
        cases hr
    · rfl

end Sys2Proof.Machine
end

