-- ==== Sys2Proof/Laws/Ops.lean ====
section
/-! SUPPORT. One lemma per shared operation that says once everything it does: the state it answers, as one record
update of the state it is given. Citing it replaces unfolding the operation. -/

namespace Sys2Proof.Machine

/-! ## States by their parts -/

/-- Writing one audio channel, as a record update. -/
theorem setAud_eq (s : State) (c : Side) (x : AudioChan) :
    s.setAud c x = { s with audio := { s.audio with chan := s.audio.chan.set c x } } := rfl

/-- Writing one display channel, as a record update. -/
theorem setDsp_eq (s : State) (k : Side) (x : DispChan) :
    s.setDsp k x = { s with disp := { s.disp with chan := s.disp.chan.set k x } } := rfl

theorem aud_eq (s : State) (c : Side) : s.aud c = s.audio.chan.get c := rfl

theorem dsp_eq (s : State) (k : Side) : s.dsp k = s.disp.chan.get k := rfl

/-- Some channel is busy just where one of the two is. -/
theorem audioBusy_eq (s : State) (c : Side) : s.audioBusy = ((s.aud c).busy || (s.aud c.other).busy) := by
  cases c
  · rfl
  · exact Bool.or_comm _ _

/-! ## Output ports and the queue -/

theorem pwmOut_eq (v : Byte) (s : State) :
    pwmOut v s =
      { s with
        audio := { s.audio with pwm := pwmValue v s, trace := s.audio.trace ++ [pwmValue v s] }
        draws := s.draws + 1 } := rfl

theorem panelOut_eq (e : PanelEvent) (s : State) :
    panelOut e s = { s with disp := { s.disp with trace := s.disp.trace ++ [e] } } := rfl

theorem fifoEnqueue_eq (w : Word) (s : State) :
    fifoEnqueue w s = { s with xc := { s.xc with fifo := s.xc.fifo ++ [w] } } := rfl

theorem fifoDequeue_eq (s : State) :
    fifoDequeue s = { s with xc := { s.xc with fifo := s.xc.fifo.tail } } := rfl

/-! ## Audio micro-operations -/

/-- AUD.TRIGGER of an idle channel (R139). -/
theorem triggerChannel_idle {c : Side} {s : State} (h : (s.aud c).busy = false) :
    triggerChannel c s =
      s.setAud c { s.aud c with busy := true, cnt := (s.aud c).len, raced := false } := by
  simp [triggerChannel, h]

/-- AUD.TRIGGER of a busy channel (R139). -/
theorem triggerChannel_busy {c : Side} {s : State} (h : (s.aud c).busy = true) : triggerChannel c s = s := by
  simp [triggerChannel, h]

/-- AUD.TRIGGER, both cases at once. -/
theorem triggerChannel_eq (c : Side) (s : State) :
    triggerChannel c s = s.setAud c
      { s.aud c with
        busy := true
        cnt := if (s.aud c).busy then (s.aud c).cnt else (s.aud c).len
        raced := (s.aud c).busy && (s.aud c).raced } := by
  rcases hb : (s.aud c).busy with _ | _
  · simp [triggerChannel, hb]
  · have hx : (⟨(s.aud c).block, (s.aud c).rd, (s.aud c).len, (s.aud c).cnt, true, (s.aud c).ip, (s.aud c).ie,
        (s.aud c).refill, (s.aud c).term, (s.aud c).raced⟩ : AudioChan) = s.aud c := by rw [← hb]
    simp only [triggerChannel, hb, if_true, Bool.true_and, hx]
    cases c <;> rfl

theorem abortChannel_eq (c : Side) (s : State) :
    abortChannel c s = s.setAud c { s.aud c with busy := false, cnt := 0#32 } := rfl

theorem requestCompletion_eq (c : Side) (s : State) :
    requestCompletion c s = s.setAud c { s.aud c with busy := false, ip := true } := rfl

/-- AUD.DONE (R141): the run ends, the interrupt is requested, the other channel is triggered. -/
theorem completeChannel_eq (c : Side) (s : State) :
    completeChannel c s =
      (s.setAud c { s.aud c with busy := false, ip := true }).setAud c.other
        { s.aud c.other with
          busy := true
          cnt := if (s.aud c.other).busy then (s.aud c.other).cnt else (s.aud c.other).len
          raced := (s.aud c.other).busy && (s.aud c.other).raced } := by
  rw [completeChannel, triggerChannel_eq]
  cases c <;> rfl

/-- AUD.IRQ with no termination requested (R142). -/
theorem takeCompletion_rearm {c : Side} {s : State} (h : (s.aud c).term = false) :
    takeCompletion c s = s.setAud c { s.aud c with rd := 0#32, refill := true, ip := false } := by
  rw [takeCompletion, if_neg (by simp [h])]
  cases c <;> rfl

/-- AUD.IRQ with the termination requested (R142). -/
theorem takeCompletion_stop {c : Side} {s : State} (h : (s.aud c).term = true) :
    takeCompletion c s =
      { s with
        audio := { s.audio with
          pwm := pwmValue s.params.silence s
          trace := s.audio.trace ++ [pwmValue s.params.silence s]
          playing := false
          chan := (s.audio.chan.set c { s.aud c with ip := false }).set c.other
            { s.aud c.other with busy := false, cnt := 0#32 } }
        draws := s.draws + 1 } := by
  rw [takeCompletion, if_pos h]
  cases c <;> rfl

/-- AUD.STOP (R132). -/
theorem hardStop_eq (s : State) :
    hardStop s =
      { s with
        audio := { s.audio with
          pwm := pwmValue s.params.silence s
          trace := s.audio.trace ++ [pwmValue s.params.silence s]
          playing := false
          chan := ⟨{ s.aud .a with busy := false, cnt := 0#32 }, { s.aud .b with busy := false, cnt := 0#32 }⟩ }
        draws := s.draws + 1 } := rfl

/-- AUD.FILL (R135): all it writes. -/
theorem fillChannel_eq (c : Side) (s : State) :
    fillChannel c s =
      { s with
        audio := { s.audio with
          rem := if fillFinal s then s.audio.total else s.audio.rem - BitVec.ofNat 32 CAP
          chan := s.audio.chan.set c
            { s.aud c with
              block := Memory.overlay (fillSlots c s) (s.aud c).block
              len := if fillFinal s then BitVec.ofNat 32 (fillCount s) else (s.aud c).len
              raced := (s.aud c).raced || (s.aud c).busy } }
        fault := s.fault ||| (if (s.aud c).busy then 0x02#8 else 0#8) |||
          (if s.audio.volV then 0#8 else 0x20#8) } := by
  have h2 : (1#8 <<< Violation.audOwnership.code) = 0x02#8 := by decide
  have h20 : (1#8 <<< Violation.uninit.code) = 0x20#8 := by decide
  rw [fillChannel]
  simp only [raiseIf_eq, h2, h20, setAud_eq]
  cases s.audio.volV <;> rfl

/-- A fill whose result becomes the channel's termination request (R131, R134). -/
theorem fillAndPropagate_eq (c : Side) (s : State) :
    fillAndPropagate c s =
      { s with
        audio := { s.audio with
          rem := if fillFinal s then s.audio.total else s.audio.rem - BitVec.ofNat 32 CAP
          chan := s.audio.chan.set c
            { s.aud c with
              block := Memory.overlay (fillSlots c s) (s.aud c).block
              len := if fillFinal s then BitVec.ofNat 32 (fillCount s) else (s.aud c).len
              term := fillFinal s
              raced := (s.aud c).raced || (s.aud c).busy } }
        fault := s.fault ||| (if (s.aud c).busy then 0x02#8 else 0#8) |||
          (if s.audio.volV then 0#8 else 0x20#8) } := by
  simp [fillAndPropagate, fillChannel_eq, setAud_eq, aud_eq]

/-- AUD.START up to the priming fills (R131): all it writes. -/
theorem prepareSession_eq (src len prio : Word) (s : State) :
    prepareSession src len prio s =
      { s with
        audio := { s.audio with
          src := src
          total := len
          prio := prio
          rem := len
          chan := ⟨{ s.aud .a with refill := false, term := false, len := BitVec.ofNat 32 CAP },
            { s.aud .b with refill := false, term := false, len := BitVec.ofNat 32 CAP }⟩ }
        fault := s.fault ||| (if s.audioBusy then 0x01#8 else 0#8) } := by
  have h1 : (1#8 <<< Violation.audReconfig.code) = 0x01#8 := by decide
  simp only [prepareSession, raiseIf_eq, h1]
  rfl

/-- A priming or refilling fill, on its own channel. -/
theorem fillAndPropagate_aud (c : Side) (s : State) :
    (fillAndPropagate c s).aud c =
      { s.aud c with
        block := Memory.overlay (fillSlots c s) (s.aud c).block
        len := if fillFinal s then BitVec.ofNat 32 (fillCount s) else (s.aud c).len
        term := fillFinal s
        raced := (s.aud c).raced || (s.aud c).busy } := by
  rw [fillAndPropagate_eq]
  exact Pair.get_set_same _ _ _

/-- A priming or refilling fill leaves the other channel. -/
theorem fillAndPropagate_aud_other (c : Side) (s : State) :
    (fillAndPropagate c s).aud c.other = s.aud c.other := by
  rw [fillAndPropagate_eq]
  exact Pair.get_set_other _ _ _

/-- AUD.START's channel A (R131): primed, armed and triggered. -/
theorem startSession_aud_a (src len prio : Word) (s : State) :
    (startSession src len prio s).aud .a =
      let s1 := prepareSession src len prio s
      { s.aud .a with
        block := Memory.overlay (fillSlots .a s1) (s.aud .a).block
        rd := 0#32
        len := if fillFinal s1 then BitVec.ofNat 32 (fillCount s1) else BitVec.ofNat 32 CAP
        cnt := if (s.aud .a).busy then (s.aud .a).cnt
          else if fillFinal s1 then BitVec.ofNat 32 (fillCount s1) else BitVec.ofNat 32 CAP
        busy := true
        ip := false
        ie := true
        refill := false
        term := fillFinal s1
        raced := (s.aud .a).busy } := by
  have hb : (primeBuffers (prepareSession src len prio s)).aud .a =
      (fillAndPropagate .a (prepareSession src len prio s)).aud .a := fillAndPropagate_aud_other .b _
  rw [fillAndPropagate_aud] at hb
  have ha : (prepareSession src len prio s).aud .a =
      { s.aud .a with refill := false, term := false, len := BitVec.ofNat 32 CAP } := by
    rw [prepareSession_eq]
    rfl
  rw [ha] at hb
  have ht : (startSession src len prio s).aud .a =
      (triggerChannel .a (armChannel .b (armChannel .a (primeBuffers (prepareSession src len prio s))))).aud .a := rfl
  have hr : (armChannel .b (armChannel .a (primeBuffers (prepareSession src len prio s)))).aud .a =
      { (primeBuffers (prepareSession src len prio s)).aud .a with rd := 0#32, ip := false, ie := true } := rfl
  rw [ht, triggerChannel_eq, aud_setAud_same, hr, hb]
  cases (s.aud .a).busy <;> simp

/-- AUD.START's channel B (R131): primed and armed. -/
theorem startSession_aud_b (src len prio : Word) (s : State) :
    (startSession src len prio s).aud .b =
      let s1 := fillAndPropagate .a (prepareSession src len prio s)
      { s.aud .b with
        block := Memory.overlay (fillSlots .b s1) (s.aud .b).block
        rd := 0#32
        len := if fillFinal s1 then BitVec.ofNat 32 (fillCount s1) else BitVec.ofNat 32 CAP
        ip := false
        ie := true
        refill := false
        term := fillFinal s1
        raced := (s.aud .b).raced || (s.aud .b).busy } := by
  have hb : (primeBuffers (prepareSession src len prio s)).aud .b = _ :=
    fillAndPropagate_aud .b (fillAndPropagate .a (prepareSession src len prio s))
  have ho : (fillAndPropagate .a (prepareSession src len prio s)).aud .b =
      (prepareSession src len prio s).aud .b := fillAndPropagate_aud_other .a _
  have ha : (prepareSession src len prio s).aud .b =
      { s.aud .b with refill := false, term := false, len := BitVec.ofNat 32 CAP } := by
    rw [prepareSession_eq]
    rfl
  rw [ho, ha] at hb
  have ht : (startSession src len prio s).aud .b =
      (triggerChannel .a (armChannel .b (armChannel .a (primeBuffers (prepareSession src len prio s))))).aud .b := rfl
  have hr : (armChannel .b (armChannel .a (primeBuffers (prepareSession src len prio s)))).aud .b =
      { (primeBuffers (prepareSession src len prio s)).aud .b with rd := 0#32, ip := false, ie := true } := rfl
  have hx : ∀ u : State, (triggerChannel .a u).aud .b = u.aud .b := fun u => by
    rw [triggerChannel_eq]
    rfl
  rw [ht, hx, hr, hb]

/-- AUD.START, all but the two channels (R131): the session registers and the fault bits. -/
theorem startSession_eq (src len prio : Word) (s : State) :
    startSession src len prio s =
      { s with
        audio := { s.audio with
          src := src
          total := len
          prio := prio
          rem := (primeBuffers (prepareSession src len prio s)).audio.rem
          playing := true
          chan := (startSession src len prio s).audio.chan }
        fault := s.fault ||| (if s.audioBusy then 0x03#8 else 0#8) ||| (if s.audio.volV then 0#8 else 0x20#8)
        draws := s.draws + 1 } := by
  have hf : (primeBuffers (prepareSession src len prio s)).fault =
      s.fault ||| (if s.audioBusy then 0x03#8 else 0#8) ||| (if s.audio.volV then 0#8 else 0x20#8) := by
    have key : ∀ (v a b : Bool) (x : BitVec 8),
        (((((x ||| if (a || b) = true then 1#8 else 0#8) ||| if a = true then 2#8 else 0#8) |||
          if v = true then 0#8 else 32#8) ||| if b = true then 2#8 else 0#8) |||
          if v = true then 0#8 else 32#8) =
        (x ||| if (a || b) = true then 3#8 else 0#8) ||| if v = true then 0#8 else 32#8 := by decide +kernel
    rw [primeBuffers, fillAndPropagate_eq .b, fillAndPropagate_eq .a, prepareSession_eq]
    exact key _ _ _ _
  have hp : primeBuffers (prepareSession src len prio s) =
      { s with
        audio := { s.audio with
          src := src
          total := len
          prio := prio
          rem := (primeBuffers (prepareSession src len prio s)).audio.rem
          chan := (primeBuffers (prepareSession src len prio s)).audio.chan }
        fault := (primeBuffers (prepareSession src len prio s)).fault } := by
    rw [primeBuffers, fillAndPropagate_eq .b, fillAndPropagate_eq .a, prepareSession_eq]
  have hs : startSession src len prio s =
      { primeBuffers (prepareSession src len prio s) with
        audio := { (primeBuffers (prepareSession src len prio s)).audio with
          playing := true
          chan := (startSession src len prio s).audio.chan }
        draws := (primeBuffers (prepareSession src len prio s)).draws + 1 } := by
    have ht : ∀ u : State, (setPlaying true (triggerChannel .a (armChannel .b (armChannel .a u)))).spend =
        { u with
          audio := { u.audio with
            playing := true
            chan := (setPlaying true (triggerChannel .a (armChannel .b (armChannel .a u)))).spend.audio.chan }
          draws := u.draws + 1 } := fun u => by
      rw [triggerChannel_eq]
      rfl
    exact ht _
  rw [← hf]
  generalize hch : (startSession src len prio s).audio.chan = ch at hs
  generalize primeBuffers (prepareSession src len prio s) = u at hp hs
  rw [hs, hp]

/-- AUD.SVC with a refill asked for (R134). -/
theorem serviceChannel_pending {c : Side} {s : State} (h : (s.aud c).refill = true) :
    serviceChannel c s = (fillAndPropagate c (s.setAud c { s.aud c with refill := false })).spend := by
  simp [serviceChannel, h]

/-- AUD.SVC with none (R134). -/
theorem serviceChannel_idle {c : Side} {s : State} (h : (s.aud c).refill = false) : serviceChannel c s = s := by
  simp [serviceChannel, h]

/-- AUD.SERVICE (R133): which of its two steps a turn takes. -/
theorem serviceStep_cases (s : State) :
    (s.audio.midService = false ∧ serviceStep s = setMidService true (serviceChannel .a s)) ∨
    (s.audio.midService = true ∧ serviceStep s = setMidService false (serviceChannel .b s)) := by
  cases h : s.audio.midService <;> simp [serviceStep, h]

/-- A service of one buffer neither reads nor writes CTX_A's position. -/
theorem serviceChannel_setMidService (c : Side) (b : Bool) (s : State) :
    serviceChannel c (setMidService b s) = setMidService b (serviceChannel c s) := by
  cases h : (s.aud c).refill
  · rw [serviceChannel_idle h, serviceChannel_idle (by simpa using h)]
  · rw [serviceChannel_pending h, serviceChannel_pending (by simpa using h), fillAndPropagate_eq, fillAndPropagate_eq]
    rfl

/-- A service of one buffer leaves CTX_A's position. -/
@[simp] theorem serviceChannel_midService (c : Side) (s : State) :
    (serviceChannel c s).audio.midService = s.audio.midService := by
  cases h : (s.aud c).refill
  · rw [serviceChannel_idle h]
  · rw [serviceChannel_pending h, fillAndPropagate_eq]
    rfl

/-- No position keeps `i` waiting: what that says of the state (R224, R133, R231). -/
theorem held_eq_false {i : Instr} {s : State} :
    held i s = false ↔
      (i.isComputeOp = true → s.xc.pst = .idle) ∧
      (i.place = .compute ∨ i.place = .submit → s.audio.midService = false) ∧
      (i.place = .poll → s.params.engineAlone = true) := by
  simp only [held, heldByCall, heldByService, heldByConsumer, Bool.or_eq_false_iff, Bool.and_eq_false_imp,
    Bool.not_eq_false', decide_eq_true_eq, Bool.not_eq_true', and_assoc]
  cases s.audio.midService <;> cases s.params.engineAlone <;> simp

/-- AUD.BEAT (R140): all it writes. -/
theorem beatChannel_eq (c : Side) (s : State) :
    beatChannel c s =
      { s with
        audio := { s.audio with
          pwm := pwmValue (beatLevel c s) (raiseIf (!decide ((s.aud c).rd.toNat < CAP)) .audOverrun s)
          trace := s.audio.trace ++
            [pwmValue (beatLevel c s) (raiseIf (!decide ((s.aud c).rd.toNat < CAP)) .audOverrun s)]
          chan := s.audio.chan.set c
            { s.aud c with rd := (s.aud c).rd + 1#32, cnt := (s.aud c).cnt - 1#32 } }
        fault := s.fault ||| (if (s.aud c).rd.toNat < CAP then 0#8 else 0x04#8)
        draws := s.draws + 1 } := by
  have h4 : (1#8 <<< Violation.audOverrun.code) = 0x04#8 := by decide
  simp only [beatChannel, pwmOut_eq, setAud_eq, raiseIf_eq, h4]
  by_cases h : (s.aud c).rd.toNat < CAP
  · rw [if_pos h, if_neg (by simp [h])]; rfl
  · rw [if_neg h, if_pos (by simp [h])]; rfl

/-! ## Filling: what the slots hold -/

theorem wf_fillSlots (c : Side) (s : State) : Memory.wf (fillSlots c s) := wf_map_range _ _

theorem below_fillSlots (c : Side) (s : State) : Memory.below CAP (fillSlots c s) := by
  intro e he
  obtain ⟨i, hi, rfl⟩ := List.mem_map.1 he
  have := List.mem_range.1 hi
  simp only [fillCount] at this
  simp only
  omega

theorem read?_fillSlots (c : Side) (s : State) (i : Nat) :
    Memory.read? (fillSlots c s) i = if i < fillCount s then some (fillLevel c s i) else none :=
  read?_map_range _ _ _

theorem fillCount_le (s : State) : fillCount s ≤ CAP := Nat.min_le_right _ _

theorem fillCount_toNat (s : State) : (BitVec.ofNat 32 (fillCount s)).toNat = fillCount s := by
  have : fillCount s ≤ 1024 := fillCount_le s
  rw [BitVec.toNat_ofNat]
  omega

/-! ## Display -/

theorem wf_renderedLine (s : State) : Memory.wf (renderedLine s) := by
  have := wf_filterMap_range s.params.lineW fun d =>
    (hmap s.params d).map fun x => mapColour s d (rowByte s d x)
  simp only [Option.map_map] at this
  exact this

theorem read?_renderedLine (s : State) (d : Nat) :
    Memory.read? (renderedLine s) d =
      if d < s.params.lineW then (hmap s.params d).map fun x => mapColour s d (rowByte s d x) else none := by
  have := read?_filterMap_range s.params.lineW
    (fun d => (hmap s.params d).map fun x => mapColour s d (rowByte s d x)) d
  simp only [Option.map_map] at this
  exact this

theorem below_renderedLine (s : State) : Memory.below s.params.lineW (renderedLine s) := by
  intro e he
  simp only [renderedLine, List.mem_filterMap, List.mem_range, Option.map_eq_some_iff] at he
  obtain ⟨d, hd, x, _, rfl⟩ := he
  exact hd

/-- DSP.POLL.RR (R190): all it writes. -/
theorem renderRow_eq (s : State) :
    renderRow s =
      { s with
        disp := { s.disp with
          rs := .waitDma
          line := s.disp.line.set s.disp.fillSlot
            (Memory.overlay (renderedLine s) (s.disp.line.get s.disp.fillSlot))
          chan := ⟨{ s.dsp .a with raced := (s.dsp .a).raced || readsFillTarget .a s },
            { s.dsp .b with raced := (s.dsp .b).raced || readsFillTarget .b s }⟩ }
        fault := s.fault |||
          (if readsFillTarget .a s || readsFillTarget .b s then 0x08#8 else 0#8) |||
          (if rendersUnwritten s then 0x20#8 else 0#8)
        draws := s.draws + 1 } := by
  have h8 : (1#8 <<< Violation.dspParity.code) = 0x08#8 := by decide
  have h20 : (1#8 <<< Violation.uninit.code) = 0x20#8 := by decide
  simp only [renderRow, markRaced, raiseIf_eq, h8, h20]
  rfl

/-- DSP.ISSUE (R192): all it writes. -/
theorem issueLine_eq (s : State) :
    issueLine s =
      { s with
        disp := { s.disp with
          dCh := s.disp.dCh.other
          fillSlot := s.disp.fillSlot.other
          chan := s.disp.chan.set s.disp.dCh.other
            { busy := true, src := s.disp.fillSlot, pos := 0#16, raced := false } }
        fault := s.fault ||| (if (s.dsp s.disp.dCh.other).busy then 0x08#8 else 0#8) } := by
  have h8 : (1#8 <<< Violation.dspParity.code) = 0x08#8 := by decide
  simp only [issueLine, raiseIf_eq, h8]
  rfl

/-- DSP.POLL.SF with the previous channel idle (R189). -/
theorem pollStartFrame_idle {s : State} (h : (s.dsp s.disp.dCh).busy = false) :
    pollStartFrame s = { s with disp := { s.disp with
      trace := s.disp.trace ++ [.frameWindow, .ramWrite], row := 0#16, rs := .renderRow } } := by
  simp [pollStartFrame, lineChannelIdle, h, panelOut_eq]

/-- DSP.POLL.SF with the previous channel busy (R189). -/
theorem pollStartFrame_busy {s : State} (h : (s.dsp s.disp.dCh).busy = true) : pollStartFrame s = s := by
  simp [pollStartFrame, lineChannelIdle, h]

/-- DSP.POLL.WD with the previous channel idle (R191). -/
theorem pollWaitDma_idle {s : State} (h : (s.dsp s.disp.dCh).busy = false) :
    pollWaitDma s = countRow (issueLine s) := by
  simp [pollWaitDma, lineChannelIdle, h]

/-- DSP.POLL.WD with the previous channel busy (R191). -/
theorem pollWaitDma_busy {s : State} (h : (s.dsp s.disp.dCh).busy = true) : pollWaitDma s = s := by
  simp [pollWaitDma, lineChannelIdle, h]

/-- DSP.BEAT (R193): all it writes. -/
theorem sendPixel_eq (k : Side) (s : State) :
    sendPixel k s =
      { s with
        disp := { s.disp with
          trace := s.disp.trace ++ [.pix k (beatPixel k s)]
          chan := s.disp.chan.set k { s.dsp k with pos := (s.dsp k).pos + 1#16 } }
        draws := s.draws + 1 } := rfl

theorem finishLine_eq (k : Side) (s : State) :
    finishLine k s = s.setDsp k { s.dsp k with busy := false } := rfl

/-! ## Dispatcher -/

/-- The `PAL_V` bits of the first `n` entries: bit `j` for `j < n`. -/
theorem getLsbD_firstEntries {n : Nat} (hn : n ≤ 16) (j : Nat) :
    (firstEntries n).getLsbD j = decide (j < n) := by
  rw [firstEntries, BitVec.getLsbD_ofNat, Nat.testBit_two_pow_sub_one]
  by_cases h : j < n
  · simp [h]; omega
  · simp [h]

/-- XC.POP of a word (R228). -/
theorem popCommand_cons {w : Word} {ws : List Word} {s : State} (h : s.xc.fifo = w :: ws) :
    popCommand s = runCommand w { s with xc := { s.xc with fifo := ws } } := by
  simp [popCommand, h, fifoDequeue_eq]

/-- Drawing the last line of a command (R229). -/
theorem countLine_last {s : State} (h : s.xc.cLeft = 1#2) :
    countLine s = { s with xc := { s.xc with cLeft := 0#2, lineBusy := false, cst := .pop } } := by
  simp [countLine, h]

/-- Drawing a line that is not the last (R229). -/
theorem countLine_more {s : State} (h : s.xc.cLeft ≠ 1#2) :
    countLine s = { s with xc := { s.xc with cLeft := s.xc.cLeft - 1#2 } } := by
  have : s.xc.cLeft - 1#2 ≠ 0#2 := by
    revert h
    generalize s.xc.cLeft = x
    revert x
    decide
  simp [countLine, this]

/-- XC.DRIVE when the poll issues a transfer (R229). -/
theorem driveEngine_issue {s : State} (hr : s.disp.rs = .waitDma) (h : (s.dsp s.disp.dCh).busy = false) :
    driveEngine s = countLine (pollWaitDma s) := by
  simp [driveEngine, willIssue, lineChannelIdle, hr, h, poll]

/-- XC.DRIVE when it does not (R229). -/
theorem driveEngine_poll {s : State} (h : ¬ (s.disp.rs = .waitDma ∧ (s.dsp s.disp.dCh).busy = false)) :
    driveEngine s = poll s := by
  have : willIssue s = false := by
    simp only [willIssue, lineChannelIdle, Bool.and_eq_false_iff, decide_eq_false_iff_not]
    by_cases hr : s.disp.rs = .waitDma
    · right
      simp only [hr, true_and, Bool.not_eq_false] at h
      simp [h]
    · exact .inl hr
  simp [driveEngine, this]

/-! ## Memory outside the block -/

/-- A producer's write keeps the canonical form (R74). -/
theorem wf_produceBytes {s : State} (addr : Nat) (bytes : List Byte) (h : Memory.wf s.srcMem) :
    Memory.wf (produceBytes addr bytes s).srcMem := wf_overlay (wf_listing _ _) h

/-- A fill keeps the canonical form of its SampleBlock. -/
theorem wf_fillChannel {c : Side} {s : State} (h : Memory.wf (s.aud c).block) :
    Memory.wf ((fillChannel c s).aud c).block := by
  simp only [fillChannel_eq, aud_eq, Pair.get_set_same]
  exact wf_overlay (wf_fillSlots c s) h

/-- RenderRow keeps the canonical form of its ScanlineBuffer. -/
theorem wf_renderRow {s : State} (h : Memory.wf (s.disp.line.get s.disp.fillSlot)) :
    Memory.wf ((renderRow s).disp.line.get s.disp.fillSlot) := by
  simp only [renderRow_eq, Pair.get_set_same]
  exact wf_overlay (wf_renderedLine s) h

/-- XC.SUBMIT.ACQ keeps the canonical form of the row buffer and the palette. -/
theorem wf_acquireLine {s : State} (hr : Memory.wf s.xc.rowbuf) (hp : Memory.wf s.xc.pal) :
    Memory.wf (acquireLine s).xc.rowbuf ∧ Memory.wf (acquireLine s).xc.pal :=
  ⟨wf_overlay (wf_listing _ _) hr, wf_overlay (wf_listing _ _) hp⟩

/-- Every memory at reset is in canonical form. -/
theorem wf_reset (p : Params) :
    Memory.wf (State.resetWith p).srcMem ∧ (∀ c, Memory.wf ((State.resetWith p).aud c).block) ∧
      (∀ k, Memory.wf ((State.resetWith p).disp.line.get k)) ∧
      Memory.wf (State.resetWith p).xc.rowbuf ∧ Memory.wf (State.resetWith p).xc.pal := by
  refine ⟨List.Pairwise.nil, fun c => ?_, fun k => ?_, List.Pairwise.nil, List.Pairwise.nil⟩
  · cases c <;> exact List.Pairwise.nil
  · cases k <;> exact List.Pairwise.nil

/-! ## Steps -/

/-- An operation once enabled has its effect. -/
theorem unlessReady_true {f : State → State} {s : State} {b : Bool} (h : b = true) :
    unlessReady b f s = .next (f s) := by
  simp [unlessReady, h]

/-- An operation not enabled leaves the state. -/
theorem unlessReady_false {f : State → State} {s : State} {b : Bool} (h : b = false) :
    unlessReady b f s = .next s := by
  simp [unlessReady, h]

/-- All that `unlessReady` can answer. -/
theorem unlessReady_next {b : Bool} {f : State → State} {s t : State} (h : unlessReady b f s = .next t) :
    (b = true ∧ t = f s) ∨ (b = false ∧ t = s) := by
  cases b
  · simp only [unlessReady, Bool.false_eq_true, if_false, Host.Outcome.next.injEq] at h
    exact .inr ⟨rfl, h.symm⟩
  · simp only [unlessReady, if_true, Host.Outcome.next.injEq] at h
    exact .inl ⟨rfl, h.symm⟩

/-- All that a turn can answer: the producer's write, an agent kept in its place, or the decoded instruction's
effect. -/
theorem step_next {s t : State} (h : step s = .next t) :
    (s.schedule = [] ∧ t = s) ∨
    (∃ addr bytes ts, s.schedule = .produce addr bytes :: ts ∧
      t = produceBytes addr bytes { s with schedule := ts }) ∨
    (∃ bytes ts i rest, s.schedule = .act bytes :: ts ∧ decodeStep s.params.srcW bytes = .ok (i, rest) ∧
      ((held i { s with schedule := ts } = true ∧ t = { s with schedule := ts }) ∨
        (held i { s with schedule := ts } = false ∧ exec i { s with schedule := ts } = .next t))) := by
  simp only [step, runTurn] at h
  split at h
  · rename_i hs
    simp only [Host.Outcome.next.injEq] at h
    exact .inl ⟨hs, h.symm⟩
  · rename_i u ts hs
    cases u with
    | produce addr bytes =>
      simp only [takeTurn, Host.Outcome.next.injEq] at h
      exact .inr (.inl ⟨addr, bytes, ts, hs, h.symm⟩)
    | act bytes =>
      simp only [takeTurn] at h
      split at h
      · rename_i i rest hd
        refine .inr (.inr ⟨bytes, ts, i, rest, hs, hd, ?_⟩)
        simp only [takeStep] at h
        split at h
        · rename_i hh
          simp only [Host.Outcome.next.injEq] at h
          exact .inl ⟨hh, h.symm⟩
        · rename_i hh
          exact .inr ⟨by simpa using hh, h⟩
      · rename_i e _
        cases e <;> simp [stopFor] at h

end Sys2Proof.Machine
end

