-- ==== Sys2Proof/Laws/Exec.lean ====
section
/-! SUPPORT. What `exec` can do, once for all rows: it always answers a next state, and a relation that every
operation's effect meets holds between a state and the state any instruction answers. -/

namespace Sys2Proof.Machine

theorem unlessReady_eq (b : Bool) (f : State → State) (s : State) :
    unlessReady b f s = .next (if b then f s else s) := by cases b <;> rfl

/-- No instruction stops (R250): `exec` always answers a next state. -/
theorem exec_next (i : Instr) (s : State) : ∃ t, exec i s = .next t := by
  cases i
  case fifoPop =>
    simp only [exec, execFifoPop]
    split <;> exact ⟨_, rfl⟩
  all_goals first
    | exact ⟨_, rfl⟩
    | exact ⟨_, unlessReady_eq _ _ _⟩

/-- A reflexive and transitive relation on states that every effect meets, each under the condition its rule gives,
holds between a state and what any instruction answers from it. -/
theorem exec_rel (R : State → State → Prop) (refl : ∀ s, R s s)
    (trans : ∀ s t u, R s t → R t u → R s u)
    (start : ∀ src len prio s, R s (startSession src len prio s))
    (stop : ∀ s, R s (hardStop s))
    (service : ∀ c s, R s (serviceChannel c s))
    (position : ∀ b s, R s (setMidService b s))
    (setVolume : ∀ v s, R s { s with audio := { s.audio with vol := v, volV := true } })
    (fill : ∀ c s, R s ({ fillChannel c s with ret := .final (fillFinal s) }).spend)
    (beat : ∀ c s, beatReady c s = true → R s (beatChannel c s))
    (done : ∀ c s, doneReady c s = true → R s (completeChannel c s))
    (irq : ∀ c s, irqReady c s = true → R s (takeCompletion c s))
    (abort : ∀ c s, R s (abortChannel c s))
    (trigger : ∀ c s, R s (triggerChannel c s))
    (request : ∀ s, R s { s with disp := { s.disp with frameReq := true } })
    (waitFrame : ∀ s, s.disp.rs = .waitFrame → R s (pollWaitFrame s))
    (startFrame : ∀ s, s.disp.rs = .startFrame → R s (pollStartFrame s))
    (row : ∀ s, s.disp.rs = .renderRow → R s (renderRow s))
    (waitDma : ∀ s, s.disp.rs = .waitDma → R s (pollWaitDma s))
    (pixel : ∀ k s, pixelReady k s = true → R s (sendPixel k s))
    (lineDone : ∀ k s, lineDoneReady k s = true → R s (finishLine k s))
    (map : ∀ p s, R s ({ raiseIf (!paletteValid s p) .uninit s with ret := .colour (mapColour s 0 p) }).spend)
    (issue : ∀ s, R s (issueLine s))
    (call : ∀ r pixels palette s, R s (beginCall r pixels palette s))
    (acquire : ∀ s, acquireReady s = true → R s (acquireLine s))
    (push : ∀ s, pushReady s = true → R s (pushLine s))
    (pushNop : ∀ s, pushNopReady s = true → R s (fifoEnqueue (encodeCommand .nop) s))
    (pop : ∀ s, popReady s = true → R s (popCommand s))
    (drive : ∀ s, driveReady s = true → R s (driveEngine s))
    (enqueue : ∀ w s, s.fifoFull = false → R s (fifoEnqueue w s))
    (dequeue : ∀ w s, s.fifoEmpty = false → R s { fifoDequeue s with ret := .word w })
    (draw : ∀ r s, R s (beginDraw r s))
    (answer : ∀ r s, R s { s with ret := r }) :
    ∀ i s t, exec i s = .next t → R s t := by
  intro i s t h
  have ready : ∀ (b : Bool) (f : State → State), unlessReady b f s = .next t → (b = true → R s (f s)) → R s t := by
    intro b f h hb
    rcases unlessReady_next h with ⟨h1, rfl⟩ | ⟨_, rfl⟩
    · exact hb h1
    · exact refl _
  cases i <;> simp only [exec] at h
  case audStart => cases h; exact start ..
  case audStop => cases h; exact stop ..
  case audService =>
    cases h
    rcases serviceStep_cases s with ⟨_, e⟩ | ⟨_, e⟩ <;> rw [e]
    · exact trans _ _ _ (service .a s) (position _ _)
    · exact trans _ _ _ (service .b s) (position _ _)
  case audSetvol => cases h; exact setVolume ..
  case dspFramereq => cases h; exact request ..
  case xcSubmitCall => cases h; exact call ..
  case xcSubmitAcq => exact ready _ _ h (acquire s)
  case xcSubmitPush => exact ready _ _ h (push s)
  case xcPushnop => exact ready _ _ h (pushNop s)
  case xcPop => exact ready _ _ h (pop s)
  case xcDrive => exact ready _ _ h (drive s)
  case dspPollWf => exact ready _ _ h fun e => waitFrame s (of_decide_eq_true e)
  case dspPollSf => exact ready _ _ h fun e => startFrame s (of_decide_eq_true e)
  case dspPollRr => exact ready _ _ h fun e => row s (of_decide_eq_true e)
  case dspPollWd => exact ready _ _ h fun e => waitDma s (of_decide_eq_true e)
  case audFill => cases h; exact fill ..
  case audMix => cases h; exact answer ..
  case audBeat c => exact ready _ _ h (beat c s)
  case audDone c => exact ready _ _ h (done c s)
  case audIrq c => exact ready _ _ h (irq c s)
  case audAbort => cases h; exact abort ..
  case audTrigger => cases h; exact trigger ..
  case audSvc => cases h; exact service ..
  case dspBeat k => exact ready _ _ h (pixel k s)
  case dspDone k => exact ready _ _ h (lineDone k s)
  case dspMap => cases h; exact map ..
  case dspHmap => cases h; exact answer ..
  case dspIssue => cases h; exact issue ..
  case fifoPush w => exact ready _ _ h fun e => enqueue w s (by simpa using e)
  case fifoPop =>
    simp only [execFifoPop] at h
    split at h
    · cases h; exact refl _
    · cases h; exact dequeue _ _ (by simp [State.fifoEmpty, *])
  case nop => cases h; exact refl _
  case drawline => cases h; exact draw ..

/-- The same for the rows some agent takes as steps (R117), without the micro-operations. -/
theorem exec_step_rel (R : State → State → Prop) (refl : ∀ s, R s s)
    (trans : ∀ s t u, R s t → R t u → R s u)
    (start : ∀ src len prio s, R s (startSession src len prio s))
    (stop : ∀ s, R s (hardStop s))
    (service : ∀ c s, R s (serviceChannel c s))
    (position : ∀ b s, R s (setMidService b s))
    (setVolume : ∀ v s, R s { s with audio := { s.audio with vol := v, volV := true } })
    (beat : ∀ c s, beatReady c s = true → R s (beatChannel c s))
    (done : ∀ c s, doneReady c s = true → R s (completeChannel c s))
    (irq : ∀ c s, irqReady c s = true → R s (takeCompletion c s))
    (request : ∀ s, R s { s with disp := { s.disp with frameReq := true } })
    (waitFrame : ∀ s, s.disp.rs = .waitFrame → R s (pollWaitFrame s))
    (startFrame : ∀ s, s.disp.rs = .startFrame → R s (pollStartFrame s))
    (row : ∀ s, s.disp.rs = .renderRow → R s (renderRow s))
    (waitDma : ∀ s, s.disp.rs = .waitDma → R s (pollWaitDma s))
    (pixel : ∀ k s, pixelReady k s = true → R s (sendPixel k s))
    (lineDone : ∀ k s, lineDoneReady k s = true → R s (finishLine k s))
    (call : ∀ r pixels palette s, R s (beginCall r pixels palette s))
    (acquire : ∀ s, acquireReady s = true → R s (acquireLine s))
    (push : ∀ s, pushReady s = true → R s (pushLine s))
    (pushNop : ∀ s, pushNopReady s = true → R s (fifoEnqueue (encodeCommand .nop) s))
    (pop : ∀ s, popReady s = true → R s (popCommand s))
    (drive : ∀ s, driveReady s = true → R s (driveEngine s)) :
    ∀ i s t, i.isStep = true → exec i s = .next t → R s t := by
  intro i s t hi h
  have ready : ∀ (b : Bool) (f : State → State), unlessReady b f s = .next t → (b = true → R s (f s)) → R s t := by
    intro b f h hb
    rcases unlessReady_next h with ⟨h1, rfl⟩ | ⟨_, rfl⟩
    · exact hb h1
    · exact refl _
  cases i <;> simp only [Instr.isStep, Instr.kind, Bool.false_eq_true] at hi <;> simp only [exec] at h
  case audStart => cases h; exact start ..
  case audStop => cases h; exact stop ..
  case audService =>
    cases h
    rcases serviceStep_cases s with ⟨_, e⟩ | ⟨_, e⟩ <;> rw [e]
    · exact trans _ _ _ (service .a s) (position _ _)
    · exact trans _ _ _ (service .b s) (position _ _)
  case audSetvol => cases h; exact setVolume ..
  case dspFramereq => cases h; exact request ..
  case xcSubmitCall => cases h; exact call ..
  case xcSubmitAcq => exact ready _ _ h (acquire s)
  case xcSubmitPush => exact ready _ _ h (push s)
  case xcPushnop => exact ready _ _ h (pushNop s)
  case xcPop => exact ready _ _ h (pop s)
  case xcDrive => exact ready _ _ h (drive s)
  case dspPollWf => exact ready _ _ h fun e => waitFrame s (of_decide_eq_true e)
  case dspPollSf => exact ready _ _ h fun e => startFrame s (of_decide_eq_true e)
  case dspPollRr => exact ready _ _ h fun e => row s (of_decide_eq_true e)
  case dspPollWd => exact ready _ _ h fun e => waitDma s (of_decide_eq_true e)
  case audBeat c => exact ready _ _ h (beat c s)
  case audDone c => exact ready _ _ h (done c s)
  case audIrq c => exact ready _ _ h (irq c s)
  case audSvc => cases h; exact service ..
  case dspBeat k => exact ready _ _ h (pixel k s)
  case dspDone k => exact ready _ _ h (lineDone k s)

/-- A scheduled turn's instruction is a step some agent takes. -/
theorem isStep_of_scheduled {s : State} {bytes rest : List Byte} {ts : List Turn} {i : Instr}
    (hn : s.nextScheduled = true) (hs : s.schedule = .act bytes :: ts)
    (hd : decodeStep s.params.srcW bytes = .ok (i, rest)) : i.isStep = true := by
  simpa [State.nextScheduled, hs, Turn.scheduled, hd] using hn

/-- Which poll issues a transfer (R229). -/
theorem willIssue_eq_true {s : State} :
    willIssue s = true ↔ s.disp.rs = .waitDma ∧ (s.dsp s.disp.dCh).busy = false := by
  simp [willIssue, lineChannelIdle]

/-- DSP.DRIVELINE stops with the poll that issues (R116). -/
theorem driveLine_issue {s : State} (n : Nat) (h : willIssue s = true) : driveLine (n + 1) s = poll s := by
  simp [driveLine, h]

/-- DSP.DRIVELINE goes on after a poll that does not (R116). -/
theorem driveLine_wait {s : State} (n : Nat) (h : willIssue s = false) :
    driveLine (n + 1) s = driveLine n (poll s) := by
  simp [driveLine, h]

/-- A list of instructions always runs to a next state. -/
theorem execAll_next (is : List Instr) (s : State) : ∃ t, execAll is s = .next t := by
  induction is generalizing s with
  | nil => exact ⟨s, rfl⟩
  | cons i is ih =>
    obtain ⟨u, hu⟩ := exec_next i s
    obtain ⟨t, ht⟩ := ih u
    exact ⟨t, by simp only [execAll, hu, ht]⟩

/-- Running two lists, one after the other. -/
theorem execAll_append {is js : List Instr} {s u : State} (h : execAll is s = .next u) :
    execAll (is ++ js) s = execAll js u := by
  induction is generalizing s with
  | nil => cases h; rfl
  | cons i is ih =>
    obtain ⟨t, ht⟩ := exec_next i s
    simp only [execAll, List.cons_append, ht] at h ⊢
    exact ih h

end Sys2Proof.Machine
end

