-- ==== Sys2Proof/Laws/PerInstr.lean ====
section
/-! SUPPORT. A fact about every instruction as syntax, one lemma per constructor: its label, if it has one, is a word
of a row of the table (30_encoding R117). -/

namespace Sys2Proof.Laws.LabelInTable

/-- The label of `i`, if it has one, matches a row of opcode_table.json. -/
def Statement (i : Instr) : Prop := ∀ l, i.label = some l → ∃ r ∈ stepRows, l &&& r.2 = r.1

/-- A label in the table makes the statement of its instruction. -/
theorem of_label {i : Instr} {l : Half} (h : i.label = some l)
    (hl : (stepRows.any fun r => l &&& r.2 == r.1) = true) : Statement i := by
  intro l' h'
  obtain rfl : l = l' := by rw [h] at h'; exact Option.some.inj h'
  simpa using hl

theorem audStart (src len prio : Word) : Statement (.audStart src len prio) := of_label rfl (by decide)

theorem audStop : Statement .audStop := of_label rfl (by decide)

theorem audService : Statement .audService := of_label rfl (by decide)

theorem audSetvol (vol : Half) : Statement (.audSetvol vol) := of_label rfl (by decide)

theorem dspFramereq : Statement .dspFramereq := of_label rfl (by decide)

theorem xcSubmitCall (row : Byte) (pixels : List Byte) (palette : List Half) : Statement (.xcSubmitCall row pixels palette) := of_label rfl (by decide)

theorem xcSubmitAcq : Statement .xcSubmitAcq := of_label rfl (by decide)

theorem xcSubmitPush : Statement .xcSubmitPush := of_label rfl (by decide)

theorem xcPushnop : Statement .xcPushnop := of_label rfl (by decide)

theorem xcPop : Statement .xcPop := of_label rfl (by decide)

theorem xcDrive : Statement .xcDrive := of_label rfl (by decide)

theorem dspPollWf : Statement .dspPollWf := of_label rfl (by decide)

theorem dspPollSf : Statement .dspPollSf := of_label rfl (by decide)

theorem dspPollRr : Statement .dspPollRr := of_label rfl (by decide)

theorem dspPollWd : Statement .dspPollWd := of_label rfl (by decide)

theorem audFill (c : Side) : Statement (.audFill c) := by
  cases c <;> exact of_label rfl (by decide)

theorem audMix (x y vol : Half) : Statement (.audMix x y vol) := of_label rfl (by decide)

theorem audBeat (c : Side) : Statement (.audBeat c) := by
  cases c <;> exact of_label rfl (by decide)

theorem audDone (c : Side) : Statement (.audDone c) := by
  cases c <;> exact of_label rfl (by decide)

theorem audIrq (c : Side) : Statement (.audIrq c) := by
  cases c <;> exact of_label rfl (by decide)

theorem audAbort (c : Side) : Statement (.audAbort c) := by
  cases c <;> exact of_label rfl (by decide)

theorem audTrigger (c : Side) : Statement (.audTrigger c) := by
  cases c <;> exact of_label rfl (by decide)

theorem audSvc (c : Side) : Statement (.audSvc c) := by
  cases c <;> exact of_label rfl (by decide)

theorem dspBeat (k : Side) : Statement (.dspBeat k) := by
  cases k <;> exact of_label rfl (by decide)

theorem dspDone (k : Side) : Statement (.dspDone k) := by
  cases k <;> exact of_label rfl (by decide)

theorem dspMap (p : Byte) : Statement (.dspMap p) := of_label rfl (by decide)

theorem dspHmap (d : Half) : Statement (.dspHmap d) := of_label rfl (by decide)

theorem dspIssue : Statement .dspIssue := of_label rfl (by decide)

theorem fifoPush (w : Word) : Statement (.fifoPush w) := of_label rfl (by decide)

theorem fifoPop : Statement .fifoPop := of_label rfl (by decide)

theorem nop : Statement .nop :=
  fun _ h => nomatch h

theorem drawline (row : Byte) : Statement (.drawline row) :=
  fun _ h => nomatch h

end Sys2Proof.Laws.LabelInTable
end

