-- ==== Sys2Proof/Tests/Slice0.lean ====
section
/-! SUPPORT. The model's own tests: the checks of WellFormed, the decoding of words written out from the spec's
tables, one step of each instruction against a vector of 95_test_vectors, and for every statement with hypotheses a
state and operands that meet them. Expected values are the spec's (the vector's id stands in each name or comment). -/

namespace Sys2Proof.Tests

open Sys2Proof Sys2Proof.Machine

/-! ## WellFormed -/

def pixels4 : List Byte := [0x20#8, 0x21#8, 0x22#8, 0x23#8]

/-- Palette Q of 95_test_vectors 2.5. -/
def paletteQ : List Half :=
  [0x0000#16, 0x1111#16, 0x2222#16, 0x3333#16, 0x4444#16, 0x5555#16] ++
  [0x6666#16, 0x7777#16, 0x8888#16, 0x9999#16, 0xAAAA#16, 0xBBBB#16]

/-- A palette with the fourth group (V-S6). -/
def palette16 : List Half := paletteQ ++ [0xC0C0#16, 0xD0D0#16, 0xE0E0#16, 0xF0F0#16]

theorem test_wf_call : (Instr.xcSubmitCall 5#8 pixels4 paletteQ).wf 4 = true := by decide
theorem test_wf_call_fourth_group : (Instr.xcSubmitCall 5#8 pixels4 palette16).wf 4 = true := by decide
theorem test_wf_refuses_short_row : (Instr.xcSubmitCall 5#8 [0x20#8] paletteQ).wf 4 = false := by decide
theorem test_wf_refuses_short_palette : (Instr.xcSubmitCall 5#8 pixels4 [0#16]).wf 4 = false := by decide
theorem test_wfPalette_refuses_13 : wfPalette (0#16 :: paletteQ) = false := by decide
theorem test_wfPixels_refuses_5 : wfPixels 4 (0#8 :: pixels4) = false := by decide

/-! ## Decoding words written out from R102, R104 and R117 -/

theorem test_decode_audio_core :
    [0x0001, 0x0002, 0x0003, 0x0004, 0x0027, 0x0127].map (decodeTableWord 16) =
      [some (.audStart 0#32 0#32 0#32), some .audStop, some .audService, some (.audSetvol 0#16),
        some (.audSvc .a), some (.audSvc .b)] := by decide

theorem test_decode_audio_hardware :
    [0x0020, 0x0021, 0x0122, 0x0023, 0x0124, 0x0025, 0x0126].map (decodeTableWord 16) =
      [some (.audFill .a), some (.audMix 0#16 0#16 0#16), some (.audBeat .b), some (.audDone .a),
        some (.audIrq .b), some (.audAbort .a), some (.audTrigger .b)] := by decide

theorem test_decode_display :
    [0x0005, 0x0012, 0x0112, 0x0212, 0x0312, 0x0130, 0x0031, 0x0032, 0x0033, 0x0034].map (decodeTableWord 16) =
      [some .dspFramereq, some .dspPollWf, some .dspPollSf, some .dspPollRr, some .dspPollWd,
        some (.dspBeat .b), some (.dspDone .a), some (.dspMap 0#8), some (.dspHmap 0#16), some .dspIssue] := by
  decide

theorem test_decode_dispatcher :
    [0x0106, 0x0206, 0x0007, 0x0010, 0x0011, 0x0040, 0x0041].map (decodeTableWord 16) =
      [some .xcSubmitAcq, some .xcSubmitPush, some .xcPushnop, some .xcPop, some .xcDrive,
        some (.fifoPush 0#32), some .fifoPop] := by decide

/-- XC.SUBMIT.CALL of row 7 for a 2-pixel row: label, row, selector, two pixels, twelve entries. -/
theorem test_decode_call :
    decodeStep 2 ([0x06#8, 0x00#8, 0x07#8, 0x00#8, 0x21#8, 0x32#8] ++ List.replicate 24 0x5A#8) =
      .ok (.xcSubmitCall 7#8 [0x21#8, 0x32#8] (List.replicate 12 0x5A5A#16), []) := by decide

/-- AUD.START src=0x100, len=2500, prio=-1, least significant byte first. -/
theorem test_decode_start :
    decodeStep 160 [1#8, 0#8, 0x00#8, 0x01#8, 0#8, 0#8, 0xC4#8, 0x09#8, 0#8, 0#8, 0xFF#8, 0xFF#8, 0xFF#8, 0xFF#8] =
      .ok (.audStart 0x100#32 2500#32 0xFFFFFFFF#32, []) := by decide

/-- The labels that name no step (R102). -/
theorem test_decode_refuses :
    [0x0000, 0x0008, 0x0306, 0x0412, 0x0222, 0x0101].map (decodeTableWord 16) =
      [none, none, none, none, none, none] := by decide

/-- V-E1 to V-E11. -/
theorem test_decode_commands :
    [0x00000000, 0x01000001, 0x8F000001, 0x00ABCD00, 0xFF000000, 0x05FFFF01, 0x00000002, 0x070000FF].map
        (decodeTableWord 32) =
      [some .nop, some (.drawline 1#8), some (.drawline 143#8), some .nop, some .nop, some (.drawline 5#8),
        none, none] := by decide

/-- V-E6. -/
theorem test_encode_drawline : encodeCommand (.drawLine 255#8) = 0xFF000001#32 := by decide

/-- V-E13, V-E15 to V-E19. -/
theorem test_palette_index :
    [0x03#8, 0x21#8, 0x23#8, 0x32#8, 0xF2#8, 0x3E#8, 0xCC#8].map paletteIndex = [3, 9, 11, 14, 14, 14, 0] := by
  decide

theorem test_truncated_is_refused : decodeStep 160 [0x04#8, 0x00#8, 0x01#8] = .error .truncated := by decide

theorem test_scale_three_is_no_mode : Scale.ofBits 3#2 = none := by decide

/-! ## States -/

/-- The parameters of programs P3 and P4. -/
def small : Params :=
  { fifoDepth := 2, lineW := 6, frameH := 2, srcW := 4, scale := .x15, scaledMap := .oddDoubled,
    silence := 0#8, sbAlign := 1,
    engineAlone := false }

def boot : State := State.resetWith small

/-- The state an outcome answers; `boot` where it stops. -/
def next : Result → State
  | .next t => t
  | .fault _ => boot
  | .refused _ => boot

/-- `boot` with channel A and B of the audio engine as given. -/
def withAudio (a b : AudioChan) : State :=
  { boot with audio := { boot.audio with chan := ⟨a, b⟩, vol := 0x0100#16, volV := true } }

/-- The source of V-F7 at address 100, at volume 0.5. -/
def source3 : State :=
  { boot with
    srcMem := Memory.listing 100
      [0x00#8, 0x40#8, 0x00#8, 0x20#8, 0x00#8, 0xFF#8, 0x00#8, 0xFF#8, 0x00#8, 0x03#8, 0x00#8, 0x00#8]
    audio := { boot.audio with
      vol := 0x0080#16, volV := true, src := 100#32, total := 3#32, rem := 3#32 } }

/-- `boot` with the display engine as given. -/
def withDisplay (d : Display) : State := { boot with disp := d }

/-- `boot` holding a row and palette Q, in render state `r`. -/
def rendering (r : RState) : State :=
  { boot with
    xc := { boot.xc with
      rowbuf := Memory.listing 0 pixels4, pal := Memory.listing 0 paletteQ, palV := 0x0FFF#16,
      lineBusy := true, cst := .draw, cRow := 5#8, cLeft := 1#2 }
    disp := { boot.disp with rs := r, rendering := true } }

/-- `boot` with the dispatcher as given. -/
def withDispatcher (x : Dispatcher) : State := { boot with xc := x }

/-! ## One step of each instruction -/

/-- V-M1, V-M4, V-M7, V-M10, V-M13. -/
theorem test_mix :
    [mixLevel 0xFF00#16 0xFF00#16 0x0100#16, mixLevel 0x4000#16 0x2000#16 0x0080#16,
      mixLevel 0x7F00#16 0x8000#16 0x0100#16, mixLevel 0x0100#16 0#16 0xFFFF#16,
      mixLevel 0x0100#16 0#16 0x00FF#16] = [255#8, 48#8, 255#8, 255#8, 0#8] := by decide

/-- V-A1. -/
theorem test_audSetvol : (next (exec (.audSetvol 0x0100#16) boot)).audio.vol = 0x0100#16 := by decide

/-- V-F7: slots 48, 255, 1. -/
theorem test_audFill_slots :
    ((next (exec (.audFill .a) source3)).aud .a).block = [(0, 48#8), (1, 255#8), (2, 1#8)] := by decide

/-- V-F5: the final block of no slots. -/
theorem test_audFill_empty :
    let t := next (exec (.audFill .a)
      { source3 with audio := { source3.audio with total := 2048#32, rem := 0#32 } })
    (t.aud .a).len = 0#32 ∧ t.audio.rem = 2048#32 ∧ t.ret = .final true := by decide

/-- V-A3. -/
theorem test_audStart_short :
    let t := next (exec (.audStart 100#32 3#32 0#32) source3)
    (t.aud .b).block = [(0, 48#8), (1, 255#8), (2, 1#8)] ∧ (t.aud .a).cnt = 3#32 ∧ (t.aud .b).term = true := by
  decide

/-- V-T1: a busy channel B. -/
theorem test_audStart_busy :
    (next (exec (.audStart 100#32 3#32 0#32)
      { source3 with audio := { source3.audio with
        chan := ⟨AudioChan.reset, { AudioChan.reset with busy := true }⟩ } })).fault = 0x03#8 := by decide

/-- V-A8. -/
theorem test_audBeat :
    let t := next (exec (.audBeat .a) (next (exec (.audStart 100#32 3#32 0#32) source3)))
    t.audio.pwm = 48#8 ∧ (t.aud .a).rd = 1#32 ∧ (t.aud .a).cnt = 2#32 := by decide

/-- V-A10: past the block. -/
theorem test_audBeat_overrun :
    let t := next (exec (.audBeat .b)
      (withAudio AudioChan.reset { AudioChan.reset with busy := true, cnt := 1024#32, rd := 1024#32 }))
    t.fault = 0x04#8 ∧ (t.aud .b).rd = 1025#32 := by decide

/-- V-A11. -/
theorem test_audDone :
    let t := next (exec (.audDone .a)
      (withAudio { AudioChan.reset with busy := true } { AudioChan.reset with len := 1024#32 }))
    (t.aud .a).ip = true ∧ (t.aud .b).busy = true ∧ (t.aud .b).cnt = 1024#32 := by decide

/-- V-A12. -/
theorem test_audDone_waits :
    let s := withAudio { AudioChan.reset with busy := true, cnt := 5#32 } AudioChan.reset
    next (exec (.audDone .a) s) = s := by decide

/-- V-A13. -/
theorem test_audIrq_rearms :
    let t := next (exec (.audIrq .a)
      (withAudio { AudioChan.reset with ip := true, ie := true, rd := 1024#32 } AudioChan.reset))
    (t.aud .a).rd = 0#32 ∧ (t.aud .a).refill = true ∧ (t.aud .a).ip = false := by decide

/-- V-A14. -/
theorem test_audIrq_stops :
    let t := next (exec (.audIrq .a)
      (withAudio { AudioChan.reset with ip := true, ie := true, term := true }
        { AudioChan.reset with busy := true, cnt := 1024#32 }))
    t.audio.trace = [0#8] ∧ (t.aud .b).busy = false ∧ (t.aud .b).cnt = 0#32 := by decide

/-- V-A15: pending and not enabled. -/
theorem test_audIrq_masked :
    let s := withAudio { AudioChan.reset with ip := true } AudioChan.reset
    next (exec (.audIrq .a) s) = s := by decide

/-- V-A24. -/
theorem test_audAbort :
    let t := next (exec (.audAbort .b)
      (withAudio AudioChan.reset { AudioChan.reset with busy := true, cnt := 1020#32, rd := 4#32 }))
    (t.aud .b).busy = false ∧ (t.aud .b).rd = 4#32 ∧ (t.aud .a).busy = false := by decide

/-- V-A21. -/
theorem test_audTrigger :
    ((next (exec (.audTrigger .b) (withAudio AudioChan.reset { AudioChan.reset with len := 452#32 }))).aud .b).cnt =
      452#32 := by decide

/-- V-A22. -/
theorem test_audTrigger_busy :
    ((next (exec (.audTrigger .b)
      (withAudio AudioChan.reset { AudioChan.reset with busy := true, cnt := 7#32, len := 9#32 }))).aud .b).cnt =
      7#32 := by decide

/-- R134 on the source of V-F7: refilled, final, flag cleared. -/
theorem test_audSvc :
    let t := next (exec (.audSvc .b)
      (source3.setAud .b { AudioChan.reset with refill := true }))
    (t.aud .b).refill = false ∧ (t.aud .b).term = true ∧ (t.aud .b).len = 3#32 := by decide

/-- R133: the first turn serves A, the second B. -/
theorem test_audService_first :
    let t := next (exec .audService
      ((source3.setAud .a { AudioChan.reset with refill := true }).setAud .b { AudioChan.reset with refill := true }))
    (t.aud .a).len = 3#32 ∧ (t.aud .a).refill = false ∧ (t.aud .b).refill = true ∧ t.audio.midService = true := by
  decide

theorem test_audService_second :
    let s := source3.setAud .b { AudioChan.reset with refill := true }
    let t := next (exec .audService { s with audio := { s.audio with midService := true } })
    (t.aud .b).refill = false ∧ t.audio.midService = false := by decide

/-- V-A20. -/
theorem test_audStop : (next (exec .audStop boot)).audio.trace = [0#8] := by decide

/-- V-P1. -/
theorem test_dspFramereq : (next (exec .dspFramereq boot)).disp.frameReq = true := by decide

/-- V-P3. -/
theorem test_dspPollWf :
    let t := next (exec .dspPollWf (withDisplay { boot.disp with frameReq := true }))
    t.disp.rs = .startFrame ∧ t.disp.rendering = true ∧ t.disp.frameReq = false := by decide

/-- V-P5. -/
theorem test_dspPollSf :
    let t := next (exec .dspPollSf (rendering .startFrame))
    t.disp.rs = .renderRow ∧ t.disp.trace = [.frameWindow, .ramWrite] := by decide

/-- V-P6. -/
theorem test_dspPollRr :
    (next (exec .dspPollRr (rendering .renderRow))).disp.line.a =
      Memory.listing 0 [0x8888#16, 0x9999#16, 0x9999#16, 0xAAAA#16, 0xBBBB#16, 0xBBBB#16] := by decide +kernel

/-- V-P7: the margins are not written. -/
theorem test_dspPollRr_unscaled :
    (next (exec .dspPollRr
      { rendering .renderRow with params := { small with scale := .unscaled, lineW := 7 } })).disp.line.a =
      Memory.listing 1 [0x8888#16, 0x9999#16, 0xAAAA#16, 0xBBBB#16] := by decide +kernel

/-- V-P11: the first transfer goes out on channel 1 from slot 0. -/
theorem test_dspPollWd :
    let t := next (exec .dspPollWd (rendering .waitDma))
    t.dsp .b = { busy := true, src := .a, pos := 0#16, raced := false } ∧ t.disp.fillSlot = .b ∧
      t.disp.row = 1#16 := by decide

/-- V-P10: the last row. -/
theorem test_dspPollWd_last :
    let t := next (exec .dspPollWd
      { rendering .waitDma with disp := { (rendering .waitDma).disp with row := 1#16, fillSlot := .b } })
    t.disp.rs = .waitFrame ∧ t.disp.rendering = false ∧ (t.dsp .b).src = .b := by decide

/-- V-P12. -/
theorem test_dspBeat :
    let t := next (exec (.dspBeat .a) (withDisplay { boot.disp with
      line := ⟨[(0, 0x8888#16)], []⟩, chan := ⟨{ DispChan.reset with busy := true }, DispChan.reset⟩ }))
    t.disp.trace = [.pix .a 0x8888#16] ∧ (t.dsp .a).pos = 1#16 := by decide

/-- V-P14. -/
theorem test_dspDone :
    ((next (exec (.dspDone .a) (withDisplay { boot.disp with
      chan := ⟨{ DispChan.reset with busy := true, pos := 6#16 }, DispChan.reset⟩ }))).dsp .a).busy = false := by
  decide

/-- V-P15. -/
theorem test_dspDone_waits :
    ((next (exec (.dspDone .a) (withDisplay { boot.disp with
      chan := ⟨{ DispChan.reset with busy := true, pos := 3#16 }, DispChan.reset⟩ }))).dsp .a).busy = true := by
  decide

/-- V-D3. -/
theorem test_dspMap : (next (exec (.dspMap 0x21#8) (rendering .renderRow))).ret = .colour 0x9999#16 := by decide

/-- V-D5: the fault of an entry never written. -/
theorem test_dspMap_unwritten : (next (exec (.dspMap 0x32#8) (rendering .renderRow))).fault = 0x20#8 := by decide

/-- V-D9. -/
theorem test_dspHmap_scaled :
    [0, 1, 2, 3, 4, 5, 6].map (hmap small) = [some 0, some 1, some 1, some 2, some 3, some 3, none] := by decide

/-- V-D7. -/
theorem test_dspHmap_unscaled :
    [39, 40, 199, 200].map (hmap Params.default) = [none, some 0, some 159, none] := by decide

/-- R192: the issue toggles both bits. -/
theorem test_dspIssue :
    let t := next (exec .dspIssue boot)
    t.disp.dCh = .b ∧ t.disp.fillSlot = .b ∧ (t.dsp .b).busy = true := by decide

/-- V-X1. -/
theorem test_xcSubmitCall :
    let t := next (exec (.xcSubmitCall 5#8 pixels4 paletteQ) boot)
    t.xc.pst = .wait ∧ t.xc.pRow = 5#8 ∧ t.xc.rowbuf = [] := by decide

/-- V-X6. -/
theorem test_xcSubmitCall_reentry :
    let t := next (exec (.xcSubmitCall 9#8 pixels4 paletteQ) (withDispatcher { boot.xc with pst := .wait }))
    t.fault = 0x40#8 ∧ t.xc.pRow = 0#8 := by decide

/-- V-X2. -/
theorem test_xcSubmitAcq :
    let t := next (exec .xcSubmitAcq (next (exec (.xcSubmitCall 5#8 pixels4 paletteQ) boot)))
    t.xc.rowbuf = Memory.listing 0 pixels4 ∧ t.xc.palV = 0x0FFF#16 ∧ t.xc.lineBusy = true := by decide

/-- V-X3. -/
theorem test_xcSubmitAcq_spins :
    (next (exec .xcSubmitAcq (withDispatcher { boot.xc with pst := .wait, lineBusy := true }))).xc.pst = .wait := by
  decide

/-- V-X4. -/
theorem test_xcSubmitPush :
    let t := next (exec .xcSubmitPush (withDispatcher { boot.xc with pst := .push, pRow := 5#8 }))
    t.xc.fifo = [0x05000001#32] ∧ t.xc.pst = .idle := by decide

/-- V-X5. -/
theorem test_xcSubmitPush_full :
    (next (exec .xcSubmitPush
      (withDispatcher { boot.xc with pst := .push, fifo := [0#32, 0#32] }))).xc.pst = .push := by decide

/-- V-X7. -/
theorem test_xcPushnop : (next (exec .xcPushnop boot)).xc.fifo = [0#32] := by decide

/-- V-X12: an odd row in mode X2. -/
theorem test_xcPop :
    let t := next (exec .xcPop
      { withDispatcher { boot.xc with fifo := [0x05000001#32] } with params := { small with scale := .x2 } })
    t.xc.cRow = 5#8 ∧ t.xc.cLeft = 2#2 ∧ t.xc.cst = .draw := by decide

/-- V-X14. -/
theorem test_xcPop_reserved :
    let t := next (exec .xcPop (withDispatcher { boot.xc with fifo := [0x00000002#32] }))
    t.fault = 0x10#8 ∧ t.xc.fifo = [] ∧ t.xc.cst = .pop := by decide

/-- V-X18. -/
theorem test_xcDrive :
    let t := next (exec .xcDrive (rendering .waitDma))
    t.xc.cLeft = 0#2 ∧ t.xc.lineBusy = false ∧ t.xc.cst = .pop ∧ (t.dsp .b).busy = true := by decide

/-- V-X16. -/
theorem test_xcDrive_renders :
    let t := next (exec .xcDrive (rendering .renderRow))
    t.disp.rs = .waitDma ∧ t.xc.cLeft = 1#2 ∧ t.xc.lineBusy = true := by decide +kernel

theorem test_fifoPush : (next (exec (.fifoPush 7#32) boot)).xc.fifo = [7#32] := by decide

theorem test_fifoPop :
    let t := next (exec .fifoPop (withDispatcher { boot.xc with fifo := [7#32, 8#32] }))
    t.ret = .word 7#32 ∧ t.xc.fifo = [8#32] := by decide

/-- R221: NOP does nothing. -/
theorem test_nop : next (exec .nop (rendering .waitDma)) = rendering .waitDma := by decide

/-- V-X13 as the word alone: an even row in mode X2. -/
theorem test_drawline :
    (next (exec (.drawline 4#8) { boot with params := { small with scale := .x2 } })).xc.cLeft = 1#2 := by decide

/-- V-A26: the priorities are signed. -/
theorem test_play_signed :
    (next (execAudPlay 100#32 3#32 0#32
      { source3 with audio := { source3.audio with playing := true, prio := 0xFFFFFFFF#32 } })).audio.prio = 0#32 := by
  decide

/-- R116: a bound of 5 polls stops with the second, which issues. -/
theorem test_driveLine_stops :
    let t := driveLine 5 (rendering .renderRow)
    t.disp.rs = .renderRow ∧ t.disp.row = 1#16 ∧ t.disp.dCh = .b := by decide +kernel

/-! ## The step -/

/-- A label placed as the host places it runs as the very next step. -/
theorem test_step_places_label :
    (next (step (State.reset.withFetchWord 16 0x0005))).disp.frameReq = true := by decide +kernel

/-- DSP.POLL placed as the host places it: the engine is driven alone (R181). -/
theorem test_step_places_poll :
    let s := withDisplay { boot.disp with frameReq := true }
    (next (step (s.withFetchWord 16 0x0012))).disp.rs = .startFrame := by decide +kernel

/-- A command word placed as the host places it is popped by the very next step. -/
theorem test_step_places_command :
    (next (step (State.reset.withFetchWord 32 0x05000001))).xc.cRow = 5#8 := by decide +kernel

/-! ## Witnesses: for each statement with hypotheses, states and operands that meet all of them -/

/-- A state whose next turn is the step `i`. -/
def turn (i : Instr) (s : State) : State := { s with schedule := [.act (encode i)] }

/-- A session with `total` samples of which `rem` are left. -/
def session (total rem : Word) : State :=
  { source3 with audio := { source3.audio with total := total, rem := rem } }

/-- A session playing, channel A running. -/
def playing : State :=
  let s := withAudio { AudioChan.reset with busy := true, cnt := 2#32, len := 2#32, ie := true } AudioChan.reset
  { s with audio := { s.audio with playing := true, total := 2#32, rem := 2#32 } }

/-- A line on its way out on channel 1 from slot 0. -/
def transferring : State :=
  { withDisplay { boot.disp with
      rs := .renderRow, rendering := true, row := 1#16, dCh := .b, fillSlot := .b,
      chan := ⟨DispChan.reset, { DispChan.reset with busy := true }⟩ } with
    params := { small with engineAlone := true } }

/-- A line submitted and in the queue. -/
def submitted : State := withDispatcher { boot.xc with lineBusy := true, fifo := [0x05000001#32] }

theorem witness_DecodeOfEncodeIsTheStep :
    (Instr.xcSubmitCall 5#8 pixels4 paletteQ).wf 4 = true ∧ (Instr.xcSubmitCall 5#8 pixels4 paletteQ).label ≠ none ∧
    (Instr.xcSubmitCall 255#8 pixels4 palette16).wf 4 = true ∧ (Instr.audIrq .b).wf 0 = true ∧
    (Instr.audIrq .b).label ≠ none := by decide

theorem witness_DecodedBytesAreItsEncoding :
    decodeStep 4 (encode (.xcSubmitCall 5#8 pixels4 palette16) ++ [7#8]) =
      .ok (.xcSubmitCall 5#8 pixels4 palette16, [7#8]) := by decide

theorem witness_LabelOutsideTheTableNamesNoStep :
    (∀ r ∈ stepRows, halfOf 0x06#8 0x03#8 &&& r.2 ≠ r.1) ∧
    ({ boot with schedule := [.act [0x06#8, 0x03#8]] } : State).schedule = .act (0x06#8 :: 0x03#8 :: []) :: [] :=
  ⟨by simp [stepRows, halfOf], rfl⟩

theorem witness_CommandWordFields :
    (0x00ABCD00#32).toNat % 256 = 0 ∧ (0x05FFFF01#32).toNat % 256 = 1 := by decide

theorem witness_StepRunsTheDecodedInstruction :
    decodeStep boot.params.srcW (encode .dspFramereq) = .ok (.dspFramereq, []) ∧ boot.xc.pst = .idle ∧
    boot.audio.midService = false ∧ decodeStep boot.params.srcW (encode .dspPollWf) = .ok (.dspPollWf, []) ∧
    Instr.dspPollWf.place = .poll ∧
    ({ boot with params := { small with engineAlone := true } } : State).params.engineAlone = true := by decide

theorem witness_SubmitInProgressHoldsTheComputeCore :
    decodeStep boot.params.srcW (encode .audStop) = .ok (.audStop, []) ∧ Instr.audStop.isComputeOp = true ∧
    (withDispatcher { boot.xc with pst := .wait }).xc.pst ≠ .idle := by decide

theorem witness_ProducerRewritesOnlyItsBytes :
    Memory.wf source3.srcMem ∧
    ({ source3 with schedule := [.produce 99 [1#8, 2#8]] } : State).schedule = .produce 99 [1#8, 2#8] :: [] := by
  decide

theorem witness_NoTurnLeavesTheStateAsItIs : boot.schedule = [] := by decide

/-- Each condition at a boundary: a count of 1 and of 0, the last position and the line's end, a full queue. -/
theorem witness_DisabledStepChangesNothing :
    let a := withAudio { AudioChan.reset with busy := true } { AudioChan.reset with busy := true, cnt := 1#32 }
    let p := withAudio { AudioChan.reset with ip := true } { AudioChan.reset with ie := true }
    let d := withDisplay { boot.disp with
      chan := ⟨{ DispChan.reset with busy := true, pos := 6#16 }, { DispChan.reset with busy := true, pos := 5#16 }⟩ }
    let x := withDispatcher { boot.xc with pst := .wait, lineBusy := true, fifo := [0#32, 0#32] }
    ((a.aud .a).cnt = 0#32 ∧ (a.aud .b).cnt ≠ 0#32 ∧ (p.aud .a).ie = false ∧ (p.aud .b).ip = false) ∧
    (d.params.lineW ≤ (d.dsp .a).pos.toNat ∧ (d.dsp .b).pos.toNat ≠ d.params.lineW) ∧
    (x.xc.lineBusy = true ∧ x.params.fifoDepth ≤ x.xc.fifo.length ∧ x.xc.pst ≠ .idle ∧ boot.xc.fifo = [] ∧
      boot.xc.cst ≠ .draw ∧ boot.disp.rs ≠ .startFrame ∧ boot.disp.rs ≠ .renderRow ∧ boot.disp.rs ≠ .waitDma ∧
      transferring.disp.rs ≠ .waitFrame) ∧
    stepEnabled (.audBeat .a) boot = false := by decide

theorem witness_ResetMeetsTheInvariants : small.wf = true ∧ Params.default.wf = true := by decide

/-- A frame asked for, its poll the next turn. -/
def requested : State :=
  turn .dspPollWf { boot with
    params := { small with engineAlone := true }, disp := { boot.disp with frameReq := true } }

theorem requested_ok : State.ok requested := by
  refine ⟨by decide, ?_, ?_, ?_, by decide, by decide, by decide⟩
  · unfold Audio.ok AudioChan.ok; decide
  · unfold Display.ok; decide
  · unfold Dispatcher.ok
    refine ⟨by decide, by decide, by decide, by decide, by decide, fun j => ?_, by decide, by decide, by decide⟩
    show (0#16).getLsbD j = false
    simp

theorem witness_EveryStepKeepsTheStateOk : State.ok requested ∧ ∃ t, step requested = .next t :=
  ⟨requested_ok, _, rfl⟩

/-- A turn that decodes answers a next state. -/
theorem turn_steps {i : Instr} {r : List Byte} (s : State) (h : decodeStep s.params.srcW (encode i) = .ok (i, r)) :
    ∃ t, step (turn i s) = .next t := by
  have e : step (turn i s) = takeStep i { s with schedule := [] } := by
    simp only [step, runTurn, turn, takeTurn, h]
  rw [e]
  unfold takeStep
  cases held i { s with schedule := [] }
  · exact exec_next i _
  · exact ⟨_, rfl⟩

theorem witness_ScheduledStepKeepsThePingPong :
    (turn (.audBeat .a) playing).nextScheduled = true ∧ pingPong (turn (.audBeat .a) playing) ∧
    ∃ t, step (turn (.audBeat .a) playing) = .next t :=
  ⟨by decide, by unfold pingPong; decide, _, rfl⟩

theorem witness_ScheduledStepKeepsTheLinesApart :
    (turn .dspPollRr transferring).nextScheduled = true ∧ linesApart (turn .dspPollRr transferring) ∧
    ∃ t, step (turn .dspPollRr transferring) = .next t :=
  ⟨by decide, ⟨fun k => by cases k <;> decide, by decide⟩, _, rfl⟩

theorem witness_EveryStepKeepsTheFrameConsistent :
    frameConsistent (rendering .waitDma) ∧ frameConsistent requested ∧ ∃ t, step requested = .next t :=
  ⟨by unfold frameConsistent; decide, by unfold frameConsistent; decide, _, rfl⟩

theorem witness_ScheduledStepKeepsOneLineInFlight :
    (turn .xcPop submitted).nextScheduled = true ∧ oneLineInFlight (turn .xcPop submitted) ∧
    ∃ t, step (turn .xcPop submitted) = .next t :=
  ⟨by decide, ⟨by rfl, by simp [turn, submitted, withDispatcher]; rfl, by rfl⟩, turn_steps (r := []) submitted (by decide)⟩

theorem witness_FaultBitsAreSticky :
    exec (.audStart 100#32 3#32 0#32) playing = .next (next (exec (.audStart 100#32 3#32 0#32) playing)) ∧
    exec .dspIssue { boot with fault := 0x41#8 } = .next (next (exec .dspIssue { boot with fault := 0x41#8 })) ∧
    ({ boot with fault := 0x41#8 } : State).fault.getLsbD 6 = true := ⟨rfl, rfl, by decide⟩

theorem witness_OutputHistoriesOnlyGrow :
    exec .audStop playing = .next (next (exec .audStop playing)) := rfl

theorem witness_NoInstructionWritesParametersOrSource :
    exec .dspPollWf boot = .next (next (exec .dspPollWf boot)) := rfl

theorem witness_PipelinesWriteOnlyTheirOwnState :
    exec (.audBeat .a) playing = .next (next (exec (.audBeat .a) playing)) ∧ isAudio (.audBeat .a) = true ∧
    exec .dspPollRr transferring = .next (next (exec .dspPollRr transferring)) ∧ isAudio .dspPollRr = false :=
  ⟨rfl, rfl, rfl, rfl⟩

theorem witness_PipelinesReadOnlyTheirOwnState :
    let s' := { playing with disp := transferring.disp }
    let u' := { transferring with audio := playing.audio }
    (exec (.audBeat .a) playing = .next (next (exec (.audBeat .a) playing)) ∧
      exec (.audBeat .a) s' = .next (next (exec (.audBeat .a) s')) ∧
      playing.params = s'.params ∧ playing.draws = s'.draws ∧ playing.audio = s'.audio ∧
      playing.srcMem = s'.srcMem ∧ playing.fault = s'.fault ∧ playing.disp ≠ s'.disp) ∧
    (exec (.dspBeat .b) transferring = .next (next (exec (.dspBeat .b) transferring)) ∧
      exec (.dspBeat .b) u' = .next (next (exec (.dspBeat .b) u')) ∧
      transferring.params = u'.params ∧ transferring.draws = u'.draws ∧ transferring.disp = u'.disp ∧
      transferring.xc = u'.xc ∧ transferring.audio ≠ u'.audio) :=
  ⟨⟨rfl, rfl, rfl, rfl, rfl, rfl, rfl, by decide⟩, ⟨rfl, rfl, rfl, rfl, rfl, rfl, by decide⟩⟩

theorem witness_RenderStateTransitions :
    exec .dspPollWd (rendering .waitDma) = .next (next (exec .dspPollWd (rendering .waitDma))) := rfl

theorem witness_StopAbortsBothChannelsAndSilences :
    playing.faulted .audReconfig = false ∧ ({ playing with fault := 1#8 } : State).faulted .audReconfig = true := by
  decide

theorem witness_TriggerStartsAnIdleChannel :
    (playing.aud .a).busy = true ∧ (playing.aud .b).busy = false := by decide

/-- The last entry of a block, and the first index past it. -/
theorem witness_BeatOutputsTheEntryAtTheReadPointer :
    let last := withAudio
      { AudioChan.reset with busy := true, cnt := 1#32, rd := 1023#32, block := [(1023, 5#8)] } AudioChan.reset
    let past := withAudio { AudioChan.reset with busy := true, cnt := 1#32, rd := 1024#32 } AudioChan.reset
    (last.aud .a).busy = true ∧ (last.aud .a).cnt ≠ 0#32 ∧ (last.aud .a).rd.toNat < 1024 ∧
    (last.aud .a).raced = false ∧ last.faulted .audReconfig = false ∧
    Memory.read? (last.aud .a).block (last.aud .a).rd.toNat = some 5#8 ∧
    (past.aud .a).busy = true ∧ (past.aud .a).cnt ≠ 0#32 ∧ 1024 ≤ (past.aud .a).rd.toNat := by decide

theorem witness_DoneRaisesTheInterruptAndChains :
    let s := withAudio { AudioChan.reset with busy := true } AudioChan.reset
    let u := withAudio { AudioChan.reset with busy := true } { AudioChan.reset with busy := true }
    (s.aud .a).busy = true ∧ (s.aud .a).cnt = 0#32 ∧ (s.aud Side.a.other).busy = false ∧
    (u.aud .a).busy = true ∧ (u.aud .a).cnt = 0#32 ∧ (u.aud Side.a.other).busy = true := by decide

theorem witness_CompletionHandlerTerminatesOrRearms :
    let s := withAudio { AudioChan.reset with ip := true, ie := true }
      { AudioChan.reset with ip := true, ie := true, term := true }
    (s.aud .a).ip = true ∧ (s.aud .a).ie = true ∧ (s.aud .a).term = false ∧
    (s.aud .b).ip = true ∧ (s.aud .b).ie = true ∧ (s.aud .b).term = true ∧
    s.faulted .audReconfig = false := by decide

/-- 1023 and 1024 samples left, and none; a volume written. -/
theorem witness_FillMixesTheNextBlock :
    Memory.wf ((session 2048#32 1023#32).aud .a).block ∧ (session 2048#32 1023#32).audio.rem.toNat < 1024 ∧
    Memory.wf ((session 2048#32 1024#32).aud .b).block ∧ 1024 ≤ (session 2048#32 1024#32).audio.rem.toNat ∧
    (session 2048#32 0#32).audio.rem.toNat < 1024 ∧ (session 2048#32 1024#32).audio.volV = true := by decide

theorem witness_SourceValueIsTheSuppliedHalfword :
    Memory.read? source3.srcMem (source3.audio.src.toNat + 2 * 5) = some 0x00#8 ∧
    Memory.read? source3.srcMem (source3.audio.src.toNat + 2 * 0 + 1) = some 0x40#8 ∧
    Memory.read? source3.srcMem (source3.audio.src.toNat + 2 * 0) = some 0x00#8 := by decide

theorem witness_FillSequenceConsumesExactlyN :
    (session 2500#32 2500#32).audio.total.toNat = 2500 ∧ (session 2500#32 2500#32).audio.rem.toNat = 2500 ∧
    (session 2048#32 2048#32).audio.total.toNat = 2048 ∧ (session 2048#32 2048#32).audio.rem.toNat = 2048 := by
  decide

/-- Both channels idle, then channel A busy; the clauses' lengths 1023, 1024, 2047 and 2048 are operands. -/
theorem witness_StartPrimesArmsAndPlays :
    (∀ c, Memory.wf (source3.aud c).block) ∧ source3.audio.volV = true ∧ source3.audioBusy = false ∧
    (∀ c, Memory.wf (playing.aud c).block) ∧ (playing.aud .a).busy = true ∧
    (1023#32).toNat < 1024 ∧ ¬ (1024#32).toNat < 1024 ∧ (2047#32).toNat - 1024 < 1024 ∧
    ¬ (2048#32).toNat - 1024 < 1024 :=
  ⟨fun c => by cases c <;> decide, by decide, by decide, fun c => by cases c <;> decide, by decide, by decide,
    by decide, by decide, by decide⟩

/-- Outside an AUD.SERVICE and between its steps; a turn that has to wait there. -/
theorem witness_ServiceIsBothBuffersInOrder :
    let s := { boot with audio := { boot.audio with midService := true } }
    boot.audio.midService = false ∧ s.audio.midService = true ∧
    decodeStep s.params.srcW (encode .audStop) = .ok (.audStop, []) ∧ Instr.audStop.place = .compute ∧
    Instr.xcSubmitAcq.place = .submit ∧ Instr.dspFramereq ≠ .audService := by decide

theorem witness_ServiceRefillsAndPropagates :
    ((source3.setAud .b { AudioChan.reset with refill := true }).aud .b).refill = true ∧
    (source3.aud .b).refill = false := by decide

/-- The playing session has priority 0: -1 and 0 are not above it, 1 is. -/
theorem witness_PlayPreemptsOnlyByHigherPriority :
    playing.audio.playing = true ∧ (0xFFFFFFFF#32).toInt ≤ playing.audio.prio.toInt ∧
    (0#32).toInt ≤ playing.audio.prio.toInt ∧ playing.audio.prio.toInt < (1#32).toInt ∧
    boot.audio.playing = false := by decide

theorem witness_ShortSessionPlaysItsSamplesThenSilence :
    (∀ c, Memory.wf (source3.aud c).block) ∧ 1 ≤ (1#32).toNat ∧ (1#32).toNat ≤ 1024 ∧ 1 ≤ (1024#32).toNat ∧
    (1024#32).toNat ≤ 1024 ∧ source3.audioBusy = false ∧ source3.audio.volV = true ∧
    source3.faulted .audReconfig = false :=
  ⟨fun c => by cases c <;> decide, by decide, by decide, by decide, by decide, by decide, by decide, by decide⟩

theorem witness_WaitFramePollObservesTheRequest :
    (withDisplay { boot.disp with frameReq := true }).disp.rs = .waitFrame ∧
    (withDisplay { boot.disp with frameReq := true }).disp.frameReq = true ∧ boot.disp.rs = .waitFrame ∧
    boot.disp.frameReq = false := by decide

theorem witness_StartFramePollAddressesTheFrame :
    let u := withDisplay { boot.disp with rs := .startFrame, chan := ⟨{ DispChan.reset with busy := true }, DispChan.reset⟩ }
    (rendering .startFrame).disp.rs = .startFrame ∧
    ((rendering .startFrame).dsp (rendering .startFrame).disp.dCh).busy = false ∧
    u.disp.rs = .startFrame ∧ (u.dsp u.disp.dCh).busy = true := by decide

/-- The last destination of a scaled line, a margin of an unscaled one, and an entry never written. -/
theorem witness_RenderRowPollMapsTheRow :
    let s := rendering .renderRow
    let u := { s with params := { small with scale := .unscaled, lineW := 7 } }
    s.disp.rs = .renderRow ∧ Memory.wf (s.disp.line.get s.disp.fillSlot) ∧ 5 < s.params.lineW ∧
    hmap s.params 5 = some 3 ∧ Memory.read? s.xc.rowbuf 3 = some 0x23#8 ∧
    s.xc.palV.getLsbD (paletteIndex 0x23#8) = true ∧ Memory.read? s.xc.pal (paletteIndex 0x23#8) = some 0xBBBB#16 ∧
    u.disp.rs = .renderRow ∧ Memory.wf (u.disp.line.get u.disp.fillSlot) ∧ hmap u.params 0 = none ∧
    hmap u.params 5 = none ∧ u.params.lineW ≤ 7 := by decide

theorem witness_RenderRowPollMapsTheRow_unwritten :
    let s := { rendering .renderRow with xc := { (rendering .renderRow).xc with palV := 0x00FF#16 } }
    s.disp.rs = .renderRow ∧ 0 < s.params.lineW ∧ hmap s.params 0 = some 0 ∧
    Memory.read? s.xc.rowbuf 0 = some 0x20#8 ∧ s.xc.palV.getLsbD (paletteIndex 0x20#8) = false := by decide

theorem witness_WaitDmaPollIssuesAndCounts :
    let s := rendering .waitDma
    let u := { s with disp := { s.disp with row := 1#16 } }
    let v := { s with disp := { s.disp with chan := ⟨{ DispChan.reset with busy := true }, DispChan.reset⟩ } }
    s.disp.rs = .waitDma ∧ (s.dsp s.disp.dCh).busy = false ∧ s.disp.row.toNat + 1 ≠ s.params.frameH ∧
    u.disp.rs = .waitDma ∧ (u.dsp u.disp.dCh).busy = false ∧ u.disp.row.toNat + 1 = u.params.frameH ∧
    v.disp.rs = .waitDma ∧ (v.dsp v.disp.dCh).busy = true := by decide

/-- The last entry of a line. -/
theorem witness_PixelBeatSendsTheNextEntry :
    let s := withDisplay { boot.disp with
      line := ⟨[(5, 0xBBBB#16)], []⟩, chan := ⟨{ DispChan.reset with busy := true, pos := 5#16 }, DispChan.reset⟩ }
    (s.dsp .a).busy = true ∧ (s.dsp .a).pos.toNat < s.params.lineW ∧ (s.dsp .a).raced = false ∧
    Memory.read? (s.disp.line.get (s.dsp .a).src) (s.dsp .a).pos.toNat = some 0xBBBB#16 := by decide

theorem witness_LineDoneIdlesTheChannel :
    let s := withDisplay { boot.disp with
      chan := ⟨DispChan.reset, { DispChan.reset with busy := true, pos := 6#16 }⟩ }
    (s.dsp .b).busy = true ∧ (s.dsp .b).pos.toNat = s.params.lineW := by decide

/-- The first and the last byte value of an entry written (0 and 11), and one never written. -/
theorem witness_MapSelectsThePaletteEntry :
    let s := rendering .renderRow
    s.xc.palV.getLsbD (4 * ((0xCC#8).toNat / 16 % 4) + (0xCC#8).toNat % 4) = true ∧
    Memory.read? s.xc.pal (4 * ((0xCC#8).toNat / 16 % 4) + (0xCC#8).toNat % 4) = some 0x0000#16 ∧
    s.xc.palV.getLsbD (4 * ((0x23#8).toNat / 16 % 4) + (0x23#8).toNat % 4) = true ∧
    Memory.read? s.xc.pal (4 * ((0x23#8).toNat / 16 % 4) + (0x23#8).toNat % 4) = some 0xBBBB#16 ∧
    s.xc.palV.getLsbD (4 * ((0x30#8).toNat / 16 % 4) + (0x30#8).toNat % 4) = false := by decide

theorem witness_HorizontalMapOfEachMode :
    let even := { boot with params := { small with scaledMap := .evenDoubled } }
    let table := { boot with params := { small with scaledMap := .table [none, some 3] } }
    State.reset.params.scale = .unscaled ∧ boot.params.scale ≠ .unscaled ∧
    boot.params.scaledMap = .oddDoubled ∧ even.params.scale ≠ .unscaled ∧
    even.params.scaledMap = .evenDoubled ∧ table.params.scale ≠ .unscaled ∧
    table.params.scaledMap = .table [none, some 3] ∧ [none, some 3][(1#16).toNat]? = some (some 3) ∧
    [none, some 3][(2#16).toNat]? = none := by decide

/-- R186: the alternative map, and a table. -/
theorem test_dspHmap_others :
    [0, 1, 2, 3, 4, 5, 6].map (hmap { small with scaledMap := .evenDoubled }) =
      [some 0, some 0, some 1, some 2, some 2, some 3, none] ∧
    [0, 1, 2].map (hmap { small with scaledMap := .table [none, some 3] }) = [none, some 3, none] := by decide

theorem witness_FrameReturnsToWaitFrame :
    let s := withDisplay { boot.disp with frameReq := true }
    s.params.wf = true ∧ s.disp.rs = .waitFrame ∧ s.disp.frameReq = true ∧ (∀ k, (s.dsp k).busy = false) :=
  ⟨by decide, by decide, by decide, fun k => by cases k <;> decide⟩

/-- A queue of depth 2 with one word: the last push that has room. -/
theorem witness_QueueIsFirstInFirstOut :
    submitted.xc.fifo.length < submitted.params.fifoDepth ∧ submitted.xc.fifo = 0x05000001#32 :: [] := by decide

theorem witness_SubmitCallBeginsOrIsReentry :
    boot.xc.pst = .idle ∧ (withDispatcher { boot.xc with pst := .push }).xc.pst ≠ .idle := by decide

theorem witness_AcquireCopiesTheLineAndSetsBusy :
    let s := withDispatcher { boot.xc with pst := .wait, heldPixels := pixels4, heldPalette := palette16 }
    s.xc.pst = .wait ∧ s.xc.lineBusy = false ∧ s.xc.heldPixels.length = s.params.srcW ∧
    wfPalette s.xc.heldPalette = true ∧ wfPalette paletteQ = true ∧ Memory.wf s.xc.rowbuf ∧
    Memory.wf s.xc.pal := by decide

theorem witness_SubmitPushEnqueuesOneDrawline :
    let s := withDispatcher { boot.xc with pst := .push, pRow := 255#8, fifo := [0#32] }
    s.xc.pst = .push ∧ s.xc.fifo.length < s.params.fifoDepth := by decide

theorem witness_PushNopEnqueuesTheZeroWord :
    submitted.xc.pst = .idle ∧ submitted.xc.fifo.length < submitted.params.fifoDepth := by decide

/-- The four words: NOP with a row, DRAWLINE, the first and the last reserved opcode. -/
theorem witness_PopDecodesTheNextCommand :
    let s := fun w => withDispatcher { boot.xc with fifo := [w] }
    (s 0xFF000000#32).xc.cst = .pop ∧ (s 0xFF000000#32).xc.fifo = 0xFF000000#32 :: [] ∧
    (0xFF000000#32).toNat % 256 = 0 ∧ (s 0x05000001#32).xc.cst = .pop ∧
    (s 0x05000001#32).xc.fifo = 0x05000001#32 :: [] ∧ (0x05000001#32).toNat % 256 = 1 ∧
    (s 2#32).xc.fifo = 2#32 :: [] ∧ 2 ≤ (2#32).toNat % 256 ∧ 2 ≤ (0xFF#32).toNat % 256 := by decide

theorem witness_DriveIsOnePollAndCountsTheLine :
    let s := rendering .waitDma
    let u := { s with xc := { s.xc with cLeft := 2#2 } }
    let v := rendering .renderRow
    s.xc.cst = .draw ∧ s.xc.cLeft ≠ 0#2 ∧ s.disp.rs = .waitDma ∧ (s.dsp s.disp.dCh).busy = false ∧
    s.xc.cLeft = 1#2 ∧ u.xc.cst = .draw ∧ u.xc.cLeft ≠ 0#2 ∧ u.disp.rs = .waitDma ∧
    (u.dsp u.disp.dCh).busy = false ∧ u.xc.cLeft ≠ 1#2 ∧ v.xc.cst = .draw ∧ v.xc.cLeft ≠ 0#2 ∧
    ¬ (v.disp.rs = .waitDma ∧ (v.dsp v.disp.dCh).busy = false) := by decide

theorem witness_BackpressureHoldsUntilTheDrive :
    let s := withDispatcher { boot.xc with lineBusy := true, pst := .wait, fifo := [0x05000001#32] }
    s.xc.lineBusy = true ∧ s.xc.pst = .wait ∧
    (∀ i ∈ [Instr.xcSubmitAcq, .xcPop, .audService], i.isStep = true ∧ i ≠ .xcDrive) ∧
    ∃ t, execAll [.xcSubmitAcq, .xcPop, .audService] s = .next t :=
  ⟨by decide, by decide, by decide, _, rfl⟩

/-- One poll renders, the next issues, with the command's last line, and bounds on either side of it; a queue of NOP words; a poll that has to wait. -/
theorem witness_DriveLinePollsUpToTheIssue :
    let s := rendering .renderRow
    let q := withDispatcher { boot.xc with fifo := [0#32, 0xFF000000#32, 1#32] }
    ((∀ j, j < 1 → ¬ ((poll^[j] s).disp.rs = .waitDma ∧
      ((poll^[j] s).dsp (poll^[j] s).disp.dCh).busy = false)) ∧
    (poll^[1] s).disp.rs = .waitDma ∧ ((poll^[1] s).dsp (poll^[1] s).disp.dCh).busy = false ∧
    s.xc.cst = .draw ∧ s.xc.cLeft = 1#2 ∧ 1 ≤ 1 ∧ 1 < 2) ∧
    (q.xc.cst = .pop ∧ q.xc.fifo = [0#32, 0xFF000000#32] ++ [1#32] ∧
      ∀ w ∈ [0#32, 0xFF000000#32], w.toNat % 256 = 0) ∧
    (decodeStep boot.params.srcW (encode .dspPollWf) = .ok (.dspPollWf, []) ∧ Instr.dspPollWf.place = .poll ∧
      boot.params.engineAlone = false) := by
  refine ⟨⟨fun j h => ?_, by decide +kernel, by decide +kernel, by decide, by decide, by decide, by decide⟩,
    ⟨by decide, by decide, by simp⟩, by decide⟩
  obtain rfl : j = 0 := by omega
  decide

end Sys2Proof.Tests
end

section
/-! PROOF. The mixer (40_audio R136, R137). -/

namespace Sys2Proof.Machine

/-- Nothing wraps: the level is the clamped exact value, since the clamp keeps it within a byte (R137). -/
theorem mixLevel_toNat (x y vol : Half) :
    (mixLevel x y vol).toNat =
      min ((x.toNat / 256 + y.toNat / 256) * vol.toNat / 256) LEVEL_MAX := by
  have clamped : min ((x.toNat / 256 + y.toNat / 256) * vol.toNat / 256) LEVEL_MAX < 2 ^ 8 :=
    (Nat.min_le_right ..).trans_lt (by decide)
  rw [mixLevel, BitVec.toNat_ofNat, Nat.mod_eq_of_lt clamped]

/-- The logical right shift of R136 is the model's quotient by 256. -/
theorem toNat_ushiftRight_eight (x : Half) : (x >>> 8).toNat = x.toNat / 256 := by
  rw [BitVec.toNat_ushiftRight, Nat.shiftRight_eq_div_pow]

theorem exec_audMix (x y vol : Half) (s : State) :
    exec (.audMix x y vol) s = .next { s with ret := .level (mixLevel x y vol) } := rfl

/-- Settles O24: the level returned is `mixLevel`'s, whose quotients by 256 are the shifts of R136. -/
theorem mixSumsScalesAndClamps : Obligations.MixSumsScalesAndClamps := by
  intro x y vol s
  refine ⟨mixLevel x y vol, exec_audMix x y vol s, ?_⟩
  rw [mixLevel_toNat, toNat_ushiftRight_eight, toNat_ushiftRight_eight, Nat.shiftRight_eq_div_pow,
    LEVEL_MAX]

end Sys2Proof.Machine
end

section
/-! PROOF. The line engine: the frame request, addressing a frame, issuing and counting its rows (41_display R182,
R189, R191). -/

namespace Sys2Proof.Machine

/-- DSP.POLL.SF in its own render state takes the rule of that state (R187). -/
theorem exec_dspPollSf {s : State} (hrs : s.disp.rs = .startFrame) :
    exec .dspPollSf s = .next (pollStartFrame s) :=
  unlessReady_true (decide_eq_true hrs)

/-- DSP.POLL.WD in its own render state takes the rule of that state (R187). -/
theorem exec_dspPollWd {s : State} (hrs : s.disp.rs = .waitDma) :
    exec .dspPollWd s = .next (pollWaitDma s) :=
  unlessReady_true (decide_eq_true hrs)

theorem exec_dspIssue (s : State) : exec .dspIssue s = .next (issueLine s) := rfl

theorem exec_dspFramereq (s : State) :
    exec .dspFramereq s = .next { s with disp := { s.disp with frameReq := true } } := rfl

/-- Issuing a line does not count it: that is left to DSP.POLL.WD (R191, R192). -/
@[simp] theorem issueLine_row (s : State) : (issueLine s).disp.row = s.disp.row := by
  rw [issueLine_eq]

@[simp] theorem issueLine_params (s : State) : (issueLine s).params = s.params := by
  rw [issueLine_eq]

/-- The last row of the frame ends it (R191). -/
theorem countRow_last {s : State} (h : s.disp.row.toNat + 1 = s.params.frameH) :
    countRow s =
      { s with disp := { s.disp with rendering := false, row := 0#16, rs := .waitFrame } } :=
  if_pos h

/-- Any other row is followed by the next one (R191). -/
theorem countRow_more {s : State} (h : s.disp.row.toNat + 1 ≠ s.params.frameH) :
    countRow s = { s with disp := { s.disp with row := s.disp.row + 1#16, rs := .renderRow } } :=
  if_neg h

/-- Settles O45: the poll counts the row after issuing it, and issuing leaves both `ROW` and `FRAME_H`, so the test
for the last row is the one on the state before. -/
theorem waitDmaPollIssuesAndCounts : Obligations.WaitDmaPollIssuesAndCounts := by
  intro s hrs
  constructor
  · intro busy
    rw [exec_dspPollWd hrs, pollWaitDma_busy busy]
  · intro idle
    have polled : exec .dspPollWd s = .next (countRow (issueLine s)) := by
      rw [exec_dspPollWd hrs, pollWaitDma_idle idle]
    refine ⟨issueLine s, exec_dspIssue s, fun last => ?_, fun more => ?_⟩
    · rw [polled, countRow_last (by simpa using last)]
    · rw [polled, countRow_more (by simpa using more), issueLine_row]

/-- Settles O40: the effect of DSP.FRAMEREQ is the one R182 writes. -/
theorem frameRequestSetsTheFlag : Obligations.FrameRequestSetsTheFlag := exec_dspFramereq

/-- Settles O42, by the two cases of the previous channel. -/
theorem startFramePollAddressesTheFrame : Obligations.StartFramePollAddressesTheFrame := by
  intro s hrs
  constructor
  · intro idle
    rw [exec_dspPollSf hrs, pollStartFrame_idle idle]
  · intro busy
    rw [exec_dspPollSf hrs, pollStartFrame_busy busy]

end Sys2Proof.Machine
end

section
/-! PROOF. The encoding: steps and their bytes in both directions, the labels outside the table, the fields of a
command word (30_encoding R102 to R105, R117). -/

namespace Sys2Proof

/-! ## Operand readers undo the operand bytes -/

theorem readStart_bytes (src len prio : Word) (r : List Byte) :
    readStart ((Instr.audStart src len prio).operandBytes ++ r) = .ok (.audStart src len prio, r) := by
  simp [Instr.operandBytes, readStart, readWord_bytes]

theorem readMix_bytes (x y vol : Half) (r : List Byte) :
    readMix ((Instr.audMix x y vol).operandBytes ++ r) = .ok (.audMix x y vol, r) := by
  simp [Instr.operandBytes, readMix, readHalf_bytes]

theorem readOneHalf_bytes (mk : Half → Instr) (v : Half) (r : List Byte) :
    readOneHalf mk (halfBytes v ++ r) = .ok (mk v, r) := by
  simp [readOneHalf, readHalf_bytes]

theorem readOneWord_bytes (mk : Word → Instr) (v : Word) (r : List Byte) :
    readOneWord mk (wordBytes v ++ r) = .ok (mk v, r) := by
  simp [readOneWord, readWord_bytes]

/-- The selector byte of a well-formed palette announces its length (R225). -/
theorem paletteEntries_selector {palette : List Half} (h : wfPalette palette = true) :
    paletteEntries (paletteSelector palette) = some palette.length := by
  rcases (by simpa [wfPalette] using h : palette.length = 12 ∨ palette.length = 16) with h12 | h16
  · simp [paletteEntries, paletteSelector, h12]
  · simp [paletteEntries, paletteSelector, h16]

theorem readCall_bytes {srcW : Nat} {row : Byte} {pixels : List Byte} {palette : List Half} (r : List Byte)
    (h : (Instr.xcSubmitCall row pixels palette).wf srcW = true) :
    readCall srcW ((Instr.xcSubmitCall row pixels palette).operandBytes ++ r) =
      .ok (.xcSubmitCall row pixels palette, r) := by
  obtain ⟨hpix, hpal⟩ : pixels.length = srcW ∧ wfPalette palette = true := by
    simpa [Instr.wf, wfPixels] using h
  subst hpix
  simp [Instr.operandBytes, readCall, readByte, paletteEntries_selector hpal, readBytes_append,
    readHalves_append]

/-- What a label names is read back from its operand bytes, whatever follows them (R102, R117). -/
theorem stepOfLabel_operandBytes {srcW : Nat} {i : Instr} {l : Half} (hw : i.wf srcW = true)
    (hl : i.label = some l) (rest : List Byte) :
    stepOfLabel srcW l (i.operandBytes ++ rest) = .ok (i, rest) := by
  cases i
  case nop | drawline => cases hl
  case audStart => cases hl; exact readStart_bytes ..
  case audSetvol => cases hl; exact readOneHalf_bytes ..
  case xcSubmitCall => cases hl; exact readCall_bytes rest hw
  case audMix => cases hl; exact readMix_bytes ..
  case dspHmap => cases hl; exact readOneHalf_bytes ..
  case fifoPush => cases hl; exact readOneWord_bytes ..
  case audFill c | audBeat c | audDone c | audIrq c | audAbort c | audTrigger c | audSvc c | dspBeat c
      | dspDone c => cases hl; cases c <;> rfl
  all_goals cases hl; rfl

/-- The bytes of a step are its label's and its operands'. -/
theorem decodeStep_label (srcW : Nat) (l : Half) (ops : List Byte) :
    decodeStep srcW (halfBytes l ++ ops) = stepOfLabel srcW l ops := by
  simp [decodeStep, readHalf_bytes]

/-- Settles O2: the label is read back, and then the operands of its row. -/
theorem decodeOfEncodeIsTheStep : Obligations.DecodeOfEncodeIsTheStep := by
  intro srcW i rest hw hn
  obtain ⟨l, hl⟩ := Option.ne_none_iff_exists'.1 hn
  rw [encode_of_label hl, List.append_assoc, decodeStep_label]
  exact stepOfLabel_operandBytes hw hl rest

/-- Settles O3: the label is the one read, and what it answers has that label and those operand bytes. -/
theorem decodedBytesAreItsEncoding : Obligations.DecodedBytesAreItsEncoding := by
  intro srcW bs rest i h
  rw [decodeStep] at h
  split at h
  · cases h
  · rename_i label ops hread
    obtain ⟨hlabel, hops, hw⟩ := stepOfLabel_ok h
    rw [encode_of_label hlabel, List.append_assoc, hops, readHalf_ok hread]
    exact ⟨rfl, hw⟩

/-! ## Labels outside the table -/

/-- A row whose reader never answers that the label names no step leaves that answer to the rows after it. -/
theorem ite_noSuchStep_iff {c : Prop} [Decidable c] {row rows : Read Instr} {l : Half}
    (hrow : row ≠ .error (.noSuchStep l)) :
    (if c then row else rows) = .error (.noSuchStep l) ↔ ¬ c ∧ rows = .error (.noSuchStep l) := by
  by_cases h : c <;> simp [h, hrow]

/-- A label names no step exactly when no row of the table matches it (R102), row by row. -/
theorem stepOfLabel_noSuchStep_iff (srcW : Nat) (label : Half) (ops : List Byte) :
    stepOfLabel srcW label ops = .error (.noSuchStep label) ↔ ∀ r ∈ stepRows, label &&& r.2 ≠ r.1 := by
  have whole (x : Half) : x &&& 0xFFFF#16 = x := BitVec.and_allOnes
  simp only [stepOfLabel, ite_noSuchStep_iff, readStart_ne, readCall_ne, readMix_ne, readOneByte_ne,
    readOneHalf_ne, readOneWord_ne, reduceCtorEq, ne_eq, not_false_eq_true, and_true]
  simp [stepRows, whole]

/-- Settles O4: the rows of the decoder are those of the table, and a turn whose label is outside stops. -/
theorem labelOutsideTheTableNamesNoStep : Obligations.LabelOutsideTheTableNamesNoStep := by
  refine ⟨stepOfLabel_noSuchStep_iff, fun s b0 b1 ops ts hs hrows => ?_⟩
  have hdecode : decodeStep s.params.srcW (b0 :: b1 :: ops) = .error (.noSuchStep (halfOf b0 b1)) :=
    (stepOfLabel_noSuchStep_iff _ _ _).2 hrows
  simp [Machine.step, Machine.runTurn, hs, Machine.takeTurn, hdecode, Machine.stopFor]

/-! ## Command words -/

/-- The two fields of R105 do not meet, so the word is their sum. -/
theorem xcw_toNat (cmd row : Byte) : (xcw cmd row).toNat = row.toNat * 2 ^ 24 + cmd.toNat := by
  have hcmd : cmd.toNat < 2 ^ 24 := by omega
  rw [xcw, BitVec.toNat_or, BitVec.toNat_shiftLeft, BitVec.toNat_setWidth, BitVec.toNat_setWidth,
    Nat.mod_eq_of_lt (by omega : row.toNat < 2 ^ 32), Nat.mod_eq_of_lt (by omega : cmd.toNat < 2 ^ 32),
    Nat.mod_eq_of_lt (by rw [Nat.shiftLeft_eq]; omega), ← Nat.shiftLeft_add_eq_or_of_lt hcmd, Nat.shiftLeft_eq]

theorem cmdField_toNat (w : Word) : (cmdField w).toNat = w.toNat % 256 := by
  simp [cmdField, BitVec.extractLsb'_toNat]

theorem rowField_toNat (w : Word) : (rowField w).toNat = w.toNat / 2 ^ 24 := by
  rw [rowField, BitVec.extractLsb'_toNat, Nat.shiftRight_eq_div_pow]
  omega

theorem cmdField_eq_iff (w : Word) (c : Byte) : cmdField w = c ↔ w.toNat % 256 = c.toNat := by
  rw [← BitVec.toNat_inj, cmdField_toNat]

theorem rowField_eq (w : Word) : rowField w = BitVec.ofNat 8 (w.toNat / 2 ^ 24) := by
  rw [← rowField_toNat, BitVec.ofNat_toNat, BitVec.setWidth_eq]

/-- The opcode of NOP (R104). -/
theorem decodeCommand_nop {w : Word} (h : w.toNat % 256 = 0) : decodeCommand w = some .nop :=
  if_pos ((cmdField_eq_iff w 0).2 h)

/-- The opcode of DRAWLINE, with the row in the top byte (R104). -/
theorem decodeCommand_drawLine {w : Word} (h : w.toNat % 256 = 1) :
    decodeCommand w = some (.drawLine (BitVec.ofNat 8 (w.toNat / 2 ^ 24))) := by
  have hcmd : cmdField w = 1#8 := (cmdField_eq_iff w 1).2 h
  simp [decodeCommand, hcmd, rowField_eq]

/-- The reserved opcodes (R112 a). -/
theorem decodeCommand_reserved {w : Word} (h : 2 ≤ w.toNat % 256) : decodeCommand w = none := by
  have h0 : cmdField w ≠ 0#8 := fun e => by have := (cmdField_eq_iff w 0).1 e; simp at this; omega
  have h1 : cmdField w ≠ 1#8 := fun e => by have := (cmdField_eq_iff w 1).1 e; simp at this; omega
  simp [decodeCommand, h0, h1]

/-- The consumer reads back the command the producer encodes. -/
@[simp] theorem decodeCommand_encode (c : Command) : decodeCommand (encodeCommand c) = some c := by
  cases c with
  | nop => rfl
  | drawLine row =>
    have hword := xcw_toNat 1#8 row
    have hcmd : (xcw 1#8 row).toNat % 256 = 1 := by rw [hword]; simp; omega
    have hrow : (xcw 1#8 row).toNat / 2 ^ 24 = row.toNat := by rw [hword]; simp; omega
    rw [encodeCommand, decodeCommand_drawLine hcmd, hrow, BitVec.ofNat_toNat, BitVec.setWidth_eq]

/-- Settles O5, from the places of the two fields. -/
theorem commandWordFields : Obligations.CommandWordFields :=
  ⟨xcw_toNat, fun w => ⟨cmdField_toNat w, rowField_toNat w⟩, fun _ => decodeCommand_nop,
    fun _ => decodeCommand_drawLine, decodeCommand_encode⟩

/-- Settles O1: the decoder run on each word of the tables. -/
theorem specWordsDecodeToTheirRows : Obligations.SpecWordsDecodeToTheirRows := by
  unfold Obligations.SpecWordsDecodeToTheirRows
  decide

end Sys2Proof
end

section
/-! PROOF. The step and what an instruction can do: the state each rule answers once it is enabled, and the frame of
each engine (20_memory R80, R87; 60_exceptions R250, R251). -/

namespace Sys2Proof.Machine

/-! ## The effect of each instruction -/

/-- The state an instruction's rule answers once the rule is enabled; `exec_eq` ties it to `exec`. -/
def effect : Instr → State → State
  | .audStart src len prio, s => startSession src len prio s
  | .audStop, s => hardStop s
  | .audService, s => serviceStep s
  | .audSetvol vol, s => { s with audio := { s.audio with vol := vol, volV := true } }
  | .dspFramereq, s => { s with disp := { s.disp with frameReq := true } }
  | .xcSubmitCall row pixels palette, s => beginCall row pixels palette s
  | .xcSubmitAcq, s => acquireLine s
  | .xcSubmitPush, s => pushLine s
  | .xcPushnop, s => fifoEnqueue (encodeCommand .nop) s
  | .xcPop, s => popCommand s
  | .xcDrive, s => driveEngine s
  | .dspPollWf, s => pollWaitFrame s
  | .dspPollSf, s => pollStartFrame s
  | .dspPollRr, s => renderRow s
  | .dspPollWd, s => pollWaitDma s
  | .audFill c, s => ({ fillChannel c s with ret := .final (fillFinal s) }).spend
  | .audMix x y vol, s => { s with ret := .level (mixLevel x y vol) }
  | .audBeat c, s => beatChannel c s
  | .audDone c, s => completeChannel c s
  | .audIrq c, s => takeCompletion c s
  | .audAbort c, s => abortChannel c s
  | .audTrigger c, s => triggerChannel c s
  | .audSvc c, s => serviceChannel c s
  | .dspBeat k, s => sendPixel k s
  | .dspDone k, s => finishLine k s
  | .dspMap p, s => ({ raiseIf (!paletteValid s p) .uninit s with ret := .colour (mapColour s 0 p) }).spend
  | .dspHmap d, s => { s with ret := .source (hmap s.params d.toNat) }
  | .dspIssue, s => issueLine s
  | .fifoPush w, s => fifoEnqueue w s
  | .fifoPop, s => { fifoDequeue s with ret := .word (s.xc.fifo.headD 0#32) }
  | .nop, s => s
  | .drawline row, s => beginDraw row s

theorem exec_fifoPop (s : State) :
    exec .fifoPop s = .next (if stepEnabled .fifoPop s then effect .fifoPop s else s) := by
  cases h : s.xc.fifo <;>
    simp [exec, execFifoPop, h, stepEnabled, State.fifoEmpty, effect]

/-- All an instruction can answer: its effect where its rule enables it, and the same state where not (R10). -/
theorem exec_eq (i : Instr) (s : State) : exec i s = .next (if stepEnabled i s then effect i s else s) := by
  cases i
  case fifoPop => exact exec_fifoPop s
  case xcSubmitAcq | xcSubmitPush | xcPushnop | xcPop | xcDrive | dspPollWf | dspPollSf | dspPollRr | dspPollWd
      | audBeat c | audDone c | audIrq c | dspBeat k | dspDone k | fifoPush w => exact unlessReady_eq _ _ _
  all_goals rfl

theorem exec_enabled {i : Instr} {s : State} (h : stepEnabled i s = true) : exec i s = .next (effect i s) := by
  rw [exec_eq, if_pos h]

theorem exec_disabled {i : Instr} {s : State} (h : stepEnabled i s = false) : exec i s = .next s := by
  rw [exec_eq, h]; rfl

/-- What an instruction has answered. -/
theorem of_exec {i : Instr} {s t : State} (h : exec i s = .next t) :
    (stepEnabled i s = true ∧ t = effect i s) ∨ (stepEnabled i s = false ∧ t = s) := by
  rw [exec_eq, Host.Outcome.next.injEq] at h
  cases he : stepEnabled i s <;> simp [he] at h ⊢ <;> exact h.symm

/-! ## The enabling conditions -/

theorem beatReady_iff {c : Side} {s : State} : beatReady c s = true ↔ (s.aud c).busy = true ∧ (s.aud c).cnt ≠ 0#32 := by
  simp [beatReady]

theorem doneReady_iff {c : Side} {s : State} : doneReady c s = true ↔ (s.aud c).busy = true ∧ (s.aud c).cnt = 0#32 := by
  simp [doneReady]

theorem irqReady_iff {c : Side} {s : State} : irqReady c s = true ↔ (s.aud c).ip = true ∧ (s.aud c).ie = true := by
  simp [irqReady]

theorem pixelReady_iff {k : Side} {s : State} :
    pixelReady k s = true ↔ (s.dsp k).busy = true ∧ (s.dsp k).pos.toNat < s.params.lineW := by
  simp [pixelReady]

theorem lineDoneReady_iff {k : Side} {s : State} :
    lineDoneReady k s = true ↔ (s.dsp k).busy = true ∧ (s.dsp k).pos.toNat = s.params.lineW := by
  simp [lineDoneReady]

theorem acquireReady_iff {s : State} : acquireReady s = true ↔ s.xc.pst = .wait ∧ s.xc.lineBusy = false := by
  simp [acquireReady]

theorem fifoFull_eq_false_iff {s : State} : s.fifoFull = false ↔ s.xc.fifo.length < s.params.fifoDepth := by
  simp [State.fifoFull]

theorem pushReady_iff {s : State} :
    pushReady s = true ↔ s.xc.pst = .push ∧ s.xc.fifo.length < s.params.fifoDepth := by
  simp [pushReady, fifoFull_eq_false_iff]

theorem pushNopReady_iff {s : State} :
    pushNopReady s = true ↔ s.xc.pst = .idle ∧ s.xc.fifo.length < s.params.fifoDepth := by
  simp [pushNopReady, fifoFull_eq_false_iff]

theorem popReady_iff {s : State} : popReady s = true ↔ s.xc.cst = .pop ∧ s.xc.fifo ≠ [] := by
  simp [popReady, State.fifoEmpty]

theorem driveReady_iff {s : State} : driveReady s = true ↔ s.xc.cst = .draw := by
  simp [driveReady]

/-- An instruction whose enabling condition fails in one of its two parts changes nothing. -/
theorem exec_disabled_of {i : Instr} {s : State} {p q : Prop} (hready : stepEnabled i s = true ↔ p ∧ q)
    (h : ¬ p ∨ ¬ q) : exec i s = .next s :=
  exec_disabled (Bool.eq_false_iff.2 fun e => not_and_or.2 h (hready.1 e))

/-- Settles O10: each condition listed is one half of the enabling condition, negated. -/
theorem disabledStepChangesNothing : Obligations.DisabledStepChangesNothing := by
  refine ⟨fun c s => ⟨fun h => ?_, fun h => ?_, fun h => ?_⟩, fun k s => ⟨fun h => ?_, fun h => ?_⟩,
    fun s => ⟨fun h => ?_, fun h => ?_, fun h => ?_, fun h => ?_, fun h => ?_, fun h => ?_, fun h => ?_,
      fun h => ?_, fun h => ?_, fun h w => ?_, fun h => ?_⟩, fun i s => exec_disabled⟩
  · exact exec_disabled_of beatReady_iff (by simpa using h)
  · exact exec_disabled_of doneReady_iff (by simpa using h)
  · exact exec_disabled_of irqReady_iff (by simpa using h)
  · exact exec_disabled_of pixelReady_iff (by simpa using h)
  · exact exec_disabled_of lineDoneReady_iff (by simpa using h)
  · exact exec_disabled_of acquireReady_iff (by simpa using h)
  · exact exec_disabled_of pushReady_iff (by simpa using h)
  · exact exec_disabled_of pushNopReady_iff (by simpa using h)
  · exact exec_disabled_of popReady_iff (by simpa using h)
  · exact exec_disabled (Bool.eq_false_iff.2 (h ∘ driveReady_iff.1))
  · exact exec_disabled (decide_eq_false h)
  · exact exec_disabled (decide_eq_false h)
  · exact exec_disabled (decide_eq_false h)
  · exact exec_disabled (decide_eq_false h)
  · exact exec_disabled (by simpa [stepEnabled, State.fifoFull] using h)
  · exact exec_disabled (by simp [stepEnabled, State.fifoEmpty, h])

/-! ## The step -/

/-- A turn that names `i` takes `i`'s step, if no position keeps its agent elsewhere (R80). -/
theorem step_of_decode {s : State} {bytes rest : List Byte} {ts : List Turn} {i : Instr}
    (hs : s.schedule = .act bytes :: ts) (hd : decodeStep s.params.srcW bytes = .ok (i, rest)) :
    step s = takeStep i { s with schedule := ts } := by
  simp [step, runTurn, hs, takeTurn, hd]

theorem takeStep_held {i : Instr} {s : State} (h : held i s = true) : takeStep i s = .next s := if_pos h

theorem takeStep_free {i : Instr} {s : State} (h : held i s = false) : takeStep i s = exec i s :=
  if_neg (by simp [h])

/-- Settles O6: the three conditions are those under which no position keeps the agent. -/
theorem stepRunsTheDecodedInstruction : Obligations.StepRunsTheDecodedInstruction := by
  intro s bytes rest ts i hs hd hcall hservice hpoll
  rw [step_of_decode hs hd]
  exact takeStep_free (held_eq_false.2 ⟨hcall, hservice, hpoll⟩)

/-- Settles O7: the call keeps the compute core (R224). -/
theorem submitInProgressHoldsTheComputeCore : Obligations.SubmitInProgressHoldsTheComputeCore := by
  intro s bytes rest ts i hs hd hop hpst
  rw [step_of_decode hs hd, takeStep_held (by simp [held, heldByCall, hop, hpst])]

/-- Settles O9. -/
theorem noTurnLeavesTheStateAsItIs : Obligations.NoTurnLeavesTheStateAsItIs := by
  intro s hs
  simp [step, runTurn, hs]

/-- A list written from `a` on: its values there, and every other index as before. -/
theorem read?_overlay_listing {w : Nat} {m : Memory w} (hm : Memory.wf m) (a : Nat) (vs : List (BitVec w)) (x : Nat) :
    Memory.read? (Memory.overlay (Memory.listing a vs) m) x =
      if a ≤ x ∧ x < a + vs.length then vs[x - a]? else Memory.read? m x := by
  rw [read?_overlay (wf_listing _ _) hm, read?_listing]
  by_cases ha : a ≤ x
  · by_cases hx : x < a + vs.length
    · simp [ha, hx, List.getElem?_eq_getElem (show x - a < vs.length by omega)]
    · simp [hx, List.getElem?_eq_none (show vs.length ≤ x - a by omega)]
  · simp [ha]

/-- Settles O8: the write is an overlay of the bytes listed from `addr` on. -/
theorem producerRewritesOnlyItsBytes : Obligations.ProducerRewritesOnlyItsBytes := by
  intro s addr bytes ts hm hs
  refine ⟨produceBytes addr bytes { s with schedule := ts }, by simp [step, runTurn, hs, takeTurn],
    fun j hj => ?_, fun x hx => ?_, rfl⟩
  · exact (read?_overlay_listing hm addr bytes (addr + j)).trans
      (by rw [if_pos (by omega), Nat.add_sub_cancel_left])
  · exact (read?_overlay_listing hm addr bytes x).trans (if_neg (by omega))

end Sys2Proof.Machine
end

section
/-! PROOF. The frame of each engine: what its instructions leave unchanged, and which fault bits they may set (20_memory
R87; 10_state R51; 60_exceptions R251). -/

namespace Sys2Proof.Machine

/-! ## Sticky fault bits -/

/-- From `s` to `t` no fault bit is cleared, and only bits of `mask` are set. -/
structure RaisesOnly (mask : BitVec 8) (s t : State) : Prop where
  kept : ∀ j, s.fault.getLsbD j = true → t.fault.getLsbD j = true
  same : ∀ j, mask.getLsbD j = false → t.fault.getLsbD j = s.fault.getLsbD j

theorem RaisesOnly.of_fault_eq {mask : BitVec 8} {s t : State} (h : t.fault = s.fault) : RaisesOnly mask s t :=
  ⟨fun j hj => by rw [h, hj], fun j _ => by rw [h]⟩

theorem RaisesOnly.trans {mask : BitVec 8} {s t u : State} (h : RaisesOnly mask s t) (h' : RaisesOnly mask t u) :
    RaisesOnly mask s u :=
  ⟨fun j hj => h'.kept j (h.kept j hj), fun j hj => (h'.same j hj).trans (h.same j hj)⟩

/-- A larger mask allows the same bits. -/
theorem RaisesOnly.weaken {mask mask' : BitVec 8} {s t : State} (h : RaisesOnly mask s t)
    (hm : mask &&& ~~~mask' = 0#8) : RaisesOnly mask' s t := by
  refine ⟨h.kept, fun j hj => h.same j ?_⟩
  have hbit : (mask &&& ~~~mask').getLsbD j = false := by rw [hm]; exact BitVec.getLsbD_zero
  by_cases h8 : j < 8
  · rw [BitVec.getLsbD_and, BitVec.getLsbD_not, hj] at hbit
    simpa [h8] using hbit
  · exact BitVec.getLsbD_of_ge _ _ (by omega)

/-- Setting bits of the mask. -/
theorem RaisesOnly.of_or {mask bits : BitVec 8} {s t : State} (h : t.fault = s.fault ||| bits)
    (hb : bits &&& ~~~mask = 0#8) : RaisesOnly mask s t := by
  refine ⟨fun j hj => by simp [h, hj], fun j hj => ?_⟩
  have hbit : (bits &&& ~~~mask).getLsbD j = false := by rw [hb]; exact BitVec.getLsbD_zero
  by_cases h8 : j < 8
  · rw [BitVec.getLsbD_and, BitVec.getLsbD_not, hj] at hbit
    have hclear : bits.getLsbD j = false := by simpa [h8] using hbit
    rw [h, BitVec.getLsbD_or, hclear, Bool.or_false]
  · rw [BitVec.getLsbD_of_ge _ _ (by omega), BitVec.getLsbD_of_ge _ _ (by omega)]

/-- Bits set under a condition stay within the mask. -/
theorem ite_within {mask x y : BitVec 8} {p : Prop} [Decidable p] (hx : x &&& ~~~mask = 0#8)
    (hy : y &&& ~~~mask = 0#8) : (if p then x else y) &&& ~~~mask = 0#8 := by
  split <;> assumption

/-- Two conditional bits, both of the mask: the shape in which the model's rules set them. -/
theorem RaisesOnly.of_two {mask x x' y y' : BitVec 8} {p q : Prop} [Decidable p] [Decidable q] {s t : State}
    (h : t.fault = s.fault ||| (if p then x else x') ||| (if q then y else y'))
    (hx : x &&& ~~~mask = 0#8) (hx' : x' &&& ~~~mask = 0#8) (hy : y &&& ~~~mask = 0#8)
    (hy' : y' &&& ~~~mask = 0#8) : RaisesOnly mask s t :=
  RaisesOnly.of_or (h.trans (BitVec.or_assoc ..))
    (by rw [BitVec.and_comm, BitVec.and_or_distrib_left, BitVec.and_comm, ite_within hx hx',
          BitVec.and_comm, ite_within hy hy', BitVec.or_self])

theorem RaisesOnly.faulted {mask : BitVec 8} {s t : State} (h : RaisesOnly mask s t) {f : Violation}
    (hf : mask.getLsbD f.code = false) : t.faulted f = s.faulted f := h.same _ hf

/-! ## What the steps of each engine leave -/

/-- From `s` to `t` only the audio engine was written, besides fault bits of codes 0, 1, 2 and 5. -/
structure AudioStep (s t : State) : Prop where
  params : t.params = s.params
  disp : t.disp = s.disp
  xc : t.xc = s.xc
  srcMem : t.srcMem = s.srcMem
  schedule : t.schedule = s.schedule
  raises : RaisesOnly 0x27#8 s t

/-- From `s` to `t` only the display engine was written, besides fault bits of codes 3 and 5. -/
structure DisplayStep (s t : State) : Prop where
  params : t.params = s.params
  audio : t.audio = s.audio
  xc : t.xc = s.xc
  srcMem : t.srcMem = s.srcMem
  schedule : t.schedule = s.schedule
  raises : RaisesOnly 0x28#8 s t

/-- From `s` to `t` only the dispatcher was written, besides fault bits of codes 4 and 6. -/
structure DispatcherStep (s t : State) : Prop where
  params : t.params = s.params
  audio : t.audio = s.audio
  disp : t.disp = s.disp
  srcMem : t.srcMem = s.srcMem
  schedule : t.schedule = s.schedule
  raises : RaisesOnly 0x50#8 s t

theorem AudioStep.refl (s : State) : AudioStep s s := ⟨rfl, rfl, rfl, rfl, rfl, .of_fault_eq rfl⟩
theorem DisplayStep.refl (s : State) : DisplayStep s s := ⟨rfl, rfl, rfl, rfl, rfl, .of_fault_eq rfl⟩
theorem DispatcherStep.refl (s : State) : DispatcherStep s s := ⟨rfl, rfl, rfl, rfl, rfl, .of_fault_eq rfl⟩

theorem AudioStep.trans {s t u : State} (h : AudioStep s t) (h' : AudioStep t u) : AudioStep s u :=
  ⟨h'.params.trans h.params, h'.disp.trans h.disp, h'.xc.trans h.xc, h'.srcMem.trans h.srcMem,
    h'.schedule.trans h.schedule, h.raises.trans h'.raises⟩

theorem DisplayStep.trans {s t u : State} (h : DisplayStep s t) (h' : DisplayStep t u) : DisplayStep s u :=
  ⟨h'.params.trans h.params, h'.audio.trans h.audio, h'.xc.trans h.xc, h'.srcMem.trans h.srcMem,
    h'.schedule.trans h.schedule, h.raises.trans h'.raises⟩

/-! ### The audio engine -/

theorem startSession_audioStep (src len prio : Word) (s : State) : AudioStep s (startSession src len prio s) := by
  rw [startSession_eq]
  exact ⟨rfl, rfl, rfl, rfl, rfl, .of_two rfl (by decide) (by decide) (by decide) (by decide)⟩

theorem fillChannel_audioStep (c : Side) (s : State) : AudioStep s (fillChannel c s) := by
  rw [fillChannel_eq]
  exact ⟨rfl, rfl, rfl, rfl, rfl, .of_two rfl (by decide) (by decide) (by decide) (by decide)⟩

theorem fillAndPropagate_audioStep (c : Side) (s : State) : AudioStep s (fillAndPropagate c s) := by
  rw [fillAndPropagate_eq]
  exact ⟨rfl, rfl, rfl, rfl, rfl, .of_two rfl (by decide) (by decide) (by decide) (by decide)⟩

theorem setAud_audioStep (s : State) (c : Side) (x : AudioChan) : AudioStep s (s.setAud c x) :=
  ⟨rfl, rfl, rfl, rfl, rfl, .of_fault_eq rfl⟩

theorem spend_audioStep (s : State) : AudioStep s s.spend := ⟨rfl, rfl, rfl, rfl, rfl, .of_fault_eq rfl⟩

theorem serviceChannel_audioStep (c : Side) (s : State) : AudioStep s (serviceChannel c s) := by
  cases h : (s.aud c).refill
  · rw [serviceChannel_idle h]; exact .refl s
  · rw [serviceChannel_pending h]
    exact ((setAud_audioStep ..).trans (fillAndPropagate_audioStep ..)).trans (spend_audioStep _)

theorem serviceStep_audioStep (s : State) : AudioStep s (serviceStep s) := by
  have position (b : Bool) (u : State) : AudioStep u (setMidService b u) :=
    ⟨rfl, rfl, rfl, rfl, rfl, .of_fault_eq rfl⟩
  rcases serviceStep_cases s with ⟨_, e⟩ | ⟨_, e⟩ <;> rw [e]
  · exact (serviceChannel_audioStep ..).trans (position ..)
  · exact (serviceChannel_audioStep ..).trans (position ..)

theorem beatChannel_audioStep (c : Side) (s : State) : AudioStep s (beatChannel c s) := by
  rw [beatChannel_eq]
  exact ⟨rfl, rfl, rfl, rfl, rfl, .of_or rfl (ite_within (by decide) (by decide))⟩

theorem triggerChannel_audioStep (c : Side) (s : State) : AudioStep s (triggerChannel c s) := by
  rw [triggerChannel_eq]
  exact setAud_audioStep ..

theorem completeChannel_audioStep (c : Side) (s : State) : AudioStep s (completeChannel c s) := by
  rw [completeChannel_eq]
  exact (setAud_audioStep ..).trans (setAud_audioStep ..)

theorem takeCompletion_audioStep (c : Side) (s : State) : AudioStep s (takeCompletion c s) := by
  cases h : (s.aud c).term
  · rw [takeCompletion_rearm h]; exact setAud_audioStep ..
  · rw [takeCompletion_stop h]; exact ⟨rfl, rfl, rfl, rfl, rfl, .of_fault_eq rfl⟩

/-! ### The display engine -/

theorem pollWaitFrame_displayStep (s : State) : DisplayStep s (pollWaitFrame s) := by
  rw [pollWaitFrame]
  split
  · exact ⟨rfl, rfl, rfl, rfl, rfl, .of_fault_eq rfl⟩
  · exact .refl s

theorem pollStartFrame_displayStep (s : State) : DisplayStep s (pollStartFrame s) := by
  cases h : (s.dsp s.disp.dCh).busy
  · rw [pollStartFrame_idle h]; exact ⟨rfl, rfl, rfl, rfl, rfl, .of_fault_eq rfl⟩
  · rw [pollStartFrame_busy h]; exact .refl s

theorem renderRow_displayStep (s : State) : DisplayStep s (renderRow s) := by
  rw [renderRow_eq]
  exact ⟨rfl, rfl, rfl, rfl, rfl, .of_two rfl (by decide) (by decide) (by decide) (by decide)⟩

theorem issueLine_displayStep (s : State) : DisplayStep s (issueLine s) := by
  rw [issueLine_eq]
  exact ⟨rfl, rfl, rfl, rfl, rfl, .of_or rfl (ite_within (by decide) (by decide))⟩

theorem countRow_displayStep (s : State) : DisplayStep s (countRow s) := by
  rw [countRow]
  split <;> exact ⟨rfl, rfl, rfl, rfl, rfl, .of_fault_eq rfl⟩

theorem pollWaitDma_displayStep (s : State) : DisplayStep s (pollWaitDma s) := by
  cases h : (s.dsp s.disp.dCh).busy
  · rw [pollWaitDma_idle h]
    exact (issueLine_displayStep s).trans (countRow_displayStep _)
  · rw [pollWaitDma_busy h]; exact .refl s

theorem poll_displayStep (s : State) : DisplayStep s (poll s) := by
  rw [poll]
  split
  · exact pollWaitFrame_displayStep s
  · exact pollStartFrame_displayStep s
  · exact renderRow_displayStep s
  · exact pollWaitDma_displayStep s

/-! ### The dispatcher -/

theorem beginCall_dispatcherStep (row : Byte) (pixels : List Byte) (palette : List Half) (s : State) :
    DispatcherStep s (beginCall row pixels palette s) := by
  rw [beginCall]
  split
  · exact ⟨rfl, rfl, rfl, rfl, rfl, .of_fault_eq rfl⟩
  · exact ⟨rfl, rfl, rfl, rfl, rfl, .of_or (raise_fault ..) (by decide)⟩

theorem runCommand_dispatcherStep (w : Word) (s : State) : DispatcherStep s (runCommand w s) := by
  rw [runCommand]
  split
  · exact .refl s
  · exact ⟨rfl, rfl, rfl, rfl, rfl, .of_fault_eq rfl⟩
  · exact ⟨rfl, rfl, rfl, rfl, rfl, .of_or (raise_fault ..) (by decide)⟩

theorem popCommand_dispatcherStep (s : State) : DispatcherStep s (popCommand s) := by
  rw [popCommand]
  split
  · exact .refl s
  · have h := runCommand_dispatcherStep ‹Word› (fifoDequeue s)
    exact ⟨h.params, h.audio, h.disp, h.srcMem, h.schedule, h.raises.kept, h.raises.same⟩

theorem countLine_dispatcherStep (s : State) : DispatcherStep s (countLine s) := by
  rw [countLine]
  split <;> exact ⟨rfl, rfl, rfl, rfl, rfl, .of_fault_eq rfl⟩

/-- XC.DRIVE polls the engine, and then the dispatcher alone counts the line (R229). -/
theorem driveEngine_poll_then (s : State) : DispatcherStep (poll s) (driveEngine s) := by
  rw [driveEngine]
  split
  · exact countLine_dispatcherStep _
  · exact .refl _

/-! ## Which engine an instruction belongs to -/

/-- The engine an instruction writes. XC.DRIVE writes two: it polls the display engine and counts the line (R229). -/
inductive Engine where
  | audio
  | display
  | dispatcher
  | drive

/-- The engine of each row. -/
def engine : Instr → Engine
  | .audStart _ _ _ | .audStop | .audService | .audSetvol _ | .audFill _ | .audMix _ _ _ | .audBeat _ | .audDone _
  | .audIrq _ | .audAbort _ | .audTrigger _ | .audSvc _ => .audio
  | .dspFramereq | .dspPollWf | .dspPollSf | .dspPollRr | .dspPollWd | .dspBeat _ | .dspDone _ | .dspMap _
  | .dspHmap _ | .dspIssue => .display
  | .xcSubmitCall _ _ _ | .xcSubmitAcq | .xcSubmitPush | .xcPushnop | .xcPop | .fifoPush _ | .fifoPop | .nop
  | .drawline _ => .dispatcher
  | .xcDrive => .drive

theorem isAudio_iff {i : Instr} : isAudio i = true ↔ engine i = .audio := by
  cases i <;> simp [isAudio, engine]

theorem eq_xcDrive {i : Instr} (h : engine i = .drive) : i = .xcDrive := by
  cases i <;> simp only [engine, reduceCtorEq] at h
  rfl

/-! ## The frame of every effect -/

/-- Every instruction of the audio pipeline is an audio step. -/
theorem effect_audioStep {i : Instr} (hi : engine i = .audio) (s : State) : AudioStep s (effect i s) := by
  cases i <;> simp only [engine, reduceCtorEq] at hi
  case audStart => exact startSession_audioStep ..
  case audService => exact serviceStep_audioStep s
  case audFill c =>
    exact (fillChannel_audioStep c s).trans ⟨rfl, rfl, rfl, rfl, rfl, .of_fault_eq rfl⟩
  case audBeat => exact beatChannel_audioStep ..
  case audDone => exact completeChannel_audioStep ..
  case audIrq => exact takeCompletion_audioStep ..
  case audTrigger => exact triggerChannel_audioStep ..
  case audSvc => exact serviceChannel_audioStep ..
  case audStop | audSetvol | audMix | audAbort => exact ⟨rfl, rfl, rfl, rfl, rfl, .of_fault_eq rfl⟩

theorem effect_displayStep {i : Instr} (hi : engine i = .display) (s : State) : DisplayStep s (effect i s) := by
  cases i <;> simp only [engine, reduceCtorEq] at hi
  case dspPollWf => exact pollWaitFrame_displayStep s
  case dspPollSf => exact pollStartFrame_displayStep s
  case dspPollRr => exact renderRow_displayStep s
  case dspPollWd => exact pollWaitDma_displayStep s
  case dspIssue => exact issueLine_displayStep s
  case dspMap p =>
    refine ⟨raiseIf_params .., raiseIf_audio .., raiseIf_xc .., raiseIf_srcMem .., raiseIf_schedule ..,
      .of_or (raiseIf_fault ..) (ite_within (by decide) (by decide))⟩
  case dspFramereq | dspBeat | dspDone | dspHmap => exact ⟨rfl, rfl, rfl, rfl, rfl, .of_fault_eq rfl⟩

theorem effect_dispatcherStep {i : Instr} (hi : engine i = .dispatcher) (s : State) :
    DispatcherStep s (effect i s) := by
  cases i <;> simp only [engine, reduceCtorEq] at hi
  case xcSubmitCall => exact beginCall_dispatcherStep ..
  case xcPop => exact popCommand_dispatcherStep s
  all_goals exact ⟨rfl, rfl, rfl, rfl, rfl, .of_fault_eq rfl⟩

/-! ## The frame of every instruction -/

theorem exec_audioStep {i : Instr} {s t : State} (hi : engine i = .audio) (h : exec i s = .next t) : AudioStep s t := by
  rcases of_exec h with ⟨_, rfl⟩ | ⟨_, rfl⟩
  · exact effect_audioStep hi s
  · exact .refl t

theorem exec_displayStep {i : Instr} {s t : State} (hi : engine i = .display) (h : exec i s = .next t) :
    DisplayStep s t := by
  rcases of_exec h with ⟨_, rfl⟩ | ⟨_, rfl⟩
  · exact effect_displayStep hi s
  · exact .refl t

theorem exec_dispatcherStep {i : Instr} {s t : State} (hi : engine i = .dispatcher) (h : exec i s = .next t) :
    DispatcherStep s t := by
  rcases of_exec h with ⟨_, rfl⟩ | ⟨_, rfl⟩
  · exact effect_dispatcherStep hi s
  · exact .refl t

/-- XC.DRIVE, enabled or not: a display step, and then one of the dispatcher. -/
theorem exec_xcDrive_steps {s t : State} (h : exec .xcDrive s = .next t) :
    ∃ u, DisplayStep s u ∧ DispatcherStep u t := by
  rcases of_exec h with ⟨_, rfl⟩ | ⟨_, rfl⟩
  · exact ⟨poll s, poll_displayStep s, driveEngine_poll_then s⟩
  · exact ⟨t, .refl t, .refl t⟩

/-- What every instruction outside the audio pipeline does: a display step and then one of the dispatcher, either of
which may be nothing. -/
theorem exec_other_steps {i : Instr} {s t : State} (hi : engine i ≠ .audio) (h : exec i s = .next t) :
    ∃ u, DisplayStep s u ∧ DispatcherStep u t := by
  cases he : engine i
  case audio => exact absurd he hi
  case display => exact ⟨t, exec_displayStep he h, .refl t⟩
  case dispatcher => exact ⟨s, .refl s, exec_dispatcherStep he h⟩
  case drive =>
    obtain rfl := eq_xcDrive he
    exact exec_xcDrive_steps h

/-- The audio engine as an instruction of another pipeline leaves it. -/
theorem exec_audio_eq {i : Instr} {s t : State} (hi : engine i ≠ .audio) (h : exec i s = .next t) :
    t.audio = s.audio := by
  obtain ⟨u, hd, hx⟩ := exec_other_steps hi h
  exact hx.audio.trans hd.audio

theorem exec_raises {i : Instr} {s t : State} (h : exec i s = .next t) : RaisesOnly 0x7F#8 s t := by
  by_cases hi : engine i = .audio
  · exact (exec_audioStep hi h).raises.weaken (by decide)
  · obtain ⟨u, hd, hx⟩ := exec_other_steps hi h
    exact (hd.raises.weaken (by decide)).trans (hx.raises.weaken (by decide))

/-- Settles O18: every instruction only sets bits, and bit 7 is no violation's. -/
theorem faultBitsAreSticky : Obligations.FaultBitsAreSticky := by
  refine ⟨fun i s t h => ?_, fun p => rfl⟩
  have hr := exec_raises h
  exact ⟨hr.kept, hr.same 7 (by decide)⟩

/-- Settles O20, from the frame of each engine. -/
theorem noInstructionWritesParametersOrSource : Obligations.NoInstructionWritesParametersOrSource := by
  intro i s t h
  by_cases hi : engine i = .audio
  · have ha := exec_audioStep hi h
    exact ⟨ha.params, ha.srcMem, ha.schedule⟩
  · obtain ⟨u, hd, hx⟩ := exec_other_steps hi h
    exact ⟨hx.params.trans hd.params, hx.srcMem.trans hd.srcMem, hx.schedule.trans hd.schedule⟩

/-- Settles O21, from the frame of each engine. -/
theorem pipelinesWriteOnlyTheirOwnState : Obligations.PipelinesWriteOnlyTheirOwnState := by
  intro i s t h
  refine ⟨fun hi => ?_, fun hi => exec_audio_eq (fun e => by simp [isAudio_iff.2 e] at hi) h⟩
  have ha := exec_audioStep (isAudio_iff.1 hi) h
  exact ⟨ha.disp, ha.xc⟩

end Sys2Proof.Machine
end

section
/-! PROOF. No pipeline reads the other (20_memory R87): an effect on a pipeline is the same when everything the other
pipeline holds is taken from another state. -/

namespace Sys2Proof.Machine

/-! ## The audio pipeline -/

/-- `s` with everything the audio pipeline does not read taken from `u`. -/
def State.restFrom (s u : State) : State :=
  { s with disp := u.disp, xc := u.xc, ret := u.ret, schedule := u.schedule }

/-- Two states that agree on what the audio pipeline reads differ in the rest. -/
theorem restFrom_eq {s s' : State} (hparams : s.params = s'.params) (haudio : s.audio = s'.audio)
    (hfault : s.fault = s'.fault) (hsrc : s.srcMem = s'.srcMem) (hdraws : s.draws = s'.draws) :
    s.restFrom s' = s' := by
  rw [State.restFrom, hparams, haudio, hfault, hsrc, hdraws]

section
variable (s u : State) (c : Side)

theorem raiseIf_restFrom (b : Bool) (f : Violation) :
    raiseIf b f (s.restFrom u) = (raiseIf b f s).restFrom u := by
  cases b <;> rfl

theorem prepareSession_restFrom (src len prio : Word) :
    prepareSession src len prio (s.restFrom u) = (prepareSession src len prio s).restFrom u := by
  rw [prepareSession_eq, prepareSession_eq]; rfl

theorem fillChannel_restFrom : fillChannel c (s.restFrom u) = (fillChannel c s).restFrom u := by
  rw [fillChannel_eq, fillChannel_eq]; rfl

theorem fillAndPropagate_restFrom : fillAndPropagate c (s.restFrom u) = (fillAndPropagate c s).restFrom u := by
  rw [fillAndPropagate_eq, fillAndPropagate_eq]; rfl

theorem triggerChannel_restFrom : triggerChannel c (s.restFrom u) = (triggerChannel c s).restFrom u := by
  rw [triggerChannel_eq, triggerChannel_eq]; rfl

theorem armChannel_restFrom : armChannel c (s.restFrom u) = (armChannel c s).restFrom u := rfl

theorem startSession_restFrom (src len prio : Word) :
    startSession src len prio (s.restFrom u) = (startSession src len prio s).restFrom u := by
  simp only [startSession, primeBuffers, prepareSession_restFrom, fillAndPropagate_restFrom, armChannel_restFrom,
    triggerChannel_restFrom]
  rfl

theorem serviceChannel_restFrom : serviceChannel c (s.restFrom u) = (serviceChannel c s).restFrom u := by
  have hrefill : ((s.restFrom u).aud c).refill = (s.aud c).refill := rfl
  cases h : (s.aud c).refill
  · rw [serviceChannel_idle h, serviceChannel_idle (hrefill.trans h)]
  · rw [serviceChannel_pending h, serviceChannel_pending (hrefill.trans h)]
    exact congrArg State.spend (fillAndPropagate_restFrom (s.setAud c { s.aud c with refill := false }) u c)

theorem serviceStep_restFrom : serviceStep (s.restFrom u) = (serviceStep s).restFrom u := by
  have hmid : (s.restFrom u).audio.midService = s.audio.midService := rfl
  rw [serviceStep, serviceStep, hmid, serviceChannel_restFrom, serviceChannel_restFrom]
  split <;> rfl

theorem beatChannel_restFrom : beatChannel c (s.restFrom u) = (beatChannel c s).restFrom u := by
  have hpast := raiseIf_restFrom s u (!decide ((s.aud c).rd.toNat < CAP)) .audOverrun
  exact congrArg (fun x => (pwmOut (beatLevel c s) x).setAud c
    { (pwmOut (beatLevel c s) x).aud c with rd := (s.aud c).rd + 1#32, cnt := (s.aud c).cnt - 1#32 }) hpast

theorem completeChannel_restFrom : completeChannel c (s.restFrom u) = (completeChannel c s).restFrom u := by
  rw [completeChannel_eq, completeChannel_eq]; rfl

theorem takeCompletion_restFrom : takeCompletion c (s.restFrom u) = (takeCompletion c s).restFrom u := by
  have hterm : ((s.restFrom u).aud c).term = (s.aud c).term := rfl
  cases h : (s.aud c).term
  · rw [takeCompletion_rearm h, takeCompletion_rearm (hterm.trans h)]; rfl
  · rw [takeCompletion_stop h, takeCompletion_stop (hterm.trans h)]; rfl

end

/-- What an audio effect does to the audio engine and to `FAULT` does not depend on the rest. -/
theorem effect_restFrom {i : Instr} (hi : engine i = .audio) (s u : State) :
    (effect i (s.restFrom u)).audio = (effect i s).audio ∧
      (effect i (s.restFrom u)).fault = (effect i s).fault := by
  have commutes {t t' : State} (h : t = t'.restFrom u) : t.audio = t'.audio ∧ t.fault = t'.fault := by
    rw [h]; exact ⟨rfl, rfl⟩
  cases i <;> simp only [engine, reduceCtorEq] at hi
  case audStart => exact commutes (startSession_restFrom ..)
  case audService => exact commutes (serviceStep_restFrom ..)
  case audFill c =>
    obtain ⟨haudio, hfault⟩ := commutes (fillChannel_restFrom s u c)
    exact ⟨haudio, hfault⟩
  case audBeat => exact commutes (beatChannel_restFrom ..)
  case audDone => exact commutes (completeChannel_restFrom ..)
  case audIrq => exact commutes (takeCompletion_restFrom ..)
  case audTrigger => exact commutes (triggerChannel_restFrom ..)
  case audSvc => exact commutes (serviceChannel_restFrom ..)
  case audStop | audSetvol | audMix | audAbort => exact ⟨rfl, rfl⟩

/-- Whether an audio instruction is enabled does not depend on the rest. -/
theorem stepEnabled_restFrom {i : Instr} (hi : engine i = .audio) (s u : State) :
    stepEnabled i (s.restFrom u) = stepEnabled i s := by
  cases i <;> simp only [engine, reduceCtorEq] at hi <;> rfl

/-! ## The display pipeline and the dispatcher -/

/-- `s` with everything these two do not read taken from `u`. -/
def State.audioFrom (s u : State) : State :=
  { s with audio := u.audio, fault := u.fault, srcMem := u.srcMem, ret := u.ret, schedule := u.schedule }

/-- Two states that agree on what the display engine and the dispatcher read differ in the rest. -/
theorem audioFrom_eq {s s' : State} (hparams : s.params = s'.params) (hdisp : s.disp = s'.disp)
    (hxc : s.xc = s'.xc) (hdraws : s.draws = s'.draws) : s.audioFrom s' = s' := by
  rw [State.audioFrom, hparams, hdisp, hxc, hdraws]

/-- What the dispatcher counts does not depend on the engine it has polled. -/
theorem countLine_xc_congr {s t : State} (h : s.xc = t.xc) : (countLine s).xc = (countLine t).xc := by
  simp only [countLine, h]
  split <;> rfl

/-- XC.DRIVE's dispatcher: the line is counted if the poll issues it (R229). -/
theorem driveEngine_xc (s : State) : (driveEngine s).xc = if willIssue s then (countLine s).xc else s.xc := by
  rw [driveEngine]
  split
  · exact countLine_xc_congr (poll_displayStep s).xc
  · exact (poll_displayStep s).xc

section
variable (s u : State)

theorem pollWaitFrame_audioFrom : (pollWaitFrame (s.audioFrom u)).disp = (pollWaitFrame s).disp := by
  have hreq : (s.audioFrom u).disp.frameReq = s.disp.frameReq := rfl
  rw [pollWaitFrame, pollWaitFrame, hreq]
  split <;> rfl

theorem pollStartFrame_audioFrom : (pollStartFrame (s.audioFrom u)).disp = (pollStartFrame s).disp := by
  cases h : (s.dsp s.disp.dCh).busy
  · rw [pollStartFrame_idle h, pollStartFrame_idle (s := s.audioFrom u) h]; rfl
  · rw [pollStartFrame_busy h, pollStartFrame_busy (s := s.audioFrom u) h]; rfl

theorem renderRow_audioFrom : (renderRow (s.audioFrom u)).disp = (renderRow s).disp := by
  rw [renderRow_eq, renderRow_eq]; rfl

theorem issueLine_audioFrom : (issueLine (s.audioFrom u)).disp = (issueLine s).disp := by
  rw [issueLine_eq, issueLine_eq]; rfl

/-- Counting a row reads the display engine and `FRAME_H` alone. -/
theorem countRow_disp_congr {s t : State} (hdisp : s.disp = t.disp) (hparams : s.params = t.params) :
    (countRow s).disp = (countRow t).disp := by
  simp only [countRow, hdisp, hparams]
  split <;> rfl

theorem pollWaitDma_audioFrom : (pollWaitDma (s.audioFrom u)).disp = (pollWaitDma s).disp := by
  cases h : (s.dsp s.disp.dCh).busy
  · rw [pollWaitDma_idle h, pollWaitDma_idle (s := s.audioFrom u) h]
    exact countRow_disp_congr (issueLine_audioFrom s u) (by simp only [issueLine_params]; rfl)
  · rw [pollWaitDma_busy h, pollWaitDma_busy (s := s.audioFrom u) h]; rfl

theorem poll_audioFrom : (poll (s.audioFrom u)).disp = (poll s).disp := by
  have hrs : (s.audioFrom u).disp.rs = s.disp.rs := rfl
  rw [poll, poll, hrs]
  cases s.disp.rs
  · exact pollWaitFrame_audioFrom s u
  · exact pollStartFrame_audioFrom s u
  · exact renderRow_audioFrom s u
  · exact pollWaitDma_audioFrom s u

theorem beginCall_audioFrom (row : Byte) (pixels : List Byte) (palette : List Half) :
    (beginCall row pixels palette (s.audioFrom u)).xc = (beginCall row pixels palette s).xc := by
  have hpst : (s.audioFrom u).xc.pst = s.xc.pst := rfl
  rw [beginCall, beginCall, hpst]
  split <;> rfl

theorem runCommand_xc_congr {s t : State} (w : Word) (hxc : s.xc = t.xc) (hparams : s.params = t.params) :
    (runCommand w s).xc = (runCommand w t).xc := by
  rw [runCommand, runCommand]
  split <;> simp [beginDraw, hxc, hparams]

theorem popCommand_audioFrom : (popCommand (s.audioFrom u)).xc = (popCommand s).xc := by
  cases h : s.xc.fifo with
  | nil =>
    have hpop (t : State) (ht : t.xc.fifo = []) : popCommand t = t := by rw [popCommand, ht]
    rw [hpop s h, hpop (s.audioFrom u) h]; rfl
  | cons w ws =>
    rw [popCommand_cons h, popCommand_cons (s := s.audioFrom u) h]
    exact runCommand_xc_congr w rfl rfl

theorem driveEngine_audioFrom :
    (driveEngine (s.audioFrom u)).disp = (driveEngine s).disp ∧
      (driveEngine (s.audioFrom u)).xc = (driveEngine s).xc := by
  constructor
  · rw [(driveEngine_poll_then _).disp, (driveEngine_poll_then s).disp, poll_audioFrom]
  · rw [driveEngine_xc, driveEngine_xc, countLine_xc_congr (s := s.audioFrom u) (t := s) rfl]
    rfl

end

/-- What an effect does to the display engine and the dispatcher does not depend on the audio engine. -/
theorem effect_audioFrom {i : Instr} (hi : engine i ≠ .audio) (s u : State) :
    (effect i (s.audioFrom u)).disp = (effect i s).disp ∧ (effect i (s.audioFrom u)).xc = (effect i s).xc := by
  have display (hd : engine i = .display) (h : (effect i (s.audioFrom u)).disp = (effect i s).disp) :
      (effect i (s.audioFrom u)).disp = (effect i s).disp ∧ (effect i (s.audioFrom u)).xc = (effect i s).xc :=
    ⟨h, (effect_displayStep hd _).xc.trans (effect_displayStep hd s).xc.symm⟩
  have dispatcher (hx : engine i = .dispatcher) (h : (effect i (s.audioFrom u)).xc = (effect i s).xc) :
      (effect i (s.audioFrom u)).disp = (effect i s).disp ∧ (effect i (s.audioFrom u)).xc = (effect i s).xc :=
    ⟨(effect_dispatcherStep hx _).disp.trans (effect_dispatcherStep hx s).disp.symm, h⟩
  cases i <;> simp only [engine, ne_eq, reduceCtorEq, not_false_eq_true, not_true_eq_false] at hi
  case dspPollWf => exact display rfl (pollWaitFrame_audioFrom s u)
  case dspPollSf => exact display rfl (pollStartFrame_audioFrom s u)
  case dspPollRr => exact display rfl (renderRow_audioFrom s u)
  case dspPollWd => exact display rfl (pollWaitDma_audioFrom s u)
  case dspIssue => exact display rfl (issueLine_audioFrom s u)
  case dspMap p => exact display rfl ((raiseIf_disp ..).trans (raiseIf_disp (!paletteValid s p) .uninit s).symm)
  case xcSubmitCall => exact dispatcher rfl (beginCall_audioFrom s u ..)
  case xcPop => exact dispatcher rfl (popCommand_audioFrom s u)
  case xcDrive => exact driveEngine_audioFrom s u
  all_goals exact ⟨rfl, rfl⟩

/-- Whether such an instruction is enabled does not depend on the audio engine. -/
theorem stepEnabled_audioFrom {i : Instr} (hi : engine i ≠ .audio) (s u : State) :
    stepEnabled i (s.audioFrom u) = stepEnabled i s := by
  cases i <;> simp only [engine, ne_eq, reduceCtorEq, not_false_eq_true, not_true_eq_false] at hi <;> rfl

/-- Settles O22: the second run is the first with what the pipeline does not read exchanged. -/
theorem pipelinesReadOnlyTheirOwnState : Obligations.PipelinesReadOnlyTheirOwnState := by
  intro i s s' t t' h h' hparams hdraws
  rw [exec_eq, Host.Outcome.next.injEq] at h h'
  subst h h'
  refine ⟨fun hi haudio hsrc hfault => ?_, fun hi hdisp hxc => ?_⟩
  · have hi := isAudio_iff.1 hi
    rw [← restFrom_eq hparams haudio hfault hsrc hdraws, stepEnabled_restFrom hi]
    split
    · obtain ⟨ha, hf⟩ := effect_restFrom hi s s'
      exact ⟨ha.symm, hf.symm⟩
    · exact ⟨rfl, rfl⟩
  · have hi : engine i ≠ .audio := fun e => by simp [isAudio_iff.2 e] at hi
    rw [← audioFrom_eq hparams hdisp hxc hdraws, stepEnabled_audioFrom hi]
    split
    · obtain ⟨hd, hx⟩ := effect_audioFrom hi s s'
      exact ⟨hd.symm, hx.symm⟩
    · exact ⟨rfl, rfl⟩

end Sys2Proof.Machine
end

section
/-! PROOF. The audio engine, one operation at a time (40_audio R132 to R134, R139 to R144; 30_encoding R114, R115;
20_memory R74, R77). -/

namespace Sys2Proof.Machine

/-! ## Stopping, aborting, triggering -/

/-- Settles O25. -/
theorem setVolumeWritesTheVolume : Obligations.SetVolumeWritesTheVolume := fun _ _ => rfl

/-- Settles O26, from all that the hard stop writes. -/
theorem stopAbortsBothChannelsAndSilences : Obligations.StopAbortsBothChannelsAndSilences := by
  intro s
  exact ⟨hardStop s, pwmValue s.params.silence s, rfl, pwmValue_eq, fun c => by cases c <;> rfl, rfl, rfl, rfl, rfl⟩

/-- Settles O27: the write of one channel. -/
theorem abortEndsTheRun : Obligations.AbortEndsTheRun := fun c s =>
  ⟨abortChannel c s, rfl, aud_setAud_same .., aud_setAud_other .., rfl⟩

/-- A trigger writes its own channel only. -/
theorem triggerChannel_frame (c : Side) (s : State) :
    (triggerChannel c s).aud c.other = s.aud c.other ∧
      triggerChannel c s = { s with audio := { s.audio with chan := (triggerChannel c s).audio.chan } } := by
  rw [triggerChannel_eq]
  exact ⟨aud_setAud_other .., rfl⟩

/-- Settles O28, by whether the channel is busy. -/
theorem triggerStartsAnIdleChannel : Obligations.TriggerStartsAnIdleChannel := by
  intro c s
  obtain ⟨hother, hframe⟩ := triggerChannel_frame c s
  refine ⟨triggerChannel c s, rfl, fun idle => ?_, fun busy => ?_, hother, hframe⟩
  · rw [triggerChannel_idle idle, aud_setAud_same]
  · rw [triggerChannel_busy busy]

/-! ## The steps of a channel -/

theorem exec_audBeat {c : Side} {s : State} (busy : (s.aud c).busy = true) (left : (s.aud c).cnt ≠ 0#32) :
    exec (.audBeat c) s = .next (beatChannel c s) :=
  exec_enabled (i := .audBeat c) (beatReady_iff.2 ⟨busy, left⟩)

theorem exec_audDone {c : Side} {s : State} (busy : (s.aud c).busy = true) (done : (s.aud c).cnt = 0#32) :
    exec (.audDone c) s = .next (completeChannel c s) :=
  exec_enabled (i := .audDone c) (doneReady_iff.2 ⟨busy, done⟩)

theorem exec_audIrq {c : Side} {s : State} (pending : (s.aud c).ip = true) (enabled : (s.aud c).ie = true) :
    exec (.audIrq c) s = .next (takeCompletion c s) :=
  exec_enabled (i := .audIrq c) (irqReady_iff.2 ⟨pending, enabled⟩)

/-- The level a beat reads inside the block of a run within the contract: the entry at the read pointer (R140). -/
theorem beatLevel_of_read {c : Side} {s : State} {x : Byte} (inside : (s.aud c).rd.toNat < CAP)
    (kept : (s.aud c).raced = false) (h : Memory.read? (s.aud c).block (s.aud c).rd.toNat = some x) :
    beatLevel c s = x := by
  simp [beatLevel, inside, kept, h]

/-- Settles O29, from all that a beat writes. -/
theorem beatOutputsTheEntryAtTheReadPointer : Obligations.BeatOutputsTheEntryAtTheReadPointer := by
  intro c s busy left
  refine ⟨beatChannel c s, (beatChannel c s).audio.pwm, exec_audBeat busy left, fun inside kept clean x hx => ?_, rfl,
    ?_, ?_, ?_, ?_, ?_⟩
  · have hpast : raiseIf (!decide ((s.aud c).rd.toNat < CAP)) .audOverrun s = s := by
      simp [raiseIf, show (s.aud c).rd.toNat < CAP from inside]
    rw [beatChannel_eq, hpast, pwmValue_eq clean, beatLevel_of_read inside kept hx]
  · rw [beatChannel_eq]
  · rw [beatChannel_eq]
    by_cases h : (s.aud c).rd.toNat < 1024
    · simp [CAP, faultBits, h, Nat.not_le.2 h]
    · simp [CAP, faultBits, h, Nat.le_of_not_lt h]
  · rw [beatChannel_eq]
    exact Pair.get_set_same ..
  · rw [beatChannel_eq]
    exact Pair.get_set_other ..
  · rw [beatChannel_eq]

/-- Settles O30, from all that the completion of a run writes. -/
theorem doneRaisesTheInterruptAndChains : Obligations.DoneRaisesTheInterruptAndChains := by
  intro c s busy done
  refine ⟨completeChannel c s, exec_audDone busy done, ?_, fun idle => ?_, fun running => ?_, ?_⟩
  · rw [completeChannel_eq, aud_other_setAud, aud_setAud_same]
  · rw [completeChannel_eq, aud_setAud_same]
    simp [idle]
  · have hother : (requestCompletion c s).aud c.other = s.aud c.other := aud_setAud_other ..
    rw [completeChannel, triggerChannel_busy (by rw [hother, running]), hother]
  · rw [completeChannel_eq]
    rfl

/-- Settles O31, by whether the termination was requested. -/
theorem completionHandlerTerminatesOrRearms : Obligations.CompletionHandlerTerminatesOrRearms := by
  intro c s pending enabled
  refine ⟨takeCompletion c s, exec_audIrq pending enabled, (takeCompletion_audioStep c s).xc,
    fun goesOn => ?_, fun ends => ?_⟩
  · rw [takeCompletion_rearm goesOn]
    exact ⟨aud_setAud_same .., aud_setAud_other .., rfl⟩
  · rw [takeCompletion_stop ends]
    exact ⟨pwmValue s.params.silence s, pwmValue_eq,
      (Pair.get_other_set ..).trans (Pair.get_set_same ..), Pair.get_set_same .., rfl, rfl⟩

/-! ## The service of a buffer -/

theorem exec_audFill (c : Side) (s : State) :
    exec (.audFill c) s = .next ({ fillChannel c s with ret := .final (fillFinal s) }).spend := rfl

theorem exec_audSvc (c : Side) (s : State) : exec (.audSvc c) s = .next (serviceChannel c s) := rfl

theorem fillAndPropagate_eq_fill (c : Side) (s : State) :
    fillAndPropagate c s = (fillChannel c s).setAud c { (fillChannel c s).aud c with term := fillFinal s } := rfl

/-- Settles O36: the refill is the fill, after which its result becomes the termination request. -/
theorem serviceRefillsAndPropagates : Obligations.ServiceRefillsAndPropagates := by
  intro c s
  refine ⟨fun none => by rw [exec_audSvc, serviceChannel_idle none], fun asked => ?_⟩
  refine ⟨_, serviceChannel c s, _, exec_audFill .., rfl, exec_audSvc .., ?_, ?_, ?_⟩
  · rw [serviceChannel_pending asked, spend_aud, fillAndPropagate_eq_fill, aud_setAud_same]
    rfl
  · rw [serviceChannel_pending asked, spend_aud, fillAndPropagate_aud_other, aud_setAud_other]
  · have hret : (fillChannel c (s.setAud c { s.aud c with refill := false })).ret = s.ret := by
      rw [fillChannel_eq]; rfl
    rw [serviceChannel_pending asked, fillAndPropagate_eq_fill, ← hret]
    rfl

theorem exec_audService (s : State) : exec .audService s = .next (serviceStep s) := rfl

/-- AUD.SERVICE outside one: the first of its steps (R133). -/
theorem serviceStep_first {s : State} (h : s.audio.midService = false) :
    serviceStep s = setMidService true (serviceChannel .a s) := by
  simp [serviceStep, h]

/-- AUD.SERVICE between its two steps: the second (R133). -/
theorem serviceStep_second {s : State} (h : s.audio.midService = true) :
    serviceStep s = setMidService false (serviceChannel .b s) := by
  simp [serviceStep, h]

/-- The two steps of an AUD.SERVICE, one after the other, are the two services: neither reads CTX_A's position, and the
second puts it back. -/
theorem serviceStep_twice {s : State} (h : s.audio.midService = false) :
    serviceStep (serviceStep s) = serviceChannel .b (serviceChannel .a s) := by
  have hend : (serviceChannel .b (serviceChannel .a s)).audio.midService = false := by simp [h]
  rw [serviceStep_first h, serviceStep_second (setMidService_midService ..), serviceChannel_setMidService,
    setMidService_setMidService, ← hend, setMidService_self]

/-- Only AUD.SERVICE moves CTX_A's position in one (R258). -/
theorem exec_midService {i : Instr} {s t : State} (hi : i ≠ .audService) (h : exec i s = .next t) :
    t.audio.midService = s.audio.midService := by
  by_cases he : engine i = .audio
  · rcases of_exec h with ⟨-, rfl⟩ | ⟨-, rfl⟩
    · cases i <;> simp only [engine, reduceCtorEq] at he
      case audService => exact absurd rfl hi
      case audSvc => exact serviceChannel_midService ..
      case audStart => rw [effect, startSession_eq]
      case audFill => simp only [effect, spend_audio, fillChannel_eq]
      case audBeat => rw [effect, beatChannel_eq]
      case audDone => rw [effect, completeChannel_eq]; rfl
      case audTrigger => rw [effect, triggerChannel_eq]; rfl
      case audIrq c =>
        cases ht : (s.aud c).term
        · rw [effect, takeCompletion_rearm ht]; rfl
        · rw [effect, takeCompletion_stop ht]
      case audStop | audSetvol | audMix | audAbort => rfl
    · rfl
  · rw [exec_audio_eq he h]

/-- Settles O37, from the two cases of AUD.SERVICE and the position no other instruction moves. -/
theorem serviceIsBothBuffersInOrder : Obligations.ServiceIsBothBuffersInOrder := by
  intro s
  refine ⟨fun outside => ?_, fun inside => ?_, fun outside => ?_, fun i t => exec_midService,
    fun bytes rest ts i hs hd inside hplace => ?_⟩
  · exact ⟨_, exec_audSvc .., by rw [exec_audService, serviceStep_first outside]; rfl⟩
  · exact ⟨_, exec_audSvc .., by rw [exec_audService, serviceStep_second inside]; rfl⟩
  · refine ⟨serviceChannel .b (serviceChannel .a s), ?_, rfl⟩
    simp only [execAll, exec_audService, serviceStep_twice outside]
  · rw [step_of_decode hs hd, takeStep_held]
    rcases hplace with hp | hp <;> simp [held, heldByService, inside, hp]

/-! ## Pre-emption -/

/-- Settles O38: the comparison is the signed one (D17). -/
theorem playPreemptsOnlyByHigherPriority : Obligations.PlayPreemptsOnlyByHigherPriority := by
  intro src len prio s
  refine ⟨fun playing lower => ?_, fun playing higher => ?_, fun silent => by simp [execAudPlay, silent]⟩
  · simp [execAudPlay, playing, BitVec.sle_iff_toInt_le, lower]
  · simp [execAudPlay, playing, BitVec.sle_iff_toInt_le, Int.not_le.2 higher]

/-! ## The source -/

theorem halfOf_toNat (lo hi : Byte) : (halfOf lo hi).toNat = lo.toNat + 256 * hi.toNat := by
  rw [halfOf, BitVec.toNat_append, ← Nat.shiftLeft_add_eq_or_of_lt lo.isLt, Nat.shiftLeft_eq]
  omega

/-- Settles O33: both bytes are supplied, so no free value is drawn. -/
theorem sourceValueIsTheSuppliedHalfword : Obligations.SourceValueIsTheSuppliedHalfword := by
  intro s m lo hi hlo hhi
  simp [srcVal, srcByte, hlo, hhi, halfOf_toNat]

end Sys2Proof.Machine
end

section
/-! PROOF. What every step keeps of the audio engine (10_state R23, R32, R60 a and e), and the induction step from an
instruction to a turn. -/

namespace Sys2Proof.Machine

/-! ## From an instruction to a turn -/

/-- What changing the schedule, the producer's writes and every instruction that can be taken keep, every step
keeps. -/
theorem step_keeps {P : State → Prop} (hschedule : ∀ u ts, P u → P { u with schedule := ts })
    (hproduce : ∀ addr bytes u, P u → P (produceBytes addr bytes u)) {s t : State}
    (hexec : ∀ i u, i.wf u.params.srcW = true → held i u = false → (s.nextScheduled = true → i.isStep = true) →
      P u → exec i u = .next t → P t)
    (hs : P s) (h : step s = .next t) : P t := by
  rcases step_next h with ⟨_, rfl⟩ | ⟨addr, bytes, ts, _, rfl⟩ | ⟨bytes, ts, i, rest, hturn, hd, ⟨_, rfl⟩ | ⟨hfree, hi⟩⟩
  · exact hs
  · exact hproduce _ _ _ (hschedule _ _ hs)
  · exact hschedule _ _ hs
  · have hw : i.wf s.params.srcW = true := (decodedBytesAreItsEncoding _ _ _ _ hd).2
    exact hexec i { s with schedule := ts } hw hfree (fun hn => isStep_of_scheduled hn hturn hd) (hschedule _ _ hs) hi

/-! ## The ping-pong -/

/-- The ping-pong, seen from either channel. -/
theorem pingPong_iff (c : Side) {s : State} :
    pingPong s ↔ (s.faulted .audReconfig = false →
      ((s.aud c).busy && (s.aud c.other).busy) = false ∧
        (s.audio.playing = true → ((s.aud c).busy || (s.aud c.other).busy) = true)) := by
  cases c
  · rfl
  · rw [pingPong, audioBusy_eq s .b, Bool.and_comm]
    rfl

/-- What leaves both busy bits and `PLAYING` and clears no fault bit keeps the ping-pong. -/
theorem pingPong_of_same {s t : State} (hbusy : ∀ c, (t.aud c).busy = (s.aud c).busy)
    (hplaying : t.audio.playing = s.audio.playing)
    (hfault : s.faulted .audReconfig = true → t.faulted .audReconfig = true) (h : pingPong s) : pingPong t := by
  intro clean
  have hs := h (Bool.eq_false_iff.2 fun e => by simp [hfault e] at clean)
  rwa [State.audioBusy, hbusy, hbusy, hplaying]

/-- The audio engine and its fault bit are all that the ping-pong is about. -/
theorem pingPong_of_audio {s t : State} (haudio : t.audio = s.audio)
    (hfault : s.faulted .audReconfig = true → t.faulted .audReconfig = true) (h : pingPong s) : pingPong t :=
  pingPong_of_same (fun c => by rw [aud_eq, aud_eq, haudio]) (by rw [haudio]) hfault h

/-- A new session has channel A running alone, unless a channel was busy: then the violation is on record (R131). -/
theorem startSession_pingPong (src len prio : Word) (s : State) : pingPong (startSession src len prio s) := by
  intro clean
  have idle : s.audioBusy = false := by
    by_contra busy
    rw [startSession_eq] at clean
    simp [State.faulted, Violation.code, Bool.not_eq_false _ ▸ busy] at clean
  obtain ⟨-, hb⟩ : (s.aud .a).busy = false ∧ (s.aud .b).busy = false := by simpa [State.audioBusy] using idle
  have hA : ((startSession src len prio s).aud .a).busy = true := by rw [startSession_aud_a]
  have hB : ((startSession src len prio s).aud .b).busy = false := by rw [startSession_aud_b]; exact hb
  simp [State.audioBusy, hA, hB]

@[simp] theorem serviceChannel_busy (c d : Side) (s : State) :
    ((serviceChannel c s).aud d).busy = (s.aud d).busy := by
  cases h : (s.aud c).refill
  · rw [serviceChannel_idle h]
  · rw [serviceChannel_pending h]
    rcases Side.eq_or_eq_other d c with rfl | rfl
    · rw [spend_aud, fillAndPropagate_aud, aud_setAud_same]
    · rw [spend_aud, fillAndPropagate_aud_other, aud_setAud_other]

@[simp] theorem serviceChannel_playing (c : Side) (s : State) :
    (serviceChannel c s).audio.playing = s.audio.playing := by
  cases h : (s.aud c).refill
  · rw [serviceChannel_idle h]
  · rw [serviceChannel_pending h, fillAndPropagate_eq]
    rfl

theorem serviceStep_busy (d : Side) (s : State) : ((serviceStep s).aud d).busy = (s.aud d).busy := by
  rcases serviceStep_cases s with ⟨_, e⟩ | ⟨_, e⟩ <;> simp [e]

theorem serviceStep_playing (s : State) : (serviceStep s).audio.playing = s.audio.playing := by
  rcases serviceStep_cases s with ⟨_, e⟩ | ⟨_, e⟩ <;> rw [e] <;> exact serviceChannel_playing ..

theorem beatChannel_aud (c d : Side) (s : State) :
    (beatChannel c s).aud d =
      if d = c then { s.aud c with rd := (s.aud c).rd + 1#32, cnt := (s.aud c).cnt - 1#32 } else s.aud d := by
  rw [beatChannel_eq]
  exact Pair.get_set ..

/-- The run that ends leaves the other channel running, and only that one (R141). -/
theorem completeChannel_pingPong (c : Side) (s : State) : pingPong (completeChannel c s) := by
  have hc : ((completeChannel c s).aud c).busy = false := by
    rw [completeChannel_eq, aud_other_setAud, aud_setAud_same]
  have ho : ((completeChannel c s).aud c.other).busy = true := by rw [completeChannel_eq, aud_setAud_same]
  exact (pingPong_iff c).2 fun _ => by simp [hc, ho]

/-- The handler either leaves both runs, or stops the other one and the session (R142). -/
theorem takeCompletion_pingPong (c : Side) {s : State} (h : pingPong s) : pingPong (takeCompletion c s) := by
  cases ht : (s.aud c).term
  · rw [takeCompletion_rearm ht]
    refine pingPong_of_same (s := s) (fun d => ?_) rfl id h
    rw [aud_setAud]
    split
    · next e => rw [e]
    · rfl
  · have ho : ((takeCompletion c s).aud c.other).busy = false := by
      rw [takeCompletion_stop ht, aud_eq, Pair.get_set_same]
    have hp : (takeCompletion c s).audio.playing = false := by rw [takeCompletion_stop ht]
    exact (pingPong_iff c).2 fun _ => by simp [ho, hp]

/-- Every step of the audio engine keeps the ping-pong. -/
theorem effect_pingPong {i : Instr} {s : State} (hstep : i.isStep = true) (hi : engine i = .audio)
    (h : pingPong s) : pingPong (effect i s) := by
  have hfault := (effect_audioStep hi s).raises.kept Violation.audReconfig.code
  cases i <;> simp only [engine, reduceCtorEq] at hi <;>
    simp only [Instr.isStep, Instr.kind, Bool.false_eq_true] at hstep
  case audStart => exact startSession_pingPong _ _ _ s
  case audStop => exact fun _ => ⟨rfl, fun playing => nomatch playing⟩
  case audService => exact pingPong_of_same (serviceStep_busy · s) (serviceStep_playing s) hfault h
  case audSetvol => exact pingPong_of_same (fun _ => rfl) rfl hfault h
  case audBeat c =>
    refine pingPong_of_same (fun d => ?_) (by rw [effect, beatChannel_eq]) hfault h
    rw [effect, beatChannel_aud]
    split
    · next e => rw [e]
    · rfl
  case audDone => exact completeChannel_pingPong _ s
  case audIrq => exact takeCompletion_pingPong _ h
  case audSvc => exact pingPong_of_same (serviceChannel_busy _ · s) (serviceChannel_playing ..) hfault h

/-- Settles O14: no other engine touches the channels or clears the fault bit. -/
theorem scheduledStepKeepsThePingPong : Obligations.ScheduledStepKeepsThePingPong := by
  intro s t hn hs h
  refine step_keeps (P := pingPong) (fun _ _ => id) (fun _ _ _ => id) (fun i u _ _ hstep hu hi => ?_) hs h
  by_cases he : engine i = .audio
  · rcases of_exec hi with ⟨_, rfl⟩ | ⟨_, rfl⟩
    · exact effect_pingPong (hstep hn) he hu
    · exact hu
  · exact pingPong_of_audio (exec_audio_eq he hi) ((exec_raises hi).kept _) hu

/-! ## The audio registers -/

theorem audioOk_iff {x : Audio} :
    Audio.ok x ↔ x.rem.toNat ≤ x.total.toNat ∧ ∀ c, AudioChan.ok (x.chan.get c) :=
  ⟨fun ⟨hrem, ha, hb⟩ => ⟨hrem, fun c => by cases c <;> assumption⟩, fun ⟨hrem, hc⟩ => ⟨hrem, hc .a, hc .b⟩⟩

theorem Audio.ok.aud {s : State} (h : Audio.ok s.audio) (c : Side) : AudioChan.ok (s.aud c) := (audioOk_iff.1 h).2 c

/-- Writing a channel that is as it should be. -/
theorem audioOk_setAud {s : State} {c : Side} {x : AudioChan} (h : Audio.ok s.audio) (hx : AudioChan.ok x) :
    Audio.ok (s.setAud c x).audio := by
  refine audioOk_iff.2 ⟨h.1, fun d => ?_⟩
  rw [setAud_chan, Pair.get_set]
  split
  · exact hx
  · exact h.aud d

/-- A channel with its run ended and no count left. -/
theorem AudioChan.ok.ended {x : AudioChan} (h : AudioChan.ok x) :
    AudioChan.ok { x with busy := false, cnt := 0#32 } := by
  obtain ⟨hwf, hbelow, hlen, -, -⟩ := h
  exact ⟨hwf, hbelow, hlen, Nat.zero_le _, fun _ => rfl⟩

/-- A channel with a run started. -/
theorem AudioChan.ok.started {x : AudioChan} (h : AudioChan.ok x) :
    AudioChan.ok { x with busy := true, cnt := x.len, raced := false } := by
  obtain ⟨hwf, hbelow, hlen, -, -⟩ := h
  exact ⟨hwf, hbelow, hlen, hlen, nofun⟩

theorem audioOk_trigger (c : Side) {s : State} (h : Audio.ok s.audio) : Audio.ok (triggerChannel c s).audio := by
  cases hb : (s.aud c).busy
  · rw [triggerChannel_idle hb]; exact audioOk_setAud h (h.aud c).started
  · rw [triggerChannel_busy hb]; exact h

theorem audioOk_abort (c : Side) {s : State} (h : Audio.ok s.audio) : Audio.ok (abortChannel c s).audio :=
  audioOk_setAud h (h.aud c).ended

/-- `REM` after a fill: reloaded, or less by a block that was there (R135, R60 e). -/
theorem fill_rem_le {s : State} (h : s.audio.rem.toNat ≤ s.audio.total.toNat) :
    (if fillFinal s then s.audio.total else s.audio.rem - BitVec.ofNat 32 CAP).toNat ≤ s.audio.total.toNat := by
  split
  · exact Nat.le_refl _
  · next more =>
    have hcap : 1024 ≤ s.audio.rem.toNat := Nat.le_of_not_lt fun few => more (decide_eq_true few)
    rw [BitVec.toNat_sub_of_le (by simpa [CAP, BitVec.le_def] using hcap)]
    exact (Nat.sub_le ..).trans h

/-- A fill leaves the channel's block and count within `CAP` entries. -/
theorem fill_chan_ok {c : Side} {s : State} (h : AudioChan.ok (s.aud c)) (term raced : Bool) :
    AudioChan.ok { s.aud c with
      block := Memory.overlay (fillSlots c s) (s.aud c).block
      len := if fillFinal s then BitVec.ofNat 32 (fillCount s) else (s.aud c).len
      term := term
      raced := raced } := by
  obtain ⟨hwf, hbelow, hlen, hcnt, hidle⟩ := h
  refine ⟨wf_overlay (wf_fillSlots c s) hwf, below_overlay (below_fillSlots c s) hbelow, ?_, hcnt, hidle⟩
  simp only
  split
  · rw [fillCount_toNat]; exact fillCount_le s
  · exact hlen

theorem audioOk_fill (c : Side) {s : State} (h : Audio.ok s.audio) : Audio.ok (fillChannel c s).audio := by
  rw [fillChannel_eq]
  refine audioOk_iff.2 ⟨fill_rem_le h.1, fun d => ?_⟩
  rw [Pair.get_set]
  split
  · exact fill_chan_ok (h.aud c) (s.aud c).term _
  · exact h.aud d

theorem audioOk_fillAndPropagate (c : Side) {s : State} (h : Audio.ok s.audio) :
    Audio.ok (fillAndPropagate c s).audio :=
  audioOk_setAud (audioOk_fill c h) ((audioOk_fill c h).aud c)

theorem audioOk_service (c : Side) {s : State} (h : Audio.ok s.audio) : Audio.ok (serviceChannel c s).audio := by
  cases hr : (s.aud c).refill
  · rw [serviceChannel_idle hr]; exact h
  · rw [serviceChannel_pending hr]
    exact audioOk_fillAndPropagate c (audioOk_setAud h (h.aud c))

theorem audioOk_prepare (src len prio : Word) {s : State} (h : Audio.ok s.audio) :
    Audio.ok (prepareSession src len prio s).audio := by
  have cleared (c : Side) :
      AudioChan.ok { s.aud c with refill := false, term := false, len := BitVec.ofNat 32 CAP } := by
    obtain ⟨hwf, hbelow, -, hcnt, hidle⟩ := h.aud c
    exact ⟨hwf, hbelow, Nat.le_refl _, hcnt, hidle⟩
  rw [prepareSession_eq]
  exact ⟨Nat.le_refl _, cleared .a, cleared .b⟩

theorem audioOk_arm (c : Side) {s : State} (h : Audio.ok s.audio) : Audio.ok (armChannel c s).audio :=
  audioOk_setAud h (h.aud c)

theorem audioOk_setPlaying (b : Bool) {s : State} (h : Audio.ok s.audio) : Audio.ok (setPlaying b s).audio := h

theorem audioOk_start (src len prio : Word) {s : State} (h : Audio.ok s.audio) :
    Audio.ok (startSession src len prio s).audio := by
  have primed := audioOk_fillAndPropagate .b (audioOk_fillAndPropagate .a (audioOk_prepare src len prio h))
  have armed := audioOk_arm .b (audioOk_arm .a primed)
  rw [startSession, spend_audio]
  exact audioOk_setPlaying true (audioOk_trigger .a armed)

/-- A beat takes one off a count that is not 0, on a channel that stays busy (R140). -/
theorem audioOk_beat {c : Side} {s : State} (hready : beatReady c s = true) (h : Audio.ok s.audio) :
    Audio.ok (beatChannel c s).audio := by
  obtain ⟨busy, left⟩ := beatReady_iff.1 hready
  have hone : (1#32).toNat ≤ (s.aud c).cnt.toNat := by
    have : (s.aud c).cnt.toNat ≠ 0 := fun e => left (BitVec.eq_of_toNat_eq e)
    simp; omega
  obtain ⟨hwf, hbelow, hlen, hcnt, -⟩ := h.aud c
  refine audioOk_iff.2 ⟨by rw [beatChannel_eq]; exact h.1, fun d => ?_⟩
  rw [← aud_eq, beatChannel_aud]
  split
  · refine ⟨hwf, hbelow, hlen, ?_, fun idle => absurd busy (by simpa using idle)⟩
    simp only [BitVec.toNat_sub_of_le (BitVec.le_def.2 hone)]
    exact (Nat.sub_le ..).trans hcnt
  · exact h.aud d

theorem audioOk_complete {c : Side} {s : State} (hready : doneReady c s = true) (h : Audio.ok s.audio) :
    Audio.ok (completeChannel c s).audio := by
  obtain ⟨-, done⟩ := doneReady_iff.1 hready
  obtain ⟨hwf, hbelow, hlen, hcnt, -⟩ := h.aud c
  exact audioOk_trigger _ (audioOk_setAud h ⟨hwf, hbelow, hlen, hcnt, fun _ => done⟩)

theorem audioOk_takeCompletion (c : Side) {s : State} (h : Audio.ok s.audio) : Audio.ok (takeCompletion c s).audio := by
  cases ht : (s.aud c).term
  · rw [takeCompletion_rearm ht]; exact audioOk_setAud h (h.aud c)
  · have acked := audioOk_setAud (c := c) (x := { s.aud c with ip := false }) h (h.aud c)
    rw [takeCompletion_stop ht]
    exact audioOk_setAud (s := s.setAud c { s.aud c with ip := false }) acked (h.aud c.other).ended

/-- Every instruction keeps the audio registers within what they are (R60 e, R32). -/
theorem exec_audioOk {i : Instr} {s t : State} (h : Audio.ok s.audio) (hx : exec i s = .next t) : Audio.ok t.audio := by
  by_cases hi : engine i = .audio
  · rcases of_exec hx with ⟨hen, rfl⟩ | ⟨_, rfl⟩
    · cases i <;> simp only [engine, reduceCtorEq] at hi
      case audStart => exact audioOk_start _ _ _ h
      case audStop => exact audioOk_abort .b (s := abortChannel .a s) (audioOk_abort .a h)
      case audService =>
        rcases serviceStep_cases s with ⟨_, e⟩ | ⟨_, e⟩ <;> rw [effect, e] <;> exact audioOk_service _ h
      case audFill => exact audioOk_fill _ h
      case audBeat => exact audioOk_beat hen h
      case audDone => exact audioOk_complete hen h
      case audIrq => exact audioOk_takeCompletion _ h
      case audAbort => exact audioOk_abort _ h
      case audTrigger => exact audioOk_trigger _ h
      case audSvc => exact audioOk_service _ h
      case audSetvol | audMix => exact h
    · exact h
  · rw [exec_audio_eq hi hx]; exact h

end Sys2Proof.Machine
end

section
/-! PROOF. What every step keeps of the display engine (10_state R35, R37, R60 b; 41_display R196), and the output
histories (10_state R33, R46). -/

namespace Sys2Proof.Machine

/-! ## All the display engine can do -/

/-- The moves of the display engine under instruction `i`: what a poll, a transfer channel or a request can do to it,
each under the conditions of its rule (R182, R188 to R194). -/
inductive DisplayMove (i : Instr) : State → State → Prop
  | request (s : State) : DisplayMove i s { s with disp := { s.disp with frameReq := true } }
  | begin (s : State) : s.disp.rs = .waitFrame → s.disp.frameReq = true →
      DisplayMove i s
        { s with disp := { s.disp with frameReq := false, rendering := true, rs := .startFrame } }
  | address (s : State) : s.disp.rs = .startFrame → (s.dsp s.disp.dCh).busy = false →
      DisplayMove i s { s with disp := { s.disp with
        trace := s.disp.trace ++ [.frameWindow, .ramWrite], row := 0#16, rs := .renderRow } }
  | render (s : State) : s.disp.rs = .renderRow → DisplayMove i s (renderRow s)
  | lastRow (s : State) : s.disp.rs = .waitDma → (s.dsp s.disp.dCh).busy = false →
      s.disp.row.toNat + 1 = s.params.frameH →
      DisplayMove i s { issueLine s with disp := { (issueLine s).disp with
        rendering := false, row := 0#16, rs := .waitFrame } }
  | nextRow (s : State) : s.disp.rs = .waitDma → (s.dsp s.disp.dCh).busy = false →
      s.disp.row.toNat + 1 ≠ s.params.frameH →
      DisplayMove i s { issueLine s with disp := { (issueLine s).disp with
        row := s.disp.row + 1#16, rs := .renderRow } }
  | pixel (k : Side) (s : State) : pixelReady k s = true → DisplayMove i s (sendPixel k s)
  | lineDone (k : Side) (s : State) : lineDoneReady k s = true → DisplayMove i s (finishLine k s)
  | issue (s : State) : i = .dspIssue → DisplayMove i s (issueLine s)

/-- A poll of the engine does nothing, or moves it by the rule of its render state (R187). -/
theorem poll_cases (i : Instr) (s : State) : poll s = s ∨ DisplayMove i s (poll s) := by
  rw [poll]
  split
  · next hrs =>
    rw [pollWaitFrame]
    split
    · next hreq => exact .inr (.begin s hrs hreq)
    · exact .inl rfl
  · next hrs =>
    cases hd : (s.dsp s.disp.dCh).busy
    · rw [pollStartFrame_idle hd]; exact .inr (.address s hrs hd)
    · exact .inl (pollStartFrame_busy hd)
  · next hrs => exact .inr (.render s hrs)
  · next hrs =>
    cases hd : (s.dsp s.disp.dCh).busy
    · rw [pollWaitDma_idle hd]
      by_cases hrow : s.disp.row.toNat + 1 = s.params.frameH
      · rw [countRow_last (by simpa using hrow)]
        exact .inr (.lastRow s hrs hd hrow)
      · rw [countRow_more (by simpa using hrow), issueLine_row]
        exact .inr (.nextRow s hrs hd hrow)
    · exact .inl (pollWaitDma_busy hd)

theorem poll_waitFrame {s : State} (h : s.disp.rs = .waitFrame) : poll s = pollWaitFrame s := by rw [poll, h]
theorem poll_startFrame {s : State} (h : s.disp.rs = .startFrame) : poll s = pollStartFrame s := by rw [poll, h]
theorem poll_renderRow {s : State} (h : s.disp.rs = .renderRow) : poll s = renderRow s := by rw [poll, h]
theorem poll_waitDma {s : State} (h : s.disp.rs = .waitDma) : poll s = pollWaitDma s := by rw [poll, h]

/-- What an effect outside the audio pipeline does to the display engine: a move of it, or nothing. -/
theorem effect_display_cases {i : Instr} {s : State} (hi : engine i ≠ .audio) (hen : stepEnabled i s = true) :
    ∃ u, (u = s ∨ DisplayMove i s u) ∧ (effect i s).disp = u.disp ∧
      (effect i s).faulted .dspParity = u.faulted .dspParity := by
  have polled {u : State} (hpoll : poll s = u) : u = s ∨ DisplayMove i s u := hpoll ▸ poll_cases i s
  cases he : engine i
  case audio => exact absurd he hi
  case dispatcher =>
    have hx := effect_dispatcherStep he s
    exact ⟨s, .inl rfl, hx.disp, hx.raises.faulted (by decide)⟩
  case drive =>
    obtain rfl := eq_xcDrive he
    have hx := driveEngine_poll_then s
    exact ⟨poll s, poll_cases _ s, hx.disp, hx.raises.faulted (by decide)⟩
  case display =>
    cases i <;> simp only [engine, reduceCtorEq] at he
    case dspFramereq => exact ⟨_, .inr (.request s), rfl, rfl⟩
    case dspPollWf => exact ⟨_, polled (poll_waitFrame (of_decide_eq_true hen)), rfl, rfl⟩
    case dspPollSf => exact ⟨_, polled (poll_startFrame (of_decide_eq_true hen)), rfl, rfl⟩
    case dspPollRr => exact ⟨_, polled (poll_renderRow (of_decide_eq_true hen)), rfl, rfl⟩
    case dspPollWd => exact ⟨_, polled (poll_waitDma (of_decide_eq_true hen)), rfl, rfl⟩
    case dspBeat k => exact ⟨_, .inr (.pixel k s hen), rfl, rfl⟩
    case dspDone k => exact ⟨_, .inr (.lineDone k s hen), rfl, rfl⟩
    case dspMap p =>
      refine ⟨s, .inl rfl, raiseIf_disp .., ?_⟩
      exact (RaisesOnly.of_or (mask := 0x20#8) (raiseIf_fault ..) (ite_within (by decide) (by decide))).faulted
        (by decide)
    case dspHmap => exact ⟨s, .inl rfl, rfl, rfl⟩
    case dspIssue => exact ⟨_, .inr (.issue s rfl), rfl, rfl⟩

/-- What any instruction does to the display engine: a move of it, or nothing. -/
theorem exec_display_cases {i : Instr} {s t : State} (h : exec i s = .next t) :
    ∃ u, (u = s ∨ DisplayMove i s u) ∧ t.disp = u.disp ∧ t.faulted .dspParity = u.faulted .dspParity := by
  rcases of_exec h with ⟨hen, rfl⟩ | ⟨_, rfl⟩
  · by_cases hi : engine i = .audio
    · have ha := effect_audioStep hi s
      exact ⟨s, .inl rfl, ha.disp, ha.raises.faulted (by decide)⟩
    · exact effect_display_cases hi hen
  · exact ⟨t, .inl rfl, rfl, rfl⟩

/-! ## The render state -/

/-- Settles O23, by the moves of the engine. -/
theorem renderStateTransitions : Obligations.RenderStateTransitions := by
  intro i s t h
  obtain ⟨u, hu, hdisp, -⟩ := exec_display_cases h
  rw [hdisp]
  rcases hu with rfl | hmove
  · exact .inl rfl
  · cases hmove with
    | request => exact .inl rfl
    | begin _ hrs hreq => exact .inr (.inl ⟨hrs, rfl, hreq⟩)
    | address _ hrs idle => exact .inr (.inr (.inl ⟨hrs, rfl, idle⟩))
    | render _ hrs => exact .inr (.inr (.inr (.inl ⟨hrs, by rw [renderRow_eq]⟩)))
    | nextRow _ hrs idle more => exact .inr (.inr (.inr (.inr (.inl ⟨hrs, rfl, idle, more⟩))))
    | lastRow _ hrs idle last => exact .inr (.inr (.inr (.inr (.inr ⟨hrs, rfl, idle, last⟩))))
    | pixel => exact .inl rfl
    | lineDone => exact .inl rfl
    | issue => exact .inl (by rw [issueLine_eq])

/-! ## The frame in progress -/

/-- Every move of the engine keeps the frame consistent: `RENDERING` changes with the render state at both ends of a
frame, and the row is 0 at both. -/
theorem DisplayMove.frameConsistent {i : Instr} {s u : State} (hmove : DisplayMove i s u) (h : frameConsistent s) :
    frameConsistent u := by
  obtain ⟨hrend, hrow⟩ := h
  cases hmove with
  | request => exact ⟨hrend, hrow⟩
  | begin _ hrs => exact ⟨by simp, fun _ => hrow (.inl hrs)⟩
  | address _ hrs => exact ⟨by simpa [hrs] using hrend, fun _ => rfl⟩
  | render _ hrs => rw [renderRow_eq]; exact ⟨by simpa [hrs] using hrend, by simp⟩
  | nextRow _ hrs => rw [issueLine_eq]; exact ⟨by simpa [hrs] using hrend, by simp⟩
  | lastRow _ hrs => exact ⟨by simp, fun _ => rfl⟩
  | pixel => exact ⟨hrend, hrow⟩
  | lineDone => exact ⟨hrend, hrow⟩
  | issue => rw [issueLine_eq]; exact ⟨hrend, hrow⟩

theorem exec_frameConsistent {i : Instr} {s t : State} (h : frameConsistent s) (hx : exec i s = .next t) :
    frameConsistent t := by
  obtain ⟨u, hu, hdisp, -⟩ := exec_display_cases hx
  have hframe : frameConsistent u := hu.elim (fun e => e ▸ h) fun hmove => hmove.frameConsistent h
  rwa [frameConsistent, hdisp]

/-- Settles O16, by the moves of the engine. -/
theorem everyStepKeepsTheFrameConsistent : Obligations.EveryStepKeepsTheFrameConsistent := fun _ _ hs h =>
  step_keeps (P := frameConsistent) (fun _ _ => id) (fun _ _ _ => id) (fun _ _ _ _ _ => exec_frameConsistent) hs h

/-! ## The line transfers -/

theorem issueLine_dsp (k : Side) (s : State) :
    (issueLine s).dsp k =
      if k = s.disp.dCh.other then { busy := true, src := s.disp.fillSlot, pos := 0#16, raced := false }
      else s.dsp k := by
  rw [issueLine_eq]
  exact Pair.get_set ..

theorem renderRow_dsp (k : Side) (s : State) :
    (renderRow s).dsp k = { s.dsp k with raced := (s.dsp k).raced || readsFillTarget k s } := by
  rw [renderRow_eq]
  cases k <;> rfl

theorem sendPixel_dsp (k d : Side) (s : State) :
    (sendPixel k s).dsp d = if d = k then { s.dsp k with pos := (s.dsp k).pos + 1#16 } else s.dsp d := by
  rw [sendPixel_eq]
  exact Pair.get_set ..

theorem finishLine_dsp (k d : Side) (s : State) :
    (finishLine k s).dsp d = if d = k then { s.dsp k with busy := false } else s.dsp d := by
  rw [finishLine_eq, dsp_setDsp]

/-- While the lines are apart no channel reads the fill target. -/
theorem linesApart.reads {s : State} (h : linesApart s) (k : Side) : readsFillTarget k s = false := by
  simp only [readsFillTarget, Bool.and_eq_false_imp, decide_eq_false_iff_not]
  intro busy
  rw [(h.1 k busy).2]
  exact Side.other_ne _

/-- Issuing a line while the channel last used is idle: the other one is idle too, and the new transfer reads the slot
that was the fill target (R192). -/
theorem issueLine_linesApart {s : State} (h : linesApart s) (idle : (s.dsp s.disp.dCh).busy = false) :
    linesApart (issueLine s) := by
  obtain ⟨hchan, hfault⟩ := h
  have hother : (s.dsp s.disp.dCh.other).busy = false :=
    Bool.eq_false_iff.2 fun busy => Side.other_ne _ (hchan _ busy).1
  have hclean : (issueLine s).faulted .dspParity = s.faulted .dspParity := by
    rw [issueLine_eq, hother]
    simp [State.faulted]
  refine ⟨fun k hk => ?_, hclean.trans hfault⟩
  rw [issueLine_dsp] at hk ⊢
  split at hk
  · next e =>
    rw [if_pos e, issueLine_eq]
    exact ⟨e, (Side.other_other _).symm⟩
  · next e =>
    obtain rfl : k = s.disp.dCh := (Side.eq_or_eq_other k _).resolve_right e
    simp [idle] at hk

/-- The channels, `D_CH`, the fill target and the fault bit are all that `linesApart` is about; a channel may go idle
but not change what it reads. -/
theorem linesApart_of_same {s t : State}
    (hchan : ∀ k, (t.dsp k).busy = true → (s.dsp k).busy = true ∧ (t.dsp k).src = (s.dsp k).src)
    (hdCh : t.disp.dCh = s.disp.dCh) (hslot : t.disp.fillSlot = s.disp.fillSlot)
    (hfault : t.faulted .dspParity = s.faulted .dspParity) (h : linesApart s) : linesApart t := by
  refine ⟨fun k hk => ?_, hfault.trans h.2⟩
  obtain ⟨hbusy, hsrc⟩ := hchan k hk
  rw [hdCh, hslot, hsrc]
  exact h.1 k hbusy

/-- Every scheduled move of the engine keeps the line transfers apart. -/
theorem DisplayMove.linesApart {i : Instr} {s u : State} (hmove : DisplayMove i s u) (hi : i.isStep = true)
    (h : linesApart s) : linesApart u := by
  cases hmove with
  | request => exact h
  | begin => exact h
  | address => exact h
  | render =>
    have hfault : (renderRow s).fault = s.fault ||| (if rendersUnwritten s then 0x20#8 else 0#8) := by
      simp [renderRow_eq, h.reads]
    refine linesApart_of_same (fun k hk => ?_) (by rw [renderRow_eq]) (by rw [renderRow_eq])
      ((RaisesOnly.of_or (mask := 0x20#8) hfault (ite_within (by decide) (by decide))).faulted (by decide)) h
    rw [renderRow_dsp] at hk ⊢
    exact ⟨hk, rfl⟩
  | nextRow _ _ idle => exact issueLine_linesApart h idle
  | lastRow _ _ idle => exact issueLine_linesApart h idle
  | pixel k =>
    refine linesApart_of_same (s := s) (fun d hd => ?_) rfl rfl rfl h
    rw [sendPixel_dsp] at hd ⊢
    split
    · next e => subst e; exact ⟨by simpa using hd, rfl⟩
    · next e => rw [if_neg e] at hd; exact ⟨hd, rfl⟩
  | lineDone k =>
    refine linesApart_of_same (s := s) (fun d hd => ?_) rfl rfl rfl h
    rw [finishLine_dsp] at hd ⊢
    split
    · next e => simp [e] at hd
    · next e => rw [if_neg e] at hd; exact ⟨hd, rfl⟩
  | issue _ e => subst e; cases hi

theorem exec_linesApart {i : Instr} {s t : State} (hi : i.isStep = true) (h : linesApart s)
    (hx : exec i s = .next t) : linesApart t := by
  obtain ⟨u, hu, hdisp, hfault⟩ := exec_display_cases hx
  have hapart : linesApart u := hu.elim (fun e => e ▸ h) fun hmove => hmove.linesApart hi h
  have hdsp (k : Side) : t.dsp k = u.dsp k := by rw [dsp_eq, dsp_eq, hdisp]
  exact linesApart_of_same (fun k hk => by rw [hdsp] at hk ⊢; exact ⟨hk, rfl⟩) (by rw [hdisp]) (by rw [hdisp])
    hfault hapart

/-- Settles O15, by the moves of the engine; the micro-operation DSP.ISSUE is no scheduled turn of its own. -/
theorem scheduledStepKeepsTheLinesApart : Obligations.ScheduledStepKeepsTheLinesApart := fun _ _ hn hs h =>
  step_keeps (P := linesApart) (fun _ _ => id) (fun _ _ _ => id) (fun _ _ _ _ hi => exec_linesApart (hi hn)) hs h

/-! ## The display registers -/

theorem displayOk_iff {p : Params} {x : Display} :
    Display.ok p x ↔ x.row.toNat < p.frameH ∧ (∀ k, (x.chan.get k).pos.toNat ≤ p.lineW) ∧
      ∀ k, Memory.wf (x.line.get k) ∧ Memory.below p.lineW (x.line.get k) := by
  constructor
  · rintro ⟨hrow, hposA, hposB, hwfA, hbelowA, hwfB, hbelowB⟩
    refine ⟨hrow, fun k => ?_, fun k => ?_⟩
    · cases k <;> assumption
    · cases k
      · exact ⟨hwfA, hbelowA⟩
      · exact ⟨hwfB, hbelowB⟩
  · rintro ⟨hrow, hpos, hline⟩
    exact ⟨hrow, hpos .a, hpos .b, (hline .a).1, (hline .a).2, (hline .b).1, (hline .b).2⟩

/-- What well-formed parameters say of a frame (R6). -/
theorem Params.wf_bounds {p : Params} (h : p.wf = true) :
    1 ≤ p.frameH ∧ p.frameH ≤ 2 ^ 16 ∧ p.lineW < 2 ^ 16 := by
  simp only [Params.wf, Bool.and_eq_true, decide_eq_true_eq] at h
  obtain ⟨⟨⟨⟨⟨-, hrows⟩, hfit⟩, -⟩, hline⟩, -⟩ := h
  exact ⟨hrows, hfit, hline⟩

/-- A transfer begins at position 0, and all else is left (R192). -/
theorem issueLine_displayOk {p : Params} {s : State} (h : Display.ok p s.disp) : Display.ok p (issueLine s).disp := by
  obtain ⟨hrow, hpos, hline⟩ := displayOk_iff.1 h
  rw [issueLine_eq]
  refine displayOk_iff.2 ⟨hrow, fun k => ?_, hline⟩
  rw [Pair.get_set]
  split
  · exact Nat.zero_le _
  · exact hpos k

/-- Another row counter within the frame. -/
theorem displayOk_row {p : Params} {x y : Display} (h : Display.ok p x) (hrow : y.row.toNat < p.frameH)
    (hchan : y.chan = x.chan) (hline : y.line = x.line) : Display.ok p y := by
  rw [displayOk_iff] at h ⊢
  rw [hchan, hline]
  exact ⟨hrow, h.2⟩

/-- Every move of the engine keeps its registers and line buffers within what they are. -/
theorem DisplayMove.displayOk {i : Instr} {s u : State} (hmove : DisplayMove i s u) (hp : s.params.wf = true)
    (h : Display.ok s.params s.disp) : Display.ok s.params u.disp := by
  obtain ⟨hrows, hfit, hwidth⟩ := Params.wf_bounds hp
  obtain ⟨hrow, hpos, hline⟩ := displayOk_iff.1 h
  cases hmove with
  | request => exact h
  | begin => exact h
  | address => exact displayOk_row h hrows rfl rfl
  | render =>
    rw [renderRow_eq]
    refine displayOk_iff.2 ⟨hrow, fun k => ?_, fun k => ?_⟩
    · cases k
      · exact hpos .a
      · exact hpos .b
    · rw [Pair.get_set]
      split
      · exact ⟨wf_overlay (wf_renderedLine s) (hline _).1, below_overlay (below_renderedLine s) (hline _).2⟩
      · exact hline k
  | nextRow _ _ _ more =>
    refine displayOk_row (issueLine_displayOk h) ?_ rfl rfl
    simp only [BitVec.toNat_add, BitVec.toNat_ofNat]
    omega
  | lastRow => exact displayOk_row (issueLine_displayOk h) hrows rfl rfl
  | pixel k _ hready =>
    obtain ⟨-, hleft⟩ := pixelReady_iff.1 hready
    refine displayOk_iff.2 ⟨hrow, fun d => ?_, hline⟩
    rw [sendPixel_eq, Pair.get_set]
    split
    · simp only [BitVec.toNat_add, BitVec.toNat_ofNat]
      omega
    · exact hpos d
  | lineDone k =>
    refine displayOk_iff.2 ⟨hrow, fun d => ?_, hline⟩
    rw [finishLine_eq, setDsp_chan, Pair.get_set]
    split
    · exact hpos k
    · exact hpos d
  | issue => exact issueLine_displayOk h

theorem exec_displayOk {i : Instr} {s t : State} (hp : s.params.wf = true) (h : Display.ok s.params s.disp)
    (hx : exec i s = .next t) : Display.ok s.params t.disp := by
  obtain ⟨u, hu, hdisp, -⟩ := exec_display_cases hx
  rw [hdisp]
  exact hu.elim (fun e => e ▸ h) fun hmove => hmove.displayOk hp h

/-! ## The output histories -/

/-- What an instruction outputs on the pin: nothing, or one level, which is then the level of the pin (R33). -/
def outputsOne (s t : State) : Prop :=
  ∃ levels, t.audio.trace = s.audio.trace ++ levels ∧
    ((levels = [] ∧ t.audio.pwm = s.audio.pwm) ∨ levels = [t.audio.pwm])

theorem outputsOne_none {s t : State} (htrace : t.audio.trace = s.audio.trace) (hpwm : t.audio.pwm = s.audio.pwm) :
    outputsOne s t := ⟨[], by simp [htrace], .inl ⟨rfl, hpwm⟩⟩

theorem outputsOne_level {s t : State} (htrace : t.audio.trace = s.audio.trace ++ [t.audio.pwm]) :
    outputsOne s t := ⟨_, htrace, .inr rfl⟩

theorem serviceChannel_outputs (c : Side) (s : State) :
    (serviceChannel c s).audio.trace = s.audio.trace ∧ (serviceChannel c s).audio.pwm = s.audio.pwm := by
  cases h : (s.aud c).refill
  · rw [serviceChannel_idle h]
    exact ⟨rfl, rfl⟩
  · rw [serviceChannel_pending h, fillAndPropagate_eq]
    exact ⟨rfl, rfl⟩

/-- The stop, a beat and the handler of a terminated session output a level; no other rule does. -/
theorem effect_outputsOne {i : Instr} (hi : engine i = .audio) (s : State) : outputsOne s (effect i s) := by
  cases i <;> simp only [engine, reduceCtorEq] at hi
  case audStart => rw [effect, startSession_eq]; exact outputsOne_none rfl rfl
  case audStop => exact outputsOne_level rfl
  case audService =>
    rcases serviceStep_cases s with ⟨_, e⟩ | ⟨_, e⟩ <;> rw [effect, e] <;>
      exact outputsOne_none (serviceChannel_outputs ..).1 (serviceChannel_outputs ..).2
  case audFill => rw [effect, fillChannel_eq]; exact outputsOne_none rfl rfl
  case audBeat => rw [effect, beatChannel_eq]; exact outputsOne_level rfl
  case audDone => rw [effect, completeChannel_eq]; exact outputsOne_none rfl rfl
  case audTrigger => rw [effect, triggerChannel_eq]; exact outputsOne_none rfl rfl
  case audIrq c =>
    cases ht : (s.aud c).term
    · rw [effect, takeCompletion_rearm ht]; exact outputsOne_none rfl rfl
    · rw [effect, takeCompletion_stop ht]; exact outputsOne_level rfl
  case audSvc => exact outputsOne_none (serviceChannel_outputs ..).1 (serviceChannel_outputs ..).2
  case audSetvol | audMix | audAbort => exact outputsOne_none rfl rfl

/-- The panel's history under a move of the engine (R46). -/
theorem DisplayMove.trace_grows {i : Instr} {s u : State} (hmove : DisplayMove i s u) :
    ∃ events, u.disp.trace = s.disp.trace ++ events := by
  cases hmove with
  | address => exact ⟨_, rfl⟩
  | pixel => exact ⟨_, rfl⟩
  | render => exact ⟨[], by rw [renderRow_eq, List.append_nil]⟩
  | nextRow | lastRow | issue => exact ⟨[], by rw [issueLine_eq, List.append_nil]⟩
  | request | begin | lineDone => exact ⟨[], (List.append_nil _).symm⟩

/-- Settles O19: the pin by the rules of the audio engine, the panel by the moves of the display engine. -/
theorem outputHistoriesOnlyGrow : Obligations.OutputHistoriesOnlyGrow := by
  intro i s t h
  constructor
  · by_cases hi : engine i = .audio
    · rcases of_exec h with ⟨_, rfl⟩ | ⟨_, rfl⟩
      · exact effect_outputsOne hi s
      · exact outputsOne_none rfl rfl
    · have haudio := exec_audio_eq hi h
      exact outputsOne_none (by rw [haudio]) (by rw [haudio])
  · obtain ⟨u, rfl | hmove, hdisp, -⟩ := exec_display_cases h
    · exact ⟨[], by rw [hdisp, List.append_nil]⟩
    · rw [hdisp]
      exact hmove.trace_grows

end Sys2Proof.Machine
end

section
/-! PROOF. The dispatcher, one operation at a time (42_dispatch R221 to R230). -/

namespace Sys2Proof.Machine

/-! ## The queue and the producer -/

/-- Settles O51, by whether the queue has room and by its head. -/
theorem queueIsFirstInFirstOut : Obligations.QueueIsFirstInFirstOut := by
  refine ⟨fun w s room => ?_, fun w ws s hfifo => ?_⟩
  · exact exec_enabled (i := .fifoPush w) (by simp [stepEnabled, fifoFull_eq_false_iff.2 room])
  · simp [exec, execFifoPop, fifoDequeue, hfifo]

theorem beginCall_idle {row : Byte} {pixels : List Byte} {palette : List Half} {s : State} (h : s.xc.pst = .idle) :
    beginCall row pixels palette s = { s with xc := { s.xc with
      pRow := row, pst := .wait, heldPixels := pixels, heldPalette := palette } } := if_pos h

theorem beginCall_reentry {row : Byte} {pixels : List Byte} {palette : List Half} {s : State} (h : s.xc.pst ≠ .idle) :
    beginCall row pixels palette s = raise .xcReentry s := if_neg h

theorem exec_xcSubmitCall (row : Byte) (pixels : List Byte) (palette : List Half) (s : State) :
    exec (.xcSubmitCall row pixels palette) s = .next (beginCall row pixels palette s) := rfl

/-- Settles O52, by the phase of the producer. -/
theorem submitCallBeginsOrIsReentry : Obligations.SubmitCallBeginsOrIsReentry := by
  refine fun row pixels palette s => ⟨fun idle => ?_, fun during => ?_⟩
  · rw [exec_xcSubmitCall, beginCall_idle idle]
  · rw [exec_xcSubmitCall, beginCall_reentry during]
    rfl

/-- A palette held for a call fits the store (R43, R225). -/
theorem wfPalette_length_le {palette : List Half} (h : wfPalette palette = true) : palette.length ≤ PAL_STORE := by
  simp only [wfPalette, Bool.or_eq_true, beq_iff_eq] at h
  simp only [PAL_STORE]
  omega

/-- Settles O53: both copies are overlays of what is held, listed from entry 0 on. -/
theorem acquireCopiesTheLineAndSetsBusy : Obligations.AcquireCopiesTheLineAndSetsBusy := by
  intro s waiting free hpix hpal hrow hstore
  have hlen := wfPalette_length_le hpal
  have htakePix : s.xc.heldPixels.take s.params.srcW = s.xc.heldPixels := List.take_of_length_le (Nat.le_of_eq hpix)
  have htakePal : s.xc.heldPalette.take PAL_STORE = s.xc.heldPalette := List.take_of_length_le hlen
  have hrowbuf (i : Nat) : Memory.read? (acquireLine s).xc.rowbuf i =
      if i < s.params.srcW then s.xc.heldPixels[i]? else Memory.read? s.xc.rowbuf i := by
    have := read?_overlay_listing hrow 0 s.xc.heldPixels i
    simpa [acquireLine, htakePix, hpix] using this
  have hpalette (j : Nat) : Memory.read? (acquireLine s).xc.pal j =
      if j < s.xc.heldPalette.length then s.xc.heldPalette[j]? else Memory.read? s.xc.pal j := by
    have := read?_overlay_listing hstore 0 s.xc.heldPalette j
    simpa [acquireLine, htakePal] using this
  have hvalid (j : Nat) : (acquireLine s).xc.palV.getLsbD j =
      (s.xc.palV.getLsbD j || decide (j < s.xc.heldPalette.length)) := by
    rw [acquireLine, htakePal, BitVec.getLsbD_or, getLsbD_firstEntries hlen]
  refine ⟨acquireLine s, exec_enabled (i := .xcSubmitAcq) (acquireReady_iff.2 ⟨waiting, free⟩), fun i hi => ?_,
    fun i hi => ?_, fun j hj => ⟨?_, ?_⟩, fun j hj => ⟨?_, ?_⟩, rfl⟩
  · rw [hrowbuf, if_pos hi]
  · rw [hrowbuf, if_neg (Nat.not_lt.2 hi)]
  · rw [hpalette, if_pos hj]
  · rw [hvalid, decide_eq_true hj, Bool.or_true]
  · rw [hpalette, if_neg (Nat.not_lt.2 hj)]
  · rw [hvalid, decide_eq_false (Nat.not_lt.2 hj), Bool.or_false]

/-- The word of a DRAWLINE, as a number (R105). -/
theorem encodeCommand_drawLine (row : Byte) :
    encodeCommand (.drawLine row) = BitVec.ofNat 32 (row.toNat * 2 ^ 24 + 1) := by
  apply BitVec.eq_of_toNat_eq
  have hfits : row.toNat * 2 ^ 24 + 1 < 2 ^ 32 := by omega
  rw [BitVec.toNat_ofNat, Nat.mod_eq_of_lt hfits]
  exact xcw_toNat 0x01#8 row

/-- Settles O54, with the word written out as a number. -/
theorem submitPushEnqueuesOneDrawline : Obligations.SubmitPushEnqueuesOneDrawline := by
  intro s pushing room
  rw [← encodeCommand_drawLine]
  exact exec_enabled (i := .xcSubmitPush) (pushReady_iff.2 ⟨pushing, room⟩)

/-- Settles O55. -/
theorem pushNopEnqueuesTheZeroWord : Obligations.PushNopEnqueuesTheZeroWord := by
  intro s idle room
  exact exec_enabled (i := .xcPushnop) (pushNopReady_iff.2 ⟨idle, room⟩)

/-! ## The consumer -/

/-- Two lines for an odd row in mode X2 (R228). -/
theorem linesToDrive_eq (scale : Scale) (row : Byte) :
    linesToDrive scale row = if scale = .x2 ∧ row.toNat % 2 = 1 then 2#2 else 1#2 := by
  simp [linesToDrive, BitVec.getLsbD, Nat.testBit_zero]

/-- Settles O58. -/
theorem commandWordsAtTheConsumer : Obligations.CommandWordsAtTheConsumer := by
  refine ⟨fun _ => rfl, fun row s => ?_⟩
  rw [← linesToDrive_eq]
  rfl

theorem exec_xcPop {s : State} {w : Word} {ws : List Word} (hpop : s.xc.cst = .pop) (hfifo : s.xc.fifo = w :: ws) :
    exec .xcPop s = .next (runCommand w { s with xc := { s.xc with fifo := ws } }) := by
  rw [← popCommand_cons hfifo]
  exact exec_enabled (i := .xcPop) (popReady_iff.2 ⟨hpop, by simp [hfifo]⟩)

/-- Settles O56, by what the word decodes to. -/
theorem popDecodesTheNextCommand : Obligations.PopDecodesTheNextCommand := by
  intro w ws s hpop hfifo
  refine ⟨fun h => ?_, fun h => ?_, fun h => ?_⟩
  · rw [exec_xcPop hpop hfifo, runCommand, decodeCommand_nop h]
  · have hrow : (BitVec.ofNat 8 (w.toNat / 2 ^ 24)).toNat = w.toNat / 2 ^ 24 := by
      rw [BitVec.toNat_ofNat, Nat.mod_eq_of_lt (by omega)]
    rw [exec_xcPop hpop hfifo, runCommand, decodeCommand_drawLine h]
    simp only [beginDraw, linesToDrive_eq, hrow]
  · rw [exec_xcPop hpop hfifo, runCommand, decodeCommand_reserved h]
    rfl

theorem exec_dspPollWf {s : State} (hrs : s.disp.rs = .waitFrame) : exec .dspPollWf s = .next (pollWaitFrame s) :=
  unlessReady_true (decide_eq_true hrs)

theorem exec_dspPollRr {s : State} (hrs : s.disp.rs = .renderRow) : exec .dspPollRr s = .next (renderRow s) :=
  unlessReady_true (decide_eq_true hrs)

theorem exec_xcDrive {s : State} (hdraw : s.xc.cst = .draw) : exec .xcDrive s = .next (driveEngine s) :=
  exec_enabled (i := .xcDrive) (driveReady_iff.2 hdraw)

/-- XC.DRIVE when the poll issues the last line of the command (R229). -/
theorem driveEngine_last {s : State} (hissue : willIssue s = true) (hleft : s.xc.cLeft = 1#2) :
    driveEngine s = { poll s with xc := { s.xc with cLeft := 0#2, lineBusy := false, cst := .pop } } := by
  have hxc := (poll_displayStep s).xc
  rw [driveEngine, if_pos hissue, countLine_last (by rw [hxc, hleft]), hxc]

/-- XC.DRIVE when the poll issues a line that is not the last (R229). -/
theorem driveEngine_more {s : State} (hissue : willIssue s = true) (hleft : s.xc.cLeft ≠ 1#2) :
    driveEngine s = { poll s with xc := { s.xc with cLeft := s.xc.cLeft - 1#2 } } := by
  have hxc := (poll_displayStep s).xc
  rw [driveEngine, if_pos hissue, countLine_more (by rwa [hxc]), hxc]

/-- Settles O57: the poll is the one of the render state, and the line is counted where it issues. -/
theorem driveIsOnePollAndCountsTheLine : Obligations.DriveIsOnePollAndCountsTheLine := by
  intro s hdraw _
  refine ⟨poll s, ?_, fun hwait => ?_, fun hrs idle last => ?_, fun hrs idle more => ?_⟩
  · cases hrs : s.disp.rs
    · rw [poll_waitFrame hrs]; exact exec_dspPollWf hrs
    · rw [poll_startFrame hrs]; exact exec_dspPollSf hrs
    · rw [poll_renderRow hrs]; exact exec_dspPollRr hrs
    · rw [poll_waitDma hrs]; exact exec_dspPollWd hrs
  · rw [exec_xcDrive hdraw, driveEngine_poll hwait]
  · rw [exec_xcDrive hdraw, driveEngine_last (willIssue_eq_true.2 ⟨hrs, idle⟩) last]
  · rw [exec_xcDrive hdraw, driveEngine_more (willIssue_eq_true.2 ⟨hrs, idle⟩) more]

end Sys2Proof.Machine
end

section
/-! PROOF. What every step keeps of the dispatcher (10_state R48 to R50, R60 d, R61; 42_dispatch R232), the invariant of
the whole state, and reset (10_state R62). -/

namespace Sys2Proof.Machine

/-! ## One line in flight -/

/-- The lines in flight, by where each may be (R61). -/
theorem linesInFlight_eq (s : State) :
    linesInFlight s = (if s.xc.pst = .push then 1 else 0) + s.xc.fifo.countP isDrawWord +
      (if s.xc.cst = .draw then 1 else 0) := by
  rw [linesInFlight]
  cases s.xc.pst <;> cases s.xc.cst <;> rfl

/-- The dispatcher and its fault bit are all that the one-line discipline is about. -/
theorem oneLineInFlight_of_same {s t : State} (hxc : t.xc = s.xc) (hfault : t.faulted .xcBadcmd = s.faulted .xcBadcmd)
    (h : oneLineInFlight s) : oneLineInFlight t := by
  rwa [oneLineInFlight, linesInFlight, hxc, hfault]

theorem beginCall_oneLine (row : Byte) (pixels : List Byte) (palette : List Half) {s : State} (h : oneLineInFlight s) :
    oneLineInFlight (beginCall row pixels palette s) := by
  by_cases idle : s.xc.pst = .idle
  · obtain ⟨hcount, hcommands, hclean⟩ := h
    rw [beginCall_idle idle]
    refine ⟨?_, hcommands, hclean⟩
    simpa [linesInFlight_eq, idle] using hcount
  · have hraise : RaisesOnly 0x40#8 s (raise .xcReentry s) := .of_or (raise_fault ..) (by decide)
    rw [beginCall_reentry idle]
    exact oneLineInFlight_of_same (s := s) rfl (hraise.faulted (by decide)) h

/-- The flag is set with the one line the call will push (R226). -/
theorem acquireLine_oneLine {s : State} (hready : acquireReady s = true) (h : oneLineInFlight s) :
    oneLineInFlight (acquireLine s) := by
  obtain ⟨waiting, free⟩ := acquireReady_iff.1 hready
  obtain ⟨hcount, hcommands, hclean⟩ := h
  refine ⟨?_, hcommands, hclean⟩
  simp only [linesInFlight_eq, waiting, free, reduceCtorEq, if_false, Bool.toNat_false] at hcount
  simp only [linesInFlight_eq, acquireLine, if_true, Bool.toNat_true]
  omega

/-- A command word appended to the queue (R222). -/
theorem commands_append {ws : List Word} (h : ∀ w ∈ ws, isCommandWord w = true) (c : Command) :
    ∀ w ∈ ws ++ [encodeCommand c], isCommandWord w = true := by
  intro w hw
  rcases List.mem_append.1 hw with hw | hw
  · exact h w hw
  · rw [List.mem_singleton.1 hw, isCommandWord, decodeCommand_encode]; rfl

@[simp] theorem isDrawWord_drawLine (row : Byte) : isDrawWord (encodeCommand (.drawLine row)) = true := by
  rw [isDrawWord, decodeCommand_encode]

@[simp] theorem isDrawWord_nop : isDrawWord (encodeCommand .nop) = false := by
  rw [isDrawWord, decodeCommand_encode]

/-- The line leaves the call and enters the queue (R227). -/
theorem pushLine_oneLine {s : State} (hready : pushReady s = true) (h : oneLineInFlight s) :
    oneLineInFlight (pushLine s) := by
  obtain ⟨pushing, -⟩ := pushReady_iff.1 hready
  obtain ⟨hcount, hcommands, hclean⟩ := h
  refine ⟨?_, commands_append hcommands _, hclean⟩
  simp only [linesInFlight_eq, pushing, if_true] at hcount
  simp only [linesInFlight_eq, pushLine, fifoEnqueue_eq, List.countP_append, List.countP_singleton,
    isDrawWord_drawLine, reduceCtorEq, if_true, if_false]
  omega

/-- A NOP word is no line (R230). -/
theorem pushNop_oneLine {s : State} (h : oneLineInFlight s) :
    oneLineInFlight (fifoEnqueue (encodeCommand .nop) s) := by
  obtain ⟨hcount, hcommands, hclean⟩ := h
  refine ⟨?_, commands_append hcommands _, hclean⟩
  rw [linesInFlight_eq] at hcount
  simpa [linesInFlight_eq, fifoEnqueue_eq] using hcount

/-- The line leaves the queue and begins to be drawn; a NOP leaves no line (R228). -/
theorem popCommand_oneLine {s : State} (hready : popReady s = true) (h : oneLineInFlight s) :
    oneLineInFlight (popCommand s) := by
  obtain ⟨hpop, hne⟩ := popReady_iff.1 hready
  obtain ⟨hcount, hcommands, hclean⟩ := h
  obtain ⟨w, ws, hfifo⟩ := List.exists_cons_of_ne_nil hne
  rw [popCommand_cons hfifo]
  have hword : isCommandWord w = true := hcommands w (by simp [hfifo])
  have hrest : ∀ x ∈ ws, isCommandWord x = true := fun x hx => hcommands x (by simp [hfifo, hx])
  simp only [linesInFlight_eq, hfifo, hpop, List.countP_cons, reduceCtorEq, if_false] at hcount
  obtain ⟨cmd, hcmd⟩ := Option.isSome_iff_exists.1 hword
  cases cmd with
  | nop =>
    rw [runCommand, hcmd]
    refine ⟨?_, hrest, hclean⟩
    simpa [linesInFlight_eq, hpop, isDrawWord, hcmd] using hcount
  | drawLine row =>
    rw [runCommand, hcmd]
    refine ⟨?_, hrest, hclean⟩
    simp only [isDrawWord, hcmd, if_true] at hcount
    simp only [linesInFlight_eq, beginDraw, if_true]
    omega

/-- The line is in flight until the last of its panel lines is issued; then the flag is cleared (R229). -/
theorem driveEngine_oneLine {s : State} (hready : driveReady s = true) (h : oneLineInFlight s) :
    oneLineInFlight (driveEngine s) := by
  have hdraw := driveReady_iff.1 hready
  have hpoll := poll_displayStep s
  have hfault : (driveEngine s).faulted .xcBadcmd = s.faulted .xcBadcmd := by
    have hpolled := hpoll.raises.faulted (f := .xcBadcmd) (by decide)
    rw [← hpolled, driveEngine]
    split
    · rw [countLine]; split <;> rfl
    · rfl
  cases hissue : willIssue s
  · exact oneLineInFlight_of_same (by rw [driveEngine_xc, hissue]; rfl) hfault h
  · obtain ⟨hcount, hcommands, hclean⟩ := h
    by_cases hleft : s.xc.cLeft = 1#2
    · have hone := Bool.toNat_le s.xc.lineBusy
      simp only [linesInFlight_eq, hdraw, if_true] at hcount
      refine ⟨?_, ?_, hfault.trans hclean⟩
      · rw [driveEngine_last hissue hleft]
        simp only [linesInFlight_eq, reduceCtorEq, if_false, Bool.toNat_false]
        omega
      · rw [driveEngine_last hissue hleft]; exact hcommands
    · refine ⟨?_, ?_, hfault.trans hclean⟩
      · rw [driveEngine_more hissue hleft]; exact hcount
      · rw [driveEngine_more hissue hleft]; exact hcommands

theorem exec_oneLine {i : Instr} {s t : State} (hstep : i.isStep = true) (h : oneLineInFlight s)
    (hx : exec i s = .next t) : oneLineInFlight t := by
  rcases of_exec hx with ⟨hen, rfl⟩ | ⟨_, rfl⟩
  · cases he : engine i
    case audio =>
      have ha := effect_audioStep he s
      exact oneLineInFlight_of_same ha.xc (ha.raises.faulted (by decide)) h
    case display =>
      have hd := effect_displayStep he s
      exact oneLineInFlight_of_same hd.xc (hd.raises.faulted (by decide)) h
    case drive =>
      obtain rfl := eq_xcDrive he
      exact driveEngine_oneLine hen h
    case dispatcher =>
      cases i <;> simp only [engine, reduceCtorEq] at he <;>
        simp only [Instr.isStep, Instr.kind, Bool.false_eq_true] at hstep
      case xcSubmitCall => exact beginCall_oneLine _ _ _ h
      case xcSubmitAcq => exact acquireLine_oneLine hen h
      case xcSubmitPush => exact pushLine_oneLine hen h
      case xcPushnop => exact pushNop_oneLine h
      case xcPop => exact popCommand_oneLine hen h
  · exact h

/-- Settles O17: a line passes from the call to the queue, to the draw, and out. -/
theorem scheduledStepKeepsOneLineInFlight : Obligations.ScheduledStepKeepsOneLineInFlight := fun _ _ hn hs h =>
  step_keeps (P := oneLineInFlight) (fun _ _ => id) (fun _ _ _ => id) (fun _ _ _ _ hi => exec_oneLine (hi hn)) hs h

/-! ## Backpressure -/

/-- A call waits in `s` on a busy line and still waits in `t`: nothing was enqueued and the line is not touched
(R232). -/
structure StillWaits (s t : State) : Prop where
  busy : t.xc.lineBusy = true
  waiting : t.xc.pst = .wait
  row : t.xc.pRow = s.xc.pRow
  fifo : ∃ n, t.xc.fifo = s.xc.fifo.drop n
  rowbuf : t.xc.rowbuf = s.xc.rowbuf
  pal : t.xc.pal = s.xc.pal

theorem StillWaits.of_xc {s t : State} (hbusy : s.xc.lineBusy = true) (hwait : s.xc.pst = .wait)
    (h : t.xc = s.xc) : StillWaits s t := by
  refine ⟨?_, ?_, ?_, ⟨0, ?_⟩, ?_, ?_⟩ <;> simp [h, hbusy, hwait]

theorem StillWaits.trans {s t u : State} (h : StillWaits s t) (h' : StillWaits t u) : StillWaits s u := by
  obtain ⟨n, hn⟩ := h.fifo
  obtain ⟨m, hm⟩ := h'.fifo
  exact ⟨h'.busy, h'.waiting, h'.row.trans h.row, ⟨n + m, by rw [hm, hn, List.drop_drop]⟩,
    h'.rowbuf.trans h.rowbuf, h'.pal.trans h.pal⟩

/-- A pop only shortens the queue; a draw it begins leaves the line as it is (R228). -/
theorem popCommand_stillWaits {s : State} (hbusy : s.xc.lineBusy = true) (hwait : s.xc.pst = .wait) :
    StillWaits s (popCommand s) := by
  cases hfifo : s.xc.fifo with
  | nil => rw [popCommand, hfifo]; exact .of_xc hbusy hwait rfl
  | cons w ws =>
    rw [popCommand_cons hfifo, runCommand]
    split <;> exact ⟨hbusy, hwait, rfl, ⟨1, by rw [hfifo]; rfl⟩, rfl, rfl⟩

/-- Every step but XC.DRIVE leaves a waiting call waiting: it is enabled neither to return nor to enqueue. -/
theorem exec_stillWaits {i : Instr} {s t : State} (hstep : i.isStep = true) (hi : i ≠ .xcDrive)
    (hbusy : s.xc.lineBusy = true) (hwait : s.xc.pst = .wait) (hx : exec i s = .next t) : StillWaits s t := by
  rcases of_exec hx with ⟨hen, rfl⟩ | ⟨_, rfl⟩
  · cases he : engine i
    case audio => exact .of_xc hbusy hwait (effect_audioStep he s).xc
    case display => exact .of_xc hbusy hwait (effect_displayStep he s).xc
    case drive => exact absurd (eq_xcDrive he) hi
    case dispatcher =>
      cases i <;> simp only [engine, reduceCtorEq] at he <;>
        simp only [Instr.isStep, Instr.kind, Bool.false_eq_true] at hstep
      case xcSubmitCall =>
        rw [effect, beginCall_reentry (by simp [hwait])]
        exact .of_xc hbusy hwait rfl
      case xcSubmitAcq => simp [(acquireReady_iff.1 hen).2] at hbusy
      case xcSubmitPush => simp [(pushReady_iff.1 hen).1] at hwait
      case xcPushnop => simp [(pushNopReady_iff.1 hen).1] at hwait
      case xcPop => exact popCommand_stillWaits hbusy hwait
  · exact .of_xc hbusy hwait rfl

/-- The same over a sequence of steps. -/
theorem execAll_stillWaits {is : List Instr} : ∀ {s t : State}, s.xc.lineBusy = true → s.xc.pst = .wait →
    (∀ i ∈ is, i.isStep = true ∧ i ≠ .xcDrive) → execAll is s = .next t → StillWaits s t := by
  induction is with
  | nil => intro s t hbusy hwait _ h; cases h; exact .of_xc hbusy hwait rfl
  | cons i is ih =>
    intro s t hbusy hwait hsteps h
    obtain ⟨u, hu⟩ := exec_next i s
    obtain ⟨hstep, hi⟩ := hsteps i (by simp)
    have hfirst := exec_stillWaits hstep hi hbusy hwait hu
    rw [execAll, hu] at h
    exact hfirst.trans (ih hfirst.busy hfirst.waiting (fun j hj => hsteps j (by simp [hj])) h)

/-- Settles O59, by induction on the steps. -/
theorem backpressureHoldsUntilTheDrive : Obligations.BackpressureHoldsUntilTheDrive := by
  intro is s t hbusy hwait hsteps h
  have hw := execAll_stillWaits hbusy hwait hsteps h
  exact ⟨hw.busy, hw.waiting, hw.row, hw.fifo, hw.rowbuf, hw.pal⟩

/-! ## The dispatcher's registers -/

theorem beginCall_ok {srcW : Nat} {row : Byte} {pixels : List Byte} {palette : List Half} {s : State} {p : Params}
    (hsrc : p.srcW = srcW) (hw : (Instr.xcSubmitCall row pixels palette).wf srcW = true)
    (h : Dispatcher.ok p s.xc) : Dispatcher.ok p (beginCall row pixels palette s).xc := by
  obtain ⟨hpix, hpal⟩ : pixels.length = srcW ∧ wfPalette palette = true := by
    simpa [Instr.wf, wfPixels] using hw
  obtain ⟨hfifo, hrowW, hrowB, hpalW, hpalB, hvalid, hdraw, hpop, hheld⟩ := h
  rw [beginCall]
  split
  · exact ⟨hfifo, hrowW, hrowB, hpalW, hpalB, hvalid, hdraw, hpop, fun _ => ⟨hpix.trans hsrc.symm, hpal⟩⟩
  · exact ⟨hfifo, hrowW, hrowB, hpalW, hpalB, hvalid, hdraw, hpop, hheld⟩

/-- The copies stay inside their stores, and `PAL_V` is set where the palette is written (R226, R43). -/
theorem acquireLine_ok {s : State} (h : Dispatcher.ok s.params s.xc) : Dispatcher.ok s.params (acquireLine s).xc := by
  obtain ⟨hfifo, hrowW, hrowB, hpalW, hpalB, hvalid, hdraw, hpop, -⟩ := h
  have hlen : (s.xc.heldPalette.take PAL_STORE).length ≤ PAL_STORE := List.length_take_le ..
  refine ⟨hfifo, wf_overlay (wf_listing _ _) hrowW, below_overlay (below_listing ?_) hrowB,
    wf_overlay (wf_listing _ _) hpalW, below_overlay (below_listing ?_) hpalB, fun j => ?_, hdraw, hpop, nofun⟩
  · rw [Nat.zero_add]; exact List.length_take_le ..
  · rw [Nat.zero_add]; exact hlen
  · simp only [acquireLine]
    rw [BitVec.getLsbD_or, getLsbD_firstEntries hlen, read?_overlay_listing hpalW, hvalid j]
    by_cases hj : j < (s.xc.heldPalette.take PAL_STORE).length
    · simp only [hj, Nat.zero_le, Nat.zero_add, and_self, if_true, Nat.sub_zero, decide_true, Bool.or_true,
        List.getElem?_eq_getElem hj, Option.isSome_some]
    · simp only [hj, Nat.zero_add, and_false, if_false, decide_false, Bool.or_false]

/-- A word more in a queue with room (R222). -/
theorem dispatcherOk_enqueue {p : Params} {x : Dispatcher} (w : Word) (hroom : x.fifo.length < p.fifoDepth)
    (h : Dispatcher.ok p x) : Dispatcher.ok p { x with fifo := x.fifo ++ [w] } := by
  obtain ⟨-, hrest⟩ := h
  exact ⟨by simpa using hroom, hrest⟩

/-- The oldest word taken from a queue (R223). -/
theorem dispatcherOk_dequeue {p : Params} {x : Dispatcher} (h : Dispatcher.ok p x) :
    Dispatcher.ok p { x with fifo := x.fifo.tail } := by
  obtain ⟨hfifo, hrest⟩ := h
  exact ⟨by simp only [List.length_tail]; omega, hrest⟩

/-- A draw begins with one line or two (R228). -/
theorem beginDraw_ok (row : Byte) {p : Params} {s : State} (h : Dispatcher.ok p s.xc) :
    Dispatcher.ok p (beginDraw row s).xc := by
  obtain ⟨hfifo, hrowW, hrowB, hpalW, hpalB, hvalid, -, -, hheld⟩ := h
  refine ⟨hfifo, hrowW, hrowB, hpalW, hpalB, hvalid, fun _ => ?_, nofun, hheld⟩
  simp only [beginDraw, linesToDrive_eq]
  split
  · exact .inr rfl
  · exact .inl rfl

theorem runCommand_ok (w : Word) {p : Params} {s : State} (h : Dispatcher.ok p s.xc) :
    Dispatcher.ok p (runCommand w s).xc := by
  rw [runCommand]
  split
  · exact h
  · exact beginDraw_ok _ h
  · exact h

theorem popCommand_ok {p : Params} {s : State} (h : Dispatcher.ok p s.xc) : Dispatcher.ok p (popCommand s).xc := by
  rw [popCommand]
  split
  · exact h
  · exact runCommand_ok _ (dispatcherOk_dequeue h)

/-- The lines left while drawing go from two to one, and from one to the pop (R229). -/
theorem driveEngine_ok {p : Params} {s : State} (hready : driveReady s = true) (h : Dispatcher.ok p s.xc) :
    Dispatcher.ok p (driveEngine s).xc := by
  have hstate := driveReady_iff.1 hready
  cases hissue : willIssue s
  · rw [driveEngine_xc, hissue]; exact h
  · obtain ⟨hfifo, hrowW, hrowB, hpalW, hpalB, hvalid, hdraw, -, hheld⟩ := h
    by_cases hleft : s.xc.cLeft = 1#2
    · rw [driveEngine_last hissue hleft]
      exact ⟨hfifo, hrowW, hrowB, hpalW, hpalB, hvalid, nofun, fun _ => rfl, hheld⟩
    · have htwo : s.xc.cLeft = 2#2 := (hdraw hstate).resolve_left hleft
      rw [driveEngine_more hissue hleft]
      refine ⟨hfifo, hrowW, hrowB, hpalW, hpalB, hvalid, fun _ => .inl (by rw [htwo]; rfl), fun hpop => ?_, hheld⟩
      simp [hstate] at hpop

theorem exec_dispatcherOk {i : Instr} {s t : State} (hw : i.wf s.params.srcW = true)
    (h : Dispatcher.ok s.params s.xc) (hx : exec i s = .next t) : Dispatcher.ok s.params t.xc := by
  rcases of_exec hx with ⟨hen, rfl⟩ | ⟨_, rfl⟩
  · cases he : engine i
    case audio => rw [(effect_audioStep he s).xc]; exact h
    case display => rw [(effect_displayStep he s).xc]; exact h
    case drive =>
      obtain rfl := eq_xcDrive he
      exact driveEngine_ok hen h
    case dispatcher =>
      cases i <;> simp only [engine, reduceCtorEq] at he
      case xcSubmitCall => exact beginCall_ok rfl hw h
      case xcSubmitAcq => exact acquireLine_ok h
      case xcSubmitPush =>
        obtain ⟨hfifo, hrowW, hrowB, hpalW, hpalB, hvalid, hdraw, hpop, -⟩ :=
          dispatcherOk_enqueue (encodeCommand (.drawLine s.xc.pRow)) (pushReady_iff.1 hen).2 h
        exact ⟨hfifo, hrowW, hrowB, hpalW, hpalB, hvalid, hdraw, hpop, nofun⟩
      case xcPushnop => exact dispatcherOk_enqueue _ (pushNopReady_iff.1 hen).2 h
      case xcPop => exact popCommand_ok h
      case fifoPush w => exact dispatcherOk_enqueue w (fifoFull_eq_false_iff.1 (by simpa [stepEnabled] using hen)) h
      case fifoPop => exact dispatcherOk_dequeue h
      case nop => exact h
      case drawline => exact beginDraw_ok _ h
  · exact h

/-! ## CTX_A in one place at a time -/

theorem popCommand_pst (s : State) : (popCommand s).xc.pst = s.xc.pst := by
  rw [popCommand]
  split
  · rfl
  · rw [runCommand]; split <;> rfl

theorem driveEngine_pst (s : State) : (driveEngine s).xc.pst = s.xc.pst := by
  rw [driveEngine_xc]
  split
  · rw [countLine]; split <;> rfl
  · rfl

/-- Only a phase of XC.SUBMIT moves the producer's phase (R50). -/
theorem exec_pst {i : Instr} {s t : State} (hi : i.place ≠ .submit) (hx : exec i s = .next t) :
    t.xc.pst = s.xc.pst := by
  rcases of_exec hx with ⟨-, rfl⟩ | ⟨-, rfl⟩
  · cases he : engine i
    case audio => rw [(effect_audioStep he s).xc]
    case display => rw [(effect_displayStep he s).xc]
    case drive =>
      obtain rfl := eq_xcDrive he
      exact driveEngine_pst s
    case dispatcher =>
      cases i <;> simp only [engine, reduceCtorEq] at he
      case xcSubmitCall | xcSubmitAcq | xcSubmitPush => exact absurd rfl hi
      case xcPop => exact popCommand_pst s
      case xcPushnop | fifoPush | fifoPop | nop | drawline => rfl
  · rfl

/-- CTX_A enters an AUD.SERVICE outside a call only, and takes no phase of a call inside one (R80 a, R133, R224). -/
theorem exec_onePlace {i : Instr} {s t : State} (hfree : held i s = false)
    (h : s.audio.midService = true → s.xc.pst = .idle) (hx : exec i s = .next t) :
    t.audio.midService = true → t.xc.pst = .idle := by
  obtain ⟨hcall, hservice, -⟩ := held_eq_false.1 hfree
  intro hmid
  by_cases hi : i = .audService
  · subst hi
    rw [exec_pst (by decide) hx]
    exact hcall rfl
  · rw [exec_midService hi hx] at hmid
    have hplace : i.place ≠ .submit := fun e => by simp [hservice (.inr e)] at hmid
    rw [exec_pst hplace hx]
    exact h hmid

/-! ## The whole state -/

theorem exec_ok {i : Instr} {s t : State} (hw : i.wf s.params.srcW = true) (hfree : held i s = false)
    (h : State.ok s) (hx : exec i s = .next t) : State.ok t := by
  obtain ⟨hparams, haudio, hdisp, hxc, hbit, hsrc, hplace⟩ := h
  obtain ⟨eparams, esrc, -⟩ := noInstructionWritesParametersOrSource i s t hx
  rw [State.ok, eparams, esrc]
  exact ⟨hparams, exec_audioOk haudio hx, exec_displayOk hparams hdisp hx, exec_dispatcherOk hw hxc hx,
    ((exec_raises hx).same 7 (by decide)).trans hbit, hsrc, exec_onePlace hfree hplace hx⟩

/-- Settles O13: each part of the state is kept by the instructions that can be taken, and the producer's write is in
canonical form. -/
theorem everyStepKeepsTheStateOk : Obligations.EveryStepKeepsTheStateOk := by
  intro s t hs h
  refine step_keeps (P := State.ok) (fun _ _ => id) (fun addr bytes u hu => ?_)
    (fun _ _ hw hfree _ => exec_ok hw hfree) hs h
  obtain ⟨hparams, haudio, hdisp, hxc, hbit, hsrc, hplace⟩ := hu
  exact ⟨hparams, haudio, hdisp, hxc, hbit, wf_produceBytes addr bytes hsrc, hplace⟩

/-! ## Reset -/

/-- Settles O11. -/
theorem resetLeavesTheTableOfR62 : Obligations.ResetLeavesTheTableOfR62 := by
  intro p
  refine ⟨⟨rfl, rfl, rfl, rfl, rfl, rfl, rfl⟩, fun k => ?_, ⟨rfl, rfl, rfl, rfl, rfl, rfl⟩, fun c => ?_,
    ⟨rfl, rfl, rfl, rfl, rfl, rfl, rfl, rfl⟩, rfl⟩
  · cases k <;> exact ⟨rfl, rfl, rfl⟩
  · cases c <;> exact ⟨rfl, rfl, rfl, rfl, rfl, rfl, rfl, rfl⟩

/-- Nothing is written at reset, and row 0 is within every frame. -/
theorem reset_ok {p : Params} (hp : p.wf = true) : State.ok (State.resetWith p) := by
  have hnone {w : Nat} (n : Nat) : Memory.wf ([] : Memory w) ∧ Memory.below n ([] : Memory w) :=
    ⟨List.Pairwise.nil, fun _ he => nomatch he⟩
  have hchan : AudioChan.ok AudioChan.reset :=
    ⟨(hnone 0).1, (hnone CAP).2, Nat.zero_le _, Nat.zero_le _, fun _ => rfl⟩
  refine ⟨hp, ⟨Nat.le_refl _, hchan, hchan⟩, displayOk_iff.2 ⟨(Params.wf_bounds hp).1, fun k => ?_, fun k => ?_⟩,
    ⟨Nat.zero_le _, (hnone 0).1, (hnone _).2, (hnone 0).1, (hnone _).2, fun j => ?_, nofun, fun _ => rfl, nofun⟩,
    BitVec.getLsbD_zero, (hnone 0).1, nofun⟩
  · cases k <;> exact Nat.zero_le _
  · cases k <;> exact hnone _
  · exact BitVec.getLsbD_zero

/-- Settles O12. -/
theorem resetMeetsTheInvariants : Obligations.ResetMeetsTheInvariants := by
  intro p hp
  refine ⟨reset_ok hp, fun _ => ⟨rfl, nofun⟩, ⟨fun k hk => ?_, BitVec.getLsbD_zero⟩,
    ⟨by simp [State.resetWith, Display.reset], fun _ => rfl⟩,
    ⟨rfl, nofun, BitVec.getLsbD_zero⟩⟩
  cases k <;> cases hk

end Sys2Proof.Machine
end

section
/-! PROOF. The display engine, one operation at a time, and the driving of a line (41_display R184 to R194; 30_encoding
R116). -/

namespace Sys2Proof.Machine

/-! ## The state machine and the transfer channels -/

/-- Settles O41, by whether a frame is asked for. -/
theorem waitFramePollObservesTheRequest : Obligations.WaitFramePollObservesTheRequest := by
  refine fun s hrs => ⟨fun asked => ?_, fun quiet => ?_⟩
  · rw [exec_dspPollWf hrs, pollWaitFrame, if_pos asked]
  · rw [exec_dspPollWf hrs, pollWaitFrame, if_neg (by simp [quiet])]

/-- Settles O44, from all that issuing a line writes. -/
theorem issueHandsTheLineToTheOtherChannel : Obligations.IssueHandsTheLineToTheOtherChannel := by
  intro s
  refine ⟨issueLine s, exec_dspIssue s, ?_, ?_, ?_, ?_, ?_, ?_⟩
  · rw [issueLine_eq]
  · rw [issueLine_eq]
  · rw [issueLine_dsp, if_pos rfl]
  · rw [issueLine_dsp, if_neg (Side.ne_other _)]
  · rw [issueLine_eq]; rfl
  · rw [issueLine_eq]

theorem exec_dspBeat {k : Side} {s : State} (busy : (s.dsp k).busy = true)
    (left : (s.dsp k).pos.toNat < s.params.lineW) : exec (.dspBeat k) s = .next (sendPixel k s) :=
  exec_enabled (i := .dspBeat k) (pixelReady_iff.2 ⟨busy, left⟩)

theorem exec_dspDone {k : Side} {s : State} (busy : (s.dsp k).busy = true)
    (done : (s.dsp k).pos.toNat = s.params.lineW) : exec (.dspDone k) s = .next (finishLine k s) :=
  exec_enabled (i := .dspDone k) (lineDoneReady_iff.2 ⟨busy, done⟩)

/-- Settles O46, from all that a pixel beat writes. -/
theorem pixelBeatSendsTheNextEntry : Obligations.PixelBeatSendsTheNextEntry := by
  intro k s busy left
  refine ⟨sendPixel k s, beatPixel k s, exec_dspBeat busy left, fun kept x hx => ?_, rfl, ?_, ?_, rfl⟩
  · simp [beatPixel, kept, hx]
  · rw [sendPixel_dsp, if_pos rfl]
  · rw [sendPixel_dsp, if_neg (Side.other_ne k)]

/-- Settles O47: the write of one channel. -/
theorem lineDoneIdlesTheChannel : Obligations.LineDoneIdlesTheChannel := by
  intro k s busy done
  refine ⟨finishLine k s, exec_dspDone busy done, ?_, ?_, rfl⟩
  · rw [finishLine_dsp, if_pos rfl]
  · rw [finishLine_dsp, if_neg (Side.other_ne k)]

/-! ## The maps -/

/-- The palette store index of a pixel byte, as a number (R106, R107). -/
theorem paletteIndex_eq (p : Byte) : paletteIndex p = 4 * (p.toNat / 16 % 4) + p.toNat % 4 := by
  simp [paletteIndex, pixelGroup, pixelEntry, BitVec.extractLsb'_toNat, Nat.shiftRight_eq_div_pow]

/-- A written palette entry is what DSP.MAP answers (R184). -/
theorem mapColour_of_read {s : State} {d : Nat} {p : Byte} {v : Half}
    (hvalid : s.xc.palV.getLsbD (paletteIndex p) = true)
    (hread : Memory.read? s.xc.pal (paletteIndex p) = some v) : mapColour s d p = v := by
  simp [mapColour, paletteValid, hvalid, hread]

/-- Settles O48: the index is the one of R107. -/
theorem mapSelectsThePaletteEntry : Obligations.MapSelectsThePaletteEntry := by
  intro p s j
  have hj : paletteIndex p = j := paletteIndex_eq p
  rw [← hj]
  refine ⟨_, mapColour s 0 p, rfl, rfl, fun hvalid x hread => mapColour_of_read hvalid hread, ?_, ?_⟩
  · rw [spend_fault]
    exact raiseIf_fault ..
  · rw [raiseIf_eq]
    rfl

/-- In a scaled mode the map is the scaled one (R186). -/
theorem hmap_scaled {p : Params} (h : p.scale ≠ .unscaled) (d : Nat) : hmap p d = scaledSource p d := by
  rw [hmap]
  split
  · next e => exact absurd e h
  · rfl
  · rfl

/-- Settles O49, by the scale mode and the map. -/
theorem horizontalMapOfEachMode : Obligations.HorizontalMapOfEachMode := by
  intro d s
  refine ⟨hmap s.params d.toNat, rfl, fun unscaled => ?_, fun scaled hmode => ?_, fun scaled hmode => ?_,
    fun entries scaled hmode => ⟨fun e he => ?_, fun hnone => ?_⟩⟩
  · rw [hmap, unscaled]; rfl
  · simp only [hmap_scaled scaled, scaledSource, hmode]
  · simp only [hmap_scaled scaled, scaledSource, hmode]
  · simp [hmap_scaled scaled, scaledSource, hmode, he]
  · simp [hmap_scaled scaled, scaledSource, hmode, hnone]

/-! ## Rendering a row -/

/-- What the fill target reads as once a row is rendered (R190). -/
theorem read?_renderRow {s : State} (hwf : Memory.wf (s.disp.line.get s.disp.fillSlot)) (d : Nat) :
    Memory.read? ((renderRow s).disp.line.get s.disp.fillSlot) d =
      (if d < s.params.lineW then (hmap s.params d).map fun x => mapColour s d (rowByte s d x) else none).or
        (Memory.read? (s.disp.line.get s.disp.fillSlot) d) := by
  rw [renderRow_eq, Pair.get_set_same, read?_overlay (wf_renderedLine s) hwf, read?_renderedLine]

/-- A row renders an unwritten colour where some destination shows a source pixel whose palette entry was never written
(R184, R190). -/
theorem rendersUnwritten_iff {s : State} :
    rendersUnwritten s = true ↔
      ∃ d x, d < s.params.lineW ∧ hmap s.params d = some x ∧ paletteValid s (rowByte s d x) = false := by
  simp only [rendersUnwritten, List.any_eq_true, List.mem_range]
  constructor
  · rintro ⟨d, hd, h⟩
    cases hx : hmap s.params d with
    | none => rw [hx] at h; cases h
    | some x => rw [hx] at h; exact ⟨d, x, hd, hx, by simpa using h⟩
  · rintro ⟨d, x, hd, hx, h⟩
    exact ⟨d, hd, by rw [hx]; simp [h]⟩

theorem rowByte_of_read {s : State} {d x : Nat} {p : Byte} (h : Memory.read? s.xc.rowbuf x = some p) :
    rowByte s d x = p := by
  simp [rowByte, h]

/-- Settles O43, from what the rendered line reads as and from when it reads an unwritten colour. -/
theorem renderRowPollMapsTheRow : Obligations.RenderRowPollMapsTheRow := by
  intro s hrs hwf
  refine ⟨renderRow s, exec_dspPollRr hrs, fun d x p v hd hx hrow hvalid hpal => ?_, fun d hd => ?_, ?_,
    ⟨rendersUnwritten s, by rw [renderRow_eq]; rfl, ?_, fun hall => ?_⟩, fun k => ?_, by rw [renderRow_eq]⟩
  · rw [read?_renderRow hwf, if_pos hd, hx, Option.map_some, rowByte_of_read hrow, mapColour_of_read hvalid hpal,
      Option.some_or]
  · have hnothing : (if d < s.params.lineW then
        (hmap s.params d).map fun x => mapColour s d (rowByte s d x) else none) = none := by
      rcases hd with hd | hd
      · exact if_neg (Nat.not_lt.2 hd)
      · simp [hd]
    rw [read?_renderRow hwf, hnothing, Option.none_or]
  · rw [renderRow_eq, Pair.get_set_other]
  · rintro ⟨d, x, p, hd, hx, hrow, hinvalid⟩
    exact rendersUnwritten_iff.2 ⟨d, x, hd, hx, by rw [rowByte_of_read hrow]; exact hinvalid⟩
  · refine Bool.eq_false_iff.2 fun h => ?_
    obtain ⟨d, x, hd, hx, hinvalid⟩ := rendersUnwritten_iff.1 h
    obtain ⟨p, hrow, hvalid⟩ := hall d x hd hx
    rw [rowByte_of_read hrow, paletteValid, hvalid] at hinvalid
    cases hinvalid
  · rw [renderRow_dsp]

/-! ## Driving a line -/

/-- Polls that do not issue use up the bound of DSP.DRIVELINE (R116). -/
theorem driveLine_add {n : Nat} : ∀ {s : State}, (∀ j, j < n → willIssue (poll^[j] s) = false) → ∀ k,
    driveLine (n + k) s = driveLine k (poll^[n] s) := by
  induction n with
  | zero => intro s _ k; rw [Nat.zero_add]; rfl
  | succ n ih =>
    intro s h k
    rw [Nat.add_right_comm, driveLine_wait (s := s) _ (h 0 (Nat.succ_pos n)),
      ih (fun j hj => h (j + 1) (by omega)) k]
    rfl

/-- Polls leave the dispatcher. -/
theorem poll_iterate_xc (n : Nat) (s : State) : (poll^[n] s).xc = s.xc := by
  induction n with
  | zero => rfl
  | succ n ih => rw [Function.iterate_succ_apply', (poll_displayStep _).xc, ih]

/-- While a command is drawn the loop of CTX_B is XC.DRIVE, and a drive that issues no line is a poll (R229, R231). -/
theorem runConsumer_add {n : Nat} : ∀ {s : State}, s.xc.cst = .draw →
    (∀ j, j < n → willIssue (poll^[j] s) = false) → ∀ k,
    runConsumer (n + k) s = runConsumer k (poll^[n] s) := by
  induction n with
  | zero => intro s _ _ k; rw [Nat.zero_add]; rfl
  | succ n ih =>
    intro s hdraw h k
    have hstep : exec (consumerStep s) s = .next (poll s) := by
      rw [consumerStep, hdraw]
      exact (exec_xcDrive hdraw).trans (by rw [driveEngine, if_neg (by simpa using h 0 (Nat.succ_pos n))])
    have hpolled : (poll s).xc.cst = .draw := by rw [(poll_displayStep s).xc, hdraw]
    rw [Nat.add_right_comm, runConsumer, hstep]
    exact ih hpolled (fun j hj => h (j + 1) (by omega)) k

/-- A turn of CTX_B at the end of a run of them. -/
theorem runConsumer_succ (n : Nat) : ∀ s : State, ∃ t, runConsumer n s = .next t ∧
    runConsumer (n + 1) s = exec (consumerStep t) t := by
  induction n with
  | zero =>
    intro s
    obtain ⟨t, ht⟩ := exec_next (consumerStep s) s
    exact ⟨s, rfl, by rw [runConsumer, ht]; rfl⟩
  | succ n ih =>
    intro s
    obtain ⟨u, hu⟩ := exec_next (consumerStep s) s
    obtain ⟨t, ht, hlast⟩ := ih u
    refine ⟨t, ?_, ?_⟩
    · rw [runConsumer, hu]; exact ht
    · rw [runConsumer, hu]; exact hlast

theorem consumerStep_eq (s : State) : consumerStep s = if s.xc.cst = .pop then .xcPop else .xcDrive := by
  rw [consumerStep]
  cases s.xc.cst <;> rfl

/-- The loop discards NOP words, one each turn (R228). -/
theorem runConsumer_nops (ws : List Word) : ∀ {rest : List Word} {s : State}, s.xc.cst = .pop →
    s.xc.fifo = ws ++ rest → (∀ w ∈ ws, w.toNat % 256 = 0) →
    runConsumer ws.length s = .next { s with xc := { s.xc with fifo := rest } } := by
  induction ws with
  | nil =>
    intro rest s _ hfifo _
    obtain rfl : s.xc.fifo = rest := hfifo
    rfl
  | cons w ws ih =>
    intro rest s hpop hfifo hnops
    have hstep : exec (consumerStep s) s = .next { s with xc := { s.xc with fifo := ws ++ rest } } := by
      rw [consumerStep, hpop]
      exact (exec_xcPop hpop hfifo).trans (by rw [runCommand, decodeCommand_nop (hnops w (by simp))]; rfl)
    rw [List.length_cons, runConsumer, hstep]
    exact ih hpop rfl fun x hx => hnops x (by simp [hx])

/-- The poll that issues leaves the channel it toggled to busy (R192). -/
theorem poll_issues {s : State} (h : willIssue s = true) :
    (poll s).disp.dCh = s.disp.dCh.other ∧ ((poll s).dsp (poll s).disp.dCh).busy = true := by
  obtain ⟨hrs, idle⟩ := willIssue_eq_true.1 h
  have hdisp : (poll s).disp.dCh = (issueLine s).disp.dCh ∧ (poll s).disp.chan = (issueLine s).disp.chan := by
    rw [poll_waitDma hrs, pollWaitDma_idle idle, countRow]
    split <;> exact ⟨rfl, rfl⟩
  have hdCh : (poll s).disp.dCh = s.disp.dCh.other := by rw [hdisp.1, issueLine_eq]
  refine ⟨hdCh, ?_⟩
  rw [hdCh, dsp_eq, hdisp.2, ← dsp_eq, issueLine_dsp, if_pos rfl]

/-- Settles O60: the bound is used up poll by poll until one issues, and so is the loop of CTX_B. -/
theorem driveLinePollsUpToTheIssue : Obligations.DriveLinePollsUpToTheIssue := by
  refine ⟨fun n s hwait => ?_, fun n s => ?_, fun ws rest s => runConsumer_nops ws, ?_⟩
  · have hwait : ∀ j, j < n → willIssue (poll^[j] s) = false := fun j hj =>
      Bool.eq_false_iff.2 fun e => hwait j hj (willIssue_eq_true.1 e)
    refine ⟨fun m hm => driveLine_add (fun j hj => hwait j (by omega)) 0, fun hrs idle => ?_⟩
    have hissue : willIssue (poll^[n] s) = true := willIssue_eq_true.2 ⟨hrs, idle⟩
    have hlast (k : Nat) : driveLine (n + (k + 1)) s = poll (poll^[n] s) := by
      rw [driveLine_add hwait, driveLine_issue k hissue]
    obtain ⟨hdCh, hbusy⟩ := poll_issues hissue
    refine ⟨fun m hm => ?_, ?_, ?_, fun hdraw hleft => ?_⟩
    · obtain ⟨k, rfl⟩ : ∃ k, m = n + (k + 1) := ⟨m - n - 1, by omega⟩
      rw [hlast, Function.iterate_succ_apply']
    · rw [hlast 0, hdCh]
    · rw [hlast 0, hbusy]
    · have hxc := poll_iterate_xc n s
      have hdraw' : (poll^[n] s).xc.cst = .draw := by rw [hxc, hdraw]
      have hdrive := driveEngine_last hissue (by rw [hxc, hleft])
      rw [runConsumer_add hdraw hwait, runConsumer, consumerStep, hdraw', exec_xcDrive hdraw', hdrive, hxc, hlast 0]
      rfl
  · obtain ⟨t, ht, hlast⟩ := runConsumer_succ n s
    exact ⟨t, ht, by rw [hlast, consumerStep_eq]⟩
  · intro s bytes rest ts i hs hd hplace hassembled
    rw [step_of_decode hs hd, takeStep_held]
    simp [held, heldByConsumer, hplace, hassembled]

end Sys2Proof.Machine
end

section
/-! PROOF. Filling the SampleBlocks, the sequence of fills, and starting a session (40_audio R131, R135, R145). -/

namespace Sys2Proof.Machine

/-! ## One fill -/

/-- "Fewer than `CAP` samples remain", in both directions (R135). -/
theorem fillFinal_eq_true {s : State} (h : s.audio.rem.toNat < 1024) : fillFinal s = true := decide_eq_true h

theorem fillFinal_eq_false {s : State} (h : 1024 ≤ s.audio.rem.toNat) : fillFinal s = false :=
  decide_eq_false (Nat.not_lt.2 h)

/-- What is left of the samples after a fill that takes a whole block (R135). -/
theorem rem_sub_cap {s : State} (h : 1024 ≤ s.audio.rem.toNat) :
    (s.audio.rem - BitVec.ofNat 32 CAP).toNat = s.audio.rem.toNat - 1024 :=
  BitVec.toNat_sub_of_le (BitVec.le_def.2 h)

/-- The level of a slot at a volume that was written (R135). -/
theorem fillLevel_eq {s : State} (hvol : s.audio.volV = true) (c : Side) (i : Nat) :
    fillLevel c s i = sampleLevel s (fillBase s + i) := by
  simp [fillLevel, sampleLevel, fillVolume, hvol]

/-- What a block reads as once a fill has written its slots over it. -/
theorem read?_filled {m : Memory 8} (hm : Memory.wf m) (c : Side) (s : State) (i : Nat) :
    Memory.read? (Memory.overlay (fillSlots c s) m) i =
      if i < fillCount s then some (fillLevel c s i) else Memory.read? m i := by
  rw [read?_overlay (wf_fillSlots c s) hm, read?_fillSlots]
  split <;> rfl

/-- The count a fill leaves in its channel, as a number (R135). -/
theorem fill_len_toNat (s : State) (len : Word) :
    (if fillFinal s then BitVec.ofNat 32 (fillCount s) else len).toNat =
      if s.audio.rem.toNat < 1024 then s.audio.rem.toNat else len.toNat := by
  by_cases h : s.audio.rem.toNat < 1024
  · rw [fillFinal_eq_true h, if_pos rfl, fillCount_toNat, if_pos h]
    exact Nat.min_eq_left (Nat.le_of_lt h)
  · rw [fillFinal_eq_false (Nat.le_of_not_lt h), if_neg (by simp), if_neg h]

theorem fillChannel_aud (c : Side) (s : State) :
    (fillChannel c s).aud c = { s.aud c with
      block := Memory.overlay (fillSlots c s) (s.aud c).block
      len := if fillFinal s then BitVec.ofNat 32 (fillCount s) else (s.aud c).len
      raced := (s.aud c).raced || (s.aud c).busy } := by
  rw [fillChannel_eq]
  exact Pair.get_set_same ..

/-- What a fill leaves of its channel. -/
theorem fillChannel_aud_frame (c : Side) (s : State) :
    (fillChannel c s).aud c = { s.aud c with
      block := ((fillChannel c s).aud c).block
      len := ((fillChannel c s).aud c).len
      raced := ((fillChannel c s).aud c).raced } := by
  rw [fillChannel_aud]

theorem fillChannel_aud_other (c : Side) (s : State) : (fillChannel c s).aud c.other = s.aud c.other := by
  rw [fillChannel_eq]
  exact Pair.get_set_other ..

theorem fillChannel_total (c : Side) (s : State) : (fillChannel c s).audio.total = s.audio.total := by
  rw [fillChannel_eq]

/-- A fill of the final partial block (R135). -/
theorem fillChannel_last (c : Side) {s : State} (h : s.audio.rem.toNat < 1024) :
    ((fillChannel c s).aud c).len.toNat = s.audio.rem.toNat ∧ (fillChannel c s).audio.rem = s.audio.total := by
  constructor
  · rw [fillChannel_aud, fill_len_toNat, if_pos h]
  · rw [fillChannel_eq, fillFinal_eq_true h]
    rfl

/-- A fill of a whole block (R135). -/
theorem fillChannel_more (c : Side) {s : State} (h : 1024 ≤ s.audio.rem.toNat) :
    ((fillChannel c s).aud c).len = (s.aud c).len ∧
      (fillChannel c s).audio.rem.toNat = s.audio.rem.toNat - 1024 := by
  constructor
  · rw [fillChannel_aud, fillFinal_eq_false h]
    rfl
  · rw [fillChannel_eq, fillFinal_eq_false h]
    exact rem_sub_cap h

/-- Settles O32, from what the block reads as and the two cases of the final block. -/
theorem fillMixesTheNextBlock : Obligations.FillMixesTheNextBlock := by
  intro c s hwf
  have hblock : ((fillChannel c s).aud c).block = Memory.overlay (fillSlots c s) (s.aud c).block := by
    rw [fillChannel_aud]
  refine ⟨_, exec_audFill c s, fun hvol i hi => ?_, fun i hi => ?_, fun few => ?_, fun many => ?_, ?_, ?_, ?_, ?_⟩
  · have hread := (read?_filled hwf c s i).trans (if_pos hi)
    rw [fillLevel_eq hvol] at hread
    exact (congrArg (Memory.read? · i) hblock).trans hread
  · exact (congrArg (Memory.read? · i) hblock).trans ((read?_filled hwf c s i).trans (if_neg (Nat.not_lt.2 hi)))
  · obtain ⟨hlen, hrem⟩ := fillChannel_last c few
    exact ⟨hlen, hrem, congrArg Returned.final (fillFinal_eq_true few)⟩
  · obtain ⟨hlen, hrem⟩ := fillChannel_more c many
    exact ⟨hlen, hrem, congrArg Returned.final (fillFinal_eq_false many)⟩
  · rw [spend_fault, fillChannel_eq]
    cases s.audio.volV <;> rfl
  · exact fillChannel_aud_frame c s
  · exact fillChannel_aud_other c s
  · rw [fillChannel_eq]
    rfl

/-! ## A sequence of fills -/

theorem alternateFills_succ (n : Nat) : ∀ c : Side,
    alternateFills (n + 1) c = alternateFills n c ++ [.audFill (Side.other^[n] c)] := by
  induction n with
  | zero => intro c; rfl
  | succ n ih =>
    intro c
    rw [alternateFills, ih c.other, Function.iterate_succ_apply]
    rfl

/-- While whole blocks are left each fill takes one, and returns that it was not the final one (R145). -/
theorem execAll_fills (j : Nat) : ∀ (c : Side) (s : State), 1024 * j ≤ s.audio.rem.toNat →
    ∃ t, execAll (alternateFills j c) s = .next t ∧ t.audio.total = s.audio.total ∧
      t.audio.rem.toNat = s.audio.rem.toNat - 1024 * j ∧ (0 < j → t.ret = .final false) := by
  induction j with
  | zero => exact fun c s _ => ⟨s, rfl, rfl, by omega, nofun⟩
  | succ j ih =>
    intro c s hj
    obtain ⟨t, ht, htotal, hrem, -⟩ := ih c s (by omega)
    have more : 1024 ≤ t.audio.rem.toNat := by omega
    refine ⟨({ fillChannel (Side.other^[j] c) t with ret := .final (fillFinal t) }).spend, ?_, ?_, ?_, fun _ => ?_⟩
    · rw [alternateFills_succ, execAll_append ht]
      rfl
    · exact (fillChannel_total ..).trans htotal
    · exact (fillChannel_more _ more).2.trans (by omega)
    · exact congrArg Returned.final (fillFinal_eq_false more)

/-- Settles O34: `N div CAP` whole blocks, and then the final one. -/
theorem fillSequenceConsumesExactlyN : Obligations.FillSequenceConsumesExactlyN := by
  intro s N htotal hrem
  have whole (j : Nat) (hj : j ≤ N / 1024) := execAll_fills j .a s (by omega)
  refine ⟨fun j hj => ?_, ?_⟩
  · obtain ⟨t, ht, -, hleft, hret⟩ := whole j hj
    exact ⟨t, ht, by rw [hleft, hrem], hret⟩
  · obtain ⟨t, ht, hsame, hleft, -⟩ := whole (N / 1024) (Nat.le_refl _)
    have last : t.audio.rem.toNat < 1024 := by omega
    obtain ⟨hlen, hreload⟩ := fillChannel_last (Side.other^[N / 1024] .a) last
    refine ⟨({ fillChannel (Side.other^[N / 1024] .a) t with ret := .final (fillFinal t) }).spend, ?_, ?_, ?_, ?_⟩
    · rw [alternateFills_succ, execAll_append ht]
      rfl
    · exact congrArg Returned.final (fillFinal_eq_true last)
    · exact (congrArg BitVec.toNat (hreload.trans hsame)).trans htotal
    · exact hlen.trans (by omega)

/-! ## Starting a session -/

/-- `REM` after a fill: reloaded on the final block, and else a block less (R135). -/
theorem fillAndPropagate_rem (c : Side) (s : State) :
    (fillAndPropagate c s).audio.rem.toNat =
      if s.audio.rem.toNat < 1024 then s.audio.total.toNat else s.audio.rem.toNat - 1024 := by
  rw [fillAndPropagate_eq]
  by_cases few : s.audio.rem.toNat < 1024
  · rw [fillFinal_eq_true few, if_pos rfl, if_pos few]
  · rw [fillFinal_eq_false (Nat.le_of_not_lt few), if_neg (by simp), if_neg few]
    exact rem_sub_cap (Nat.le_of_not_lt few)

/-- What a sample's level depends on. -/
theorem sampleLevel_congr {s t : State} (hsrc : t.audio.src = s.audio.src) (hvol : t.audio.vol = s.audio.vol)
    (hmem : t.srcMem = s.srcMem) (hdraws : t.draws = s.draws) (n : Nat) : sampleLevel t n = sampleLevel s n := by
  simp only [sampleLevel, srcVal, srcByte, State.drawByte, hsrc, hvol, hmem, hdraws]

/-- A block primed by a fill of `s1`, read where the fill wrote and where it did not. -/
theorem read?_primed {m : Memory 8} (hm : Memory.wf m) (c : Side) (s1 : State) :
    (s1.audio.volV = true → ∀ i, i < min s1.audio.rem.toNat 1024 →
      Memory.read? (Memory.overlay (fillSlots c s1) m) i = some (sampleLevel s1 (fillBase s1 + i))) ∧
    ∀ i, min s1.audio.rem.toNat 1024 ≤ i →
      Memory.read? (Memory.overlay (fillSlots c s1) m) i = Memory.read? m i := by
  refine ⟨fun hvol i hi => ?_, fun i hi => ?_⟩
  · rw [read?_filled hm, ← fillLevel_eq hvol c]
    exact if_pos hi
  · rw [read?_filled hm]
    exact if_neg (Nat.not_lt.2 hi)

/-- The count of a primed channel (R131, R135). -/
theorem primed_len (s1 : State) :
    (if fillFinal s1 then BitVec.ofNat 32 (fillCount s1) else BitVec.ofNat 32 CAP).toNat =
      min s1.audio.rem.toNat 1024 := by
  rw [fill_len_toNat]
  split
  · omega
  · simp only [CAP, BitVec.toNat_ofNat]
    omega

/-- The samples left for B's priming fill. -/
def restAfterFirst (len : Word) : Nat := if len.toNat < 1024 then len.toNat else len.toNat - 1024

section
variable (src len prio : Word) (s : State)

/-- The state in which AUD.START fills A: the session recorded, `REM` the whole length (R131). -/
theorem prepareSession_reads :
    (prepareSession src len prio s).audio.total = len ∧ (prepareSession src len prio s).audio.rem = len ∧
      (prepareSession src len prio s).audio.volV = s.audio.volV := by
  rw [prepareSession_eq]
  exact ⟨rfl, rfl, rfl⟩

/-- What a priming fill mixes at sample `n`: the sample of the new source at the volume as it is (R131, R135). -/
theorem sampleLevel_prepareSession (n : Nat) :
    sampleLevel (prepareSession src len prio s) n = sampleLevel (withSource src s) n := by
  apply sampleLevel_congr <;> rw [prepareSession_eq] <;> rfl

/-- The state in which AUD.START fills B, as far as that fill reads it. -/
theorem firstFill_reads :
    (fillAndPropagate .a (prepareSession src len prio s)).audio.total = len ∧
      (fillAndPropagate .a (prepareSession src len prio s)).audio.rem.toNat = restAfterFirst len ∧
      (fillAndPropagate .a (prepareSession src len prio s)).audio.volV = s.audio.volV ∧
      ∀ n, sampleLevel (fillAndPropagate .a (prepareSession src len prio s)) n =
        sampleLevel (withSource src s) n := by
  obtain ⟨htotal, hrem, hvol⟩ := prepareSession_reads src len prio s
  refine ⟨?_, ?_, ?_, fun n => ?_⟩
  · rw [fillAndPropagate_eq]; exact htotal
  · rw [fillAndPropagate_rem, hrem, htotal, restAfterFirst]
  · rw [fillAndPropagate_eq]; exact hvol
  · rw [← sampleLevel_prepareSession src len prio s]
    apply sampleLevel_congr <;> rw [fillAndPropagate_eq]

/-- Channel A of a new session: what its priming fill leaves (R131). -/
theorem startSession_primes_a :
    ((startSession src len prio s).aud .a).term = decide (len.toNat < 1024) ∧
      ((startSession src len prio s).aud .a).len.toNat = min len.toNat 1024 ∧
      (Memory.wf (s.aud .a).block → s.audio.volV = true → ∀ i, i < min len.toNat 1024 →
        Memory.read? ((startSession src len prio s).aud .a).block i = some (sampleLevel (withSource src s) i)) ∧
      (Memory.wf (s.aud .a).block → ∀ i, min len.toNat 1024 ≤ i →
        Memory.read? ((startSession src len prio s).aud .a).block i = Memory.read? (s.aud .a).block i) := by
  obtain ⟨htotal, hrem, hvol⟩ := prepareSession_reads src len prio s
  have hbase : fillBase (prepareSession src len prio s) = 0 := by rw [fillBase, htotal, hrem, Nat.sub_self]
  rw [startSession_aud_a]
  refine ⟨?_, ?_, fun hwf hv i hi => ?_, fun hwf i hi => ?_⟩
  · simp only [fillFinal, hrem, CAP]
  · simp only [primed_len, hrem]
  · have hread := (read?_primed hwf .a (prepareSession src len prio s)).1 (hvol.trans hv) i (by rwa [hrem])
    rwa [sampleLevel_prepareSession, hbase, Nat.zero_add] at hread
  · exact (read?_primed hwf .a (prepareSession src len prio s)).2 i (by rwa [hrem])

/-- Channel B of a new session: what its priming fill leaves (R131). -/
theorem startSession_primes_b :
    ((startSession src len prio s).aud .b).term = decide (restAfterFirst len < 1024) ∧
      ((startSession src len prio s).aud .b).len.toNat = min (restAfterFirst len) 1024 ∧
      (Memory.wf (s.aud .b).block → s.audio.volV = true → ∀ i, i < min (restAfterFirst len) 1024 →
        Memory.read? ((startSession src len prio s).aud .b).block i =
          some (sampleLevel (withSource src s) (len.toNat - restAfterFirst len + i))) ∧
      (Memory.wf (s.aud .b).block → ∀ i, min (restAfterFirst len) 1024 ≤ i →
        Memory.read? ((startSession src len prio s).aud .b).block i = Memory.read? (s.aud .b).block i) := by
  obtain ⟨htotal, hrem, hvol, hsample⟩ := firstFill_reads src len prio s
  rw [startSession_aud_b]
  generalize fillAndPropagate .a (prepareSession src len prio s) = s2 at htotal hrem hvol hsample ⊢
  have hbase : fillBase s2 = len.toNat - restAfterFirst len := by rw [fillBase, htotal, hrem]
  refine ⟨?_, ?_, fun hwf hv i hi => ?_, fun hwf i hi => ?_⟩
  · simp only [fillFinal, hrem, CAP]
  · simp only [primed_len, hrem]
  · have hread := (read?_primed hwf .b s2).1 (hvol.trans hv) i (by rwa [hrem])
    rwa [hsample, hbase] at hread
  · exact (read?_primed hwf .b s2).2 i (by rwa [hrem])

/-- `REM` of a new session (R131). -/
theorem startSession_rem :
    (startSession src len prio s).audio.rem.toNat =
      if restAfterFirst len < 1024 then len.toNat else restAfterFirst len - 1024 := by
  obtain ⟨htotal, hrem, -, -⟩ := firstFill_reads src len prio s
  rw [startSession_eq, primeBuffers, fillAndPropagate_rem, htotal, hrem]

/-- Both channels of a new session are armed (R131). -/
theorem startSession_armed (c : Side) :
    ((startSession src len prio s).aud c).rd = 0#32 ∧ ((startSession src len prio s).aud c).ip = false ∧
      ((startSession src len prio s).aud c).ie = true ∧ ((startSession src len prio s).aud c).refill = false := by
  cases c
  · rw [startSession_aud_a]; exact ⟨rfl, rfl, rfl, rfl⟩
  · rw [startSession_aud_b]; exact ⟨rfl, rfl, rfl, rfl⟩

/-- The runs of a new session: A's is started, unless it was in progress, and B's is left as it was (R131, R139). -/
theorem startSession_runs :
    ((startSession src len prio s).aud .a).busy = true ∧
      ((startSession src len prio s).aud .b).busy = (s.aud .b).busy ∧
      ((startSession src len prio s).aud .a).cnt =
        (if (s.aud .a).busy then (s.aud .a).cnt else ((startSession src len prio s).aud .a).len) ∧
      ((startSession src len prio s).aud .b).cnt = (s.aud .b).cnt ∧
      ((startSession src len prio s).aud .a).raced = (s.aud .a).busy := by
  rw [startSession_aud_a, startSession_aud_b]
  exact ⟨rfl, rfl, rfl, rfl, rfl⟩

/-- The bits AUD.START sets (R131, R254). -/
theorem startSession_fault :
    (startSession src len prio s).fault =
      s.fault ||| faultBits s.audioBusy 0x03#8 ||| faultBits (!s.audio.volV) 0x20#8 := by
  rw [startSession_eq]
  cases s.audio.volV <;> rfl

end

/-- Settles O35: the two priming fills in their order, and what arming and triggering leave. -/
theorem startPrimesArmsAndPlays : Obligations.StartPrimesArmsAndPlays := by
  intro src len prio s hwf
  obtain ⟨htermA, hlenA, hreadA, hkeptA⟩ := startSession_primes_a src len prio s
  obtain ⟨htermB, hlenB, hreadB, hkeptB⟩ := startSession_primes_b src len prio s
  obtain ⟨hbusyA, hbusyB, hcntA, hcntB, -⟩ := startSession_runs src len prio s
  refine ⟨startSession src len prio s, rfl, by rw [startSession_eq], by rw [startSession_eq],
    by rw [startSession_eq], by rw [startSession_eq],
    startSession_rem src len prio s, htermA, htermB, hlenA, hlenB, startSession_armed src len prio s, hbusyA, hbusyB,
    hcntA, hcntB, hreadA (hwf .a), hreadB (hwf .b), hkeptA (hwf .a), hkeptB (hwf .b),
    startSession_fault src len prio s, ?_⟩
  rw [startSession_eq]

end Sys2Proof.Machine
end

section
/-! PROOF. A session that fits one buffer, from its start to silence (40_audio R146; 70_reset_and_hazards R303). -/

namespace Sys2Proof.Machine

/-- Beats of one channel up to the end of its run, within the contract: each outputs its level (R140). -/
theorem execAll_beats (c : Side) (levels : List Byte) : ∀ s : State,
    (s.aud c).busy = true → (s.aud c).cnt.toNat = levels.length → (s.aud c).raced = false →
    (s.aud c).rd.toNat + levels.length ≤ 1024 → s.faulted .audReconfig = false →
    (∀ i (h : i < levels.length), Memory.read? (s.aud c).block ((s.aud c).rd.toNat + i) = some levels[i]) →
    ∃ t, execAll (List.replicate levels.length (.audBeat c)) s = .next t ∧
      t.audio.trace = s.audio.trace ++ levels ∧
      t.aud c = { s.aud c with rd := (t.aud c).rd, cnt := 0#32 } ∧ t.aud c.other = s.aud c.other ∧
      t.fault = s.fault ∧ t.params = s.params := by
  induction levels with
  | nil =>
    intro s _ hcnt _ _ _ _
    have hzero : (s.aud c).cnt = 0#32 := BitVec.eq_of_toNat_eq hcnt
    exact ⟨s, rfl, by simp, by rw [← hzero], rfl, rfl, rfl⟩
  | cons x levels ih =>
    intro s busy hcnt kept hfits clean hread
    rw [List.length_cons] at hcnt hfits
    have left : (s.aud c).cnt ≠ 0#32 := fun e => by simp [e] at hcnt
    have inside : (s.aud c).rd.toNat < 1024 := by omega
    obtain ⟨u, v, hu, hlevel, -, htrace, hfault, hchan, hother, hframe⟩ :=
      beatOutputsTheEntryAtTheReadPointer c s busy left
    have hv : v = x := hlevel inside kept clean x (hread 0 (Nat.succ_pos _))
    have hclean : u.fault = s.fault := by simp [hfault, faultBits, Nat.not_le.2 inside]
    have hrd : (u.aud c).rd.toNat = (s.aud c).rd.toNat + 1 := by
      rw [hchan]
      simp only [BitVec.toNat_add, BitVec.toNat_ofNat]
      omega
    have hleft : (u.aud c).cnt.toNat = levels.length := by
      rw [hchan]
      simp only [BitVec.toNat_sub, BitVec.toNat_ofNat]
      omega
    obtain ⟨t, ht, htrace', hchan', hother', hfault', hparams'⟩ := ih u (by rw [hchan]; exact busy) hleft
      (by rw [hchan]; exact kept) (by omega) (by rw [State.faulted, hclean]; exact clean) fun i hi => by
        have hnext := hread (i + 1) (by simpa using hi)
        rw [hrd, hchan, Nat.add_assoc, Nat.add_comm 1 i]
        exact hnext
    refine ⟨t, ?_, ?_, ?_, hother'.trans hother, hfault'.trans hclean, ?_⟩
    · rw [List.length_cons, List.replicate_succ, execAll, hu]
      exact ht
    · rw [htrace', htrace, hv, List.append_assoc, List.singleton_append]
    · rw [hchan', hchan]
    · rw [hparams', hframe]

/-- The end of a run whose termination is requested: silence, and no run is left (R141, R142). -/
theorem execAll_lastRun {c : Side} {s : State} (busy : (s.aud c).busy = true) (done : (s.aud c).cnt = 0#32)
    (enabled : (s.aud c).ie = true) (ends : (s.aud c).term = true) (clean : s.faulted .audReconfig = false) :
    ∃ t, execAll [.audDone c, .audIrq c] s = .next t ∧
      t.audio.trace = s.audio.trace ++ [s.params.silence] ∧ t.audio.playing = false ∧ t.audioBusy = false ∧
      t.fault = s.fault := by
  obtain ⟨u, hu, hchan, -, -, hframe⟩ := doneRaisesTheInterruptAndChains c s busy done
  have hclean : u.faulted .audReconfig = false := by rw [State.faulted, hframe]; exact clean
  obtain ⟨t, ht, -, -, hstop⟩ :=
    completionHandlerTerminatesOrRearms c u (by rw [hchan]) (by rw [hchan]; exact enabled)
  obtain ⟨v, hv, hchan', hother', htrace, hframe'⟩ := hstop (by rw [hchan]; exact ends)
  refine ⟨t, by simp only [execAll, hu, ht], ?_, by rw [hframe'], ?_, by rw [hframe', hframe]⟩
  · rw [htrace, hv hclean, hframe]
  · rw [audioBusy_eq t c, hchan', hother', hchan]
    rfl

/-- The end of a run that goes on: the other channel, idle, takes over (R141, R142). -/
theorem execAll_handOver {c : Side} {s : State} (busy : (s.aud c).busy = true) (done : (s.aud c).cnt = 0#32)
    (enabled : (s.aud c).ie = true) (goesOn : (s.aud c).term = false) (idle : (s.aud c.other).busy = false) :
    ∃ t, execAll [.audDone c, .audIrq c] s = .next t ∧ t.audio.trace = s.audio.trace ∧
      t.aud c.other = { s.aud c.other with busy := true, cnt := (s.aud c.other).len, raced := false } ∧
      t.fault = s.fault ∧ t.params = s.params := by
  obtain ⟨u, hu, hchan, hstarted, -, hframe⟩ := doneRaisesTheInterruptAndChains c s busy done
  obtain ⟨t, ht, -, hrearm, -⟩ :=
    completionHandlerTerminatesOrRearms c u (by rw [hchan]) (by rw [hchan]; exact enabled)
  obtain ⟨-, hother, hframe'⟩ := hrearm (by rw [hchan]; exact goesOn)
  exact ⟨t, by simp only [execAll, hu, ht], by rw [hframe', hframe], hother.trans (hstarted idle),
    by rw [hframe', hframe], by rw [hframe', hframe]⟩

/-- A session that fits one buffer, up to the end of A's run: the samples are out, A stands at the end of its run, and B
is primed with the rest and idle (R131, R140). -/
theorem shortSession_playsBlock {src len prio : Word} {s : State} (hwf : Memory.wf (s.aud .a).block)
    (hmax : len.toNat ≤ 1024) (idle : s.audioBusy = false) (hvol : s.audio.volV = true)
    (clean : s.faulted .audReconfig = false) :
    ∃ t, execAll (.audStart src len prio :: List.replicate len.toNat (.audBeat .a)) s = .next t ∧
      t.audio.trace = s.audio.trace ++ (List.range len.toNat).map (sampleLevel (withSource src s)) ∧
      ((t.aud .a).busy = true ∧ (t.aud .a).cnt = 0#32 ∧ (t.aud .a).ie = true ∧
        (t.aud .a).term = decide (len.toNat < 1024)) ∧
      ((t.aud .b).busy = false ∧ (t.aud .b).len.toNat = restAfterFirst len ∧ (t.aud .b).ie = true ∧
        (t.aud .b).term = true) ∧
      t.fault = s.fault ∧ t.params = s.params := by
  obtain ⟨idleA, idleB⟩ : (s.aud .a).busy = false ∧ (s.aud .b).busy = false := by
    simpa [State.audioBusy] using idle
  obtain ⟨htermA, hlenA, hreadA, -⟩ := startSession_primes_a src len prio s
  obtain ⟨htermB, hlenB, -, -⟩ := startSession_primes_b src len prio s
  obtain ⟨hbusyA, hbusyB, hcntA, -, hraced⟩ := startSession_runs src len prio s
  obtain ⟨hrdA, -, hieA, -⟩ := startSession_armed src len prio s .a
  obtain ⟨-, -, hieB, -⟩ := startSession_armed src len prio s .b
  have hrest : restAfterFirst len < 1024 := by rw [restAfterFirst]; split <;> omega
  have hfault : (startSession src len prio s).fault = s.fault := by
    simp [startSession_fault, idle, hvol, faultBits]
  have htrace : (startSession src len prio s).audio.trace = s.audio.trace := by rw [startSession_eq]
  have hlength : ((List.range len.toNat).map (sampleLevel (withSource src s))).length = len.toNat := by simp
  obtain ⟨t, ht, htrace', hchanA, hchanB, hfault', hparams⟩ :=
    execAll_beats .a ((List.range len.toNat).map (sampleLevel (withSource src s))) (startSession src len prio s)
      hbusyA (by rw [hcntA, idleA, hlength]; exact hlenA.trans (Nat.min_eq_left hmax)) (hraced.trans idleA)
      (by rw [hrdA, hlength]; exact (Nat.zero_add _).trans_le hmax) (by rw [State.faulted, hfault]; exact clean)
      fun i hi => by
        rw [hlength] at hi
        rw [hrdA, List.getElem_map, List.getElem_range]
        exact (congrArg _ (Nat.zero_add i)).trans (hreadA hwf hvol i (by omega))
  rw [hlength] at ht
  refine ⟨t, ht, htrace'.trans (by rw [htrace]), ?_, ?_, hfault'.trans hfault,
    hparams.trans (startSession_audioStep src len prio s).params⟩
  · rw [hchanA]
    exact ⟨hbusyA, rfl, hieA, htermA⟩
  · have hB : t.aud .b = (startSession src len prio s).aud .b := hchanB
    rw [hB]
    exact ⟨hbusyB.trans idleB, hlenB.trans (Nat.min_eq_left (Nat.le_of_lt hrest)), hieB,
      htermB.trans (decide_eq_true hrest)⟩

/-- Settles O39: A plays the samples out of its block; a session shorter than the block ends there, and one that fills
it ends with B's run of no slots (R303). -/
theorem shortSessionPlaysItsSamplesThenSilence : Obligations.ShortSessionPlaysItsSamplesThenSilence := by
  intro src len prio s hwf _ hmax idle hvol clean
  obtain ⟨t1, ht1, htrace1, ⟨busyA, doneA, ieA, termA⟩, ⟨idleB, lenB, ieB, termB⟩, hfault1, hparams1⟩ :=
    shortSession_playsBlock (src := src) (prio := prio) (hwf .a) hmax idle hvol clean
  have clean1 : t1.faulted .audReconfig = false := by rw [State.faulted, hfault1]; exact clean
  rw [shortSession, List.append_assoc, ← List.cons_append, execAll_append ht1]
  rcases Nat.lt_or_ge len.toNat 1024 with short | full
  · obtain ⟨t, ht, htrace, hplaying, hbusy, hfault⟩ :=
      execAll_lastRun busyA doneA ieA (by rw [termA, decide_eq_true short]) clean1
    refine ⟨t, ?_, ?_, hplaying, hbusy, hfault.trans hfault1⟩
    · rw [if_neg (Nat.ne_of_lt short), List.append_nil]
      exact ht
    · rw [htrace, htrace1, hparams1]
  · have emptyB : (t1.aud .b).len = 0#32 := BitVec.eq_of_toNat_eq (by
      rw [lenB, restAfterFirst, if_neg (Nat.not_lt.2 full)]
      exact Nat.sub_eq_zero_of_le hmax)
    obtain ⟨t2, ht2, htrace2, hchan2, hfault2, hparams2⟩ :=
      execAll_handOver busyA doneA ieA (by rw [termA, decide_eq_false (Nat.not_lt.2 full)]) idleB
    have hB : t2.aud .b = { t1.aud .b with busy := true, cnt := (t1.aud .b).len, raced := false } := hchan2
    obtain ⟨t, ht, htrace, hplaying, hbusy, hfault⟩ :=
      execAll_lastRun (c := .b) (s := t2) (by rw [hB]) (by rw [hB]; exact emptyB) (by rw [hB]; exact ieB)
        (by rw [hB]; exact termB) (by rw [State.faulted, hfault2]; exact clean1)
    refine ⟨t, ?_, ?_, hplaying, hbusy, hfault.trans (hfault2.trans hfault1)⟩
    · rw [if_pos (Nat.le_antisymm hmax full), execAll_append ht2]
      exact ht
    · rw [htrace, htrace2, htrace1, hparams2, hparams1]

end Sys2Proof.Machine
end

section
/-! PROOF. A frame, each line's transfer finishing before the next line (41_display R195). -/

namespace Sys2Proof.Machine

/-! ## One line's transfer -/

/-- The beats of a transfer from its position to the end of the line send a colour each (R193). -/
theorem execAll_pixels (k : Side) (m : Nat) : ∀ u : State, u.params.lineW < 2 ^ 16 → (u.dsp k).busy = true →
    (u.dsp k).pos.toNat + m = u.params.lineW →
    ∃ (t : State) (colours : List Half), execAll (List.replicate m (.dspBeat k)) u = .next t ∧
      colours.length = m ∧ t.params = u.params ∧ (t.dsp k).busy = true ∧ (t.dsp k).pos.toNat = u.params.lineW ∧
      t.dsp k.other = u.dsp k.other ∧
      t.disp = { u.disp with chan := t.disp.chan, trace := u.disp.trace ++ colours.map (.pix k) } := by
  induction m with
  | zero => exact fun u _ busy hend => ⟨u, [], rfl, rfl, rfl, busy, hend, rfl, by simp⟩
  | succ m ih =>
    intro u hwidth busy hend
    have left : (u.dsp k).pos.toNat < u.params.lineW := by omega
    obtain ⟨w, v, hw, -, htrace, hchan, hother, hframe⟩ := pixelBeatSendsTheNextEntry k u busy left
    have hparams : w.params = u.params := by rw [hframe]
    have hpos : (w.dsp k).pos.toNat + m = w.params.lineW := by
      rw [hchan, hparams]
      simp only [BitVec.toNat_add, BitVec.toNat_ofNat]
      omega
    obtain ⟨t, colours, ht, hlength, hparams', hbusy', hend', hother', hdisp'⟩ :=
      ih w (by rwa [hparams]) (by rw [hchan]; exact busy) hpos
    refine ⟨t, v :: colours, ?_, by rw [List.length_cons, hlength], hparams'.trans hparams, hbusy',
      by rw [hend', hparams], hother'.trans hother, ?_⟩
    · rw [List.replicate_succ, execAll, hw]
      exact ht
    · rw [hdisp', htrace, hframe, List.append_assoc]
      rfl

/-- A transfer from position 0 to its end: a line of colours, and the channel is idle (R193, R194). -/
theorem execAll_drainLine {k : Side} {u : State} (hwidth : u.params.lineW < 2 ^ 16) (busy : (u.dsp k).busy = true)
    (hstart : (u.dsp k).pos = 0#16) :
    ∃ (t : State) (colours : List Half), execAll (drainLine u.params.lineW k) u = .next t ∧
      colours.length = u.params.lineW ∧ t.params = u.params ∧ (t.dsp k).busy = false ∧
      t.dsp k.other = u.dsp k.other ∧
      t.disp = { u.disp with chan := t.disp.chan, trace := u.disp.trace ++ colours.map (.pix k) } := by
  obtain ⟨w, colours, hw, hlength, hparams, hbusy, hend, hother, hdisp⟩ :=
    execAll_pixels k u.params.lineW u hwidth busy (by rw [hstart]; exact Nat.zero_add _)
  obtain ⟨t, ht, hchan, hother', hframe⟩ := lineDoneIdlesTheChannel k w hbusy (by rw [hend, hparams])
  refine ⟨t, colours, ?_, hlength, by rw [hframe, hparams], by rw [hchan], hother'.trans hother, ?_⟩
  · rw [drainLine, execAll_append hw, execAll, ht]
    rfl
  · rw [hframe, hdisp]

/-! ## One line of a frame -/

/-- Counting a row leaves all of the display engine but the render state, the row and `RENDERING` (R191). -/
theorem countRow_frame (s : State) :
    (countRow s).params = s.params ∧ (countRow s).disp.chan = s.disp.chan ∧ (countRow s).disp.dCh = s.disp.dCh ∧
      (countRow s).disp.fillSlot = s.disp.fillSlot ∧ (countRow s).disp.frameReq = s.disp.frameReq ∧
      (countRow s).disp.trace = s.disp.trace := by
  rw [countRow]
  split <;> exact ⟨rfl, rfl, rfl, rfl, rfl, rfl⟩

/-- From `s` to `t` a row was rendered, issued, and sent as the line `colours` (R195). -/
structure LineSent (s t : State) (colours : List Half) : Prop where
  params : t.params = s.params
  idle : ∀ k, (t.dsp k).busy = false
  dCh : t.disp.dCh = s.disp.dCh.other
  fillSlot : t.disp.fillSlot = s.disp.fillSlot.other
  frameReq : t.disp.frameReq = s.disp.frameReq
  width : colours.length = s.params.lineW
  trace : t.disp.trace = s.disp.trace ++ colours.map (.pix s.disp.dCh.other)
  last : s.disp.row.toNat + 1 = s.params.frameH →
    t.disp.rs = .waitFrame ∧ t.disp.row = 0#16 ∧ t.disp.rendering = false
  more : s.disp.row.toNat + 1 ≠ s.params.frameH → t.disp.rs = .renderRow ∧ t.disp.row = s.disp.row + 1#16

/-- One RenderRow→WaitDma cycle with its transfer (R190 to R194). -/
theorem execAll_line {s : State} (hwidth : s.params.lineW < 2 ^ 16) (hrs : s.disp.rs = .renderRow)
    (idle : ∀ k, (s.dsp k).busy = false) :
    ∃ (t : State) (colours : List Half),
      execAll (.dspPollRr :: .dspPollWd :: drainLine s.params.lineW s.disp.dCh.other) s = .next t ∧
        LineSent s t colours := by
  have hrow : (renderRow s).params = s.params ∧ (renderRow s).disp.rs = .waitDma ∧
      (renderRow s).disp.dCh = s.disp.dCh ∧ (renderRow s).disp.fillSlot = s.disp.fillSlot ∧
      (renderRow s).disp.frameReq = s.disp.frameReq ∧ (renderRow s).disp.trace = s.disp.trace ∧
      (renderRow s).disp.row = s.disp.row := by
    rw [renderRow_eq]
    exact ⟨rfl, rfl, rfl, rfl, rfl, rfl, rfl⟩
  have hidle (k : Side) : ((renderRow s).dsp k).busy = false := by rw [renderRow_dsp]; exact idle k
  have hrender := exec_dspPollRr hrs
  generalize renderRow s = r at hrow hidle hrender
  obtain ⟨hparamsR, hrsR, hdChR, hslotR, hreqR, htraceR, hrowR⟩ := hrow
  have hissue : exec .dspPollWd r = .next (countRow (issueLine r)) := by
    rw [exec_dspPollWd hrsR, pollWaitDma_idle (hidle _)]
  obtain ⟨hparamsC, hchanC, hdChC, hslotC, hreqC, htraceC⟩ := countRow_frame (issueLine r)
  have hdspC (k : Side) : (countRow (issueLine r)).dsp k = (issueLine r).dsp k := by rw [dsp_eq, hchanC]; rfl
  have hstarted : (countRow (issueLine r)).dsp s.disp.dCh.other =
      { busy := true, src := r.disp.fillSlot, pos := 0#16, raced := false } := by
    rw [hdspC, issueLine_dsp, hdChR, if_pos rfl]
  have hrest : ((countRow (issueLine r)).dsp s.disp.dCh).busy = false := by
    rw [hdspC, issueLine_dsp, hdChR, if_neg (Side.ne_other _)]
    exact hidle _
  have hlast (h : s.disp.row.toNat + 1 = s.params.frameH) :=
    countRow_last (s := issueLine r) (by rw [issueLine_row, issueLine_params, hrowR, hparamsR, h])
  have hmore (h : s.disp.row.toNat + 1 ≠ s.params.frameH) :=
    countRow_more (s := issueLine r) (by rwa [issueLine_row, issueLine_params, hrowR, hparamsR])
  have hparams : (countRow (issueLine r)).params = s.params := by rw [hparamsC, issueLine_params, hparamsR]
  obtain ⟨t, colours, ht, hlength, hparamsT, hdone, hother, hdisp⟩ :=
    execAll_drainLine (k := s.disp.dCh.other) (u := countRow (issueLine r)) (by rwa [hparams]) (by rw [hstarted])
      (by rw [hstarted])
  rw [hparams] at ht hlength
  refine ⟨t, colours, ?_, hparamsT.trans hparams, fun k => ?_, ?_, ?_, ?_, hlength, ?_, fun h => ?_, fun h => ?_⟩
  · rw [execAll, hrender]
    simp only [execAll, hissue]
    exact ht
  · rcases Side.eq_or_eq_other k s.disp.dCh with rfl | rfl
    · rw [Side.other_other] at hother
      rw [hother, hrest]
    · exact hdone
  · rw [hdisp, hdChC, issueLine_eq, hdChR]
  · rw [hdisp, hslotC, issueLine_eq, hslotR]
  · rw [hdisp, hreqC, issueLine_eq, hreqR]
  · rw [hdisp, htraceC, issueLine_eq, htraceR]
  · rw [hdisp, hlast h]
    exact ⟨rfl, rfl, rfl⟩
  · rw [hdisp, hmore h, issueLine_row, hrowR]
    exact ⟨rfl, rfl⟩

/-! ## All lines of a frame -/

/-- Line `r` of `pixels`, lines of `width` colours, is on channel `other^(r+1)(k)` (R195). -/
def onAlternateChannels (width lines : Nat) (k : Side) (pixels : List PanelEvent) : Prop :=
  ∀ r j, r < lines → j < width → ∃ v, pixels[r * width + j]? = some (.pix (Side.other^[r + 1] k) v)

/-- One line more in front. -/
theorem onAlternateChannels_cons {width lines : Nat} {k : Side} {colours : List Half} {pixels : List PanelEvent}
    (hwidth : colours.length = width) (h : onAlternateChannels width lines k.other pixels) :
    onAlternateChannels width (lines + 1) k (colours.map (.pix k.other) ++ pixels) := by
  intro r j hr hj
  cases r with
  | zero =>
    refine ⟨colours[j]'(by omega), ?_⟩
    rw [Nat.zero_mul, Nat.zero_add, List.getElem?_append_left (by simpa [hwidth] using hj), List.getElem?_map,
      List.getElem?_eq_getElem (by omega)]
    rfl
  | succ r =>
    obtain ⟨v, hv⟩ := h r j (by omega) hj
    refine ⟨v, ?_⟩
    rw [List.getElem?_append_right (by rw [List.length_map, hwidth, Nat.succ_mul]; omega), List.length_map, hwidth,
      show (r + 1) * width + j - width = r * width + j by rw [Nat.succ_mul]; omega, hv]
    rfl

/-- From `s` to `t` the last `lines` lines of a frame were sent, and the engine waits for the next frame (R195). -/
structure LinesSent (lines : Nat) (s t : State) (pixels : List PanelEvent) : Prop where
  rs : t.disp.rs = .waitFrame
  row : t.disp.row = 0#16
  rendering : t.disp.rendering = false
  frameReq : t.disp.frameReq = s.disp.frameReq
  fillSlot : t.disp.fillSlot = Side.other^[lines] s.disp.fillSlot
  dCh : t.disp.dCh = Side.other^[lines] s.disp.dCh
  trace : t.disp.trace = s.disp.trace ++ pixels
  length : pixels.length = lines * s.params.lineW
  channels : onAlternateChannels s.params.lineW lines s.disp.dCh pixels

/-- The lines left of a frame, at least one (R195). -/
theorem execAll_frameLines (n : Nat) : ∀ s : State, s.params.lineW < 2 ^ 16 → s.params.frameH ≤ 2 ^ 16 →
    s.disp.rs = .renderRow → (∀ k, (s.dsp k).busy = false) → s.disp.row.toNat + (n + 1) = s.params.frameH →
    ∃ (t : State) (pixels : List PanelEvent),
      execAll (frameLines s.params.lineW (n + 1) s.disp.dCh) s = .next t ∧ LinesSent (n + 1) s t pixels := by
  induction n with
  | zero =>
    intro s hwidth _ hrs idle hrow
    obtain ⟨t, colours, ht, hline⟩ := execAll_line hwidth hrs idle
    obtain ⟨hrsT, hrowT, hrendT⟩ := hline.last hrow
    refine ⟨t, colours.map (.pix s.disp.dCh.other), ?_, hrsT, hrowT, hrendT, hline.frameReq, hline.fillSlot, hline.dCh,
      hline.trace, by rw [List.length_map, hline.width, Nat.one_mul], ?_⟩
    · rw [frameLines, frameLines, List.append_nil]
      exact ht
    · have hnone : onAlternateChannels s.params.lineW 0 s.disp.dCh.other [] := nofun
      simpa using onAlternateChannels_cons hline.width hnone
  | succ n ih =>
    intro s hwidth hheight hrs idle hrow
    obtain ⟨u, colours, hu, hline⟩ := execAll_line hwidth hrs idle
    obtain ⟨hrsU, hrowU⟩ := hline.more (by omega)
    have hnext : u.disp.row.toNat + (n + 1) = u.params.frameH := by
      rw [hrowU, hline.params]
      simp only [BitVec.toNat_add, BitVec.toNat_ofNat]
      omega
    obtain ⟨t, pixels, ht, hsent⟩ :=
      ih u (by rwa [hline.params]) (by rwa [hline.params]) hrsU hline.idle hnext
    have hlength := hsent.length
    have hchannels := hsent.channels
    rw [hline.params] at ht hlength hchannels
    rw [hline.dCh] at ht hchannels
    refine ⟨t, colours.map (.pix s.disp.dCh.other) ++ pixels, ?_, hsent.rs, hsent.row, hsent.rendering,
      hsent.frameReq.trans hline.frameReq, ?_, ?_, ?_, ?_, onAlternateChannels_cons hline.width hchannels⟩
    · rw [frameLines, ← List.cons_append, ← List.cons_append, execAll_append hu]
      exact ht
    · rw [hsent.fillSlot, hline.fillSlot]; rfl
    · rw [hsent.dCh, hline.dCh]; rfl
    · rw [hsent.trace, hline.trace, List.append_assoc]
    · rw [List.length_append, List.length_map, hline.width, hlength, Nat.succ_mul (n + 1), Nat.add_comm]

/-- Settles O50: the frame is begun and addressed, and then its lines are sent. -/
theorem frameReturnsToWaitFrame : Obligations.FrameReturnsToWaitFrame := by
  intro s hp hrs asked idle
  obtain ⟨hrows, hheight, hwidth⟩ := Params.wf_bounds hp
  have hbegin := (waitFramePollObservesTheRequest s hrs).1 asked
  obtain ⟨u, hu⟩ : ∃ u : State,
      u = { s with disp := { s.disp with frameReq := false, rendering := true, rs := .startFrame } } := ⟨_, rfl⟩
  rw [← hu] at hbegin
  have haddress := (startFramePollAddressesTheFrame u (by rw [hu])).1 (by rw [hu]; exact idle _)
  obtain ⟨w, hw⟩ : ∃ w : State, w = { u with disp := { u.disp with
      trace := u.disp.trace ++ [.frameWindow, .ramWrite], row := 0#16, rs := .renderRow } } := ⟨_, rfl⟩
  rw [← hw] at haddress
  obtain ⟨n, hn⟩ : ∃ n, s.params.frameH = n + 1 := ⟨s.params.frameH - 1, by omega⟩
  have hparams : w.params = s.params := by rw [hw, hu]
  have hdCh : w.disp.dCh = s.disp.dCh := by rw [hw, hu]
  obtain ⟨t, pixels, ht, hsent⟩ := execAll_frameLines n w (by rwa [hparams]) (by rwa [hparams]) (by rw [hw])
    (fun k => by rw [hw, hu]; exact idle k) (by rw [hparams, hn, hw]; exact Nat.zero_add _)
  have htrace := hsent.trace
  have hslot := hsent.fillSlot
  have hreq := hsent.frameReq
  have hlength := hsent.length
  have hchannels := hsent.channels
  rw [hparams, hdCh] at ht hchannels
  rw [hparams] at hlength
  rw [← hn] at ht hchannels hlength hslot
  refine ⟨t, pixels, ?_, hsent.rs, hsent.row, hsent.rendering, ?_, ?_, ?_, ?_, hlength, hchannels⟩
  · rw [frameSteps, execAll, hbegin]
    simp only [execAll, haddress]
    exact ht
  · rw [hreq, hw, hu]
  · rw [hslot, hw, hu]
  · rw [hsent.dCh, hdCh, hn]
  · rw [htrace, hw, hu, List.append_assoc]
    rfl

end Sys2Proof.Machine
end
